-- ==== Sys2Proof/Word.lean ====
section
/-! DEFINITION. The word types of the RBFC (00_scope.md R7, R9, R10): u32 index, timestamp and command words, u64 tracker
results, and the bytes of the shared segment. `BitVec` addition and subtraction are R10's modular operators `+₃₂` and `-₃₂`,
and `BitVec` order is R10's unsigned order. -/

namespace Sys2Proof

/-- u32 (R9): an index, a raw timestamp, a command or operand word. -/
abbrev Word := BitVec 32

/-- u64 (R9): a reconstructed timestamp. -/
abbrev DWord := BitVec 64

/-- One byte of the shared segment (20_memory.md R50). -/
abbrev Byte := BitVec 8

end Sys2Proof
end

