-- ==== Sys2Proof/Config.lean ====
section
/-! DEFINITION. The two channels, data held once per channel, and the parameters of an RBFC (00_scope.md R6, R8). -/

namespace Sys2Proof

/-- The two channels (00_scope.md R6). -/
inductive Chan where
  | rx  -- index 0
  | tx  -- index 1
deriving DecidableEq, Repr

/-- One value for each channel. -/
structure PerChan (α : Type) where
  rx : α
  tx : α
deriving DecidableEq, Repr

/-- The value of channel `ch`. -/
def PerChan.val {α : Type} (p : PerChan α) : Chan → α
  | .rx => p.rx
  | .tx => p.tx

/-- `p` with channel `ch`'s value replaced. -/
def PerChan.set {α : Type} (p : PerChan α) (ch : Chan) (v : α) : PerChan α :=
  match ch with
  | .rx => { p with rx := v }
  | .tx => { p with tx := v }

/-- The parameters of 00_scope.md R8, one value for both sides of the mapping (70_reset_and_hazards.md R259).
No command changes them (10_state.md R21). -/
structure Config where
  /-- `CAP[ch]`: the slot count of a channel. -/
  cap : PerChan Nat
  /-- `SLOT_BYTES`: the size of a slot, both channels. -/
  slotBytes : Nat
  /-- `TS_OFFSET`: the byte offset of `timestampRaw` in a slot. -/
  tsOffset : Nat
  /-- `BASE[ch]`: the address of a channel's segment. -/
  base : PerChan Nat
  /-- `ENV_MAY_CORRUPT`: whether ENV may write the segments. -/
  envMayCorrupt : Bool
deriving DecidableEq, Repr

/-- The reference values of R8. R8 leaves BASE to the platform: the two addresses are a DESIGN CHOICE (log 2). -/
def Config.reference : Config where
  cap := ⟨4, 4⟩
  slotBytes := 76
  tsOffset := 4
  base := ⟨0x1000, 0x2000⟩
  envMayCorrupt := false

end Sys2Proof
end

