-- ==== Sys2Proof/Syntax.lean ====
section
/-! DEFINITION. Roles, ports, operations and commands of the RBFC (30_encoding.md R90 to R97), and the names of the six model
faults (60_exceptions.md R212). -/

namespace Sys2Proof

/-- The role of a port, fixed for the channel's lifetime (00_scope.md R6, 60_exceptions.md R218). -/
inductive Role where
  | producer
  | consumer
deriving DecidableEq, Repr

/-- A command port: one per role and channel (30_encoding.md R90). -/
structure Port where
  role : Role
  chan : Chan
deriving DecidableEq, Repr

/-- `P_RX`, `C_RX`, `P_TX`, `C_TX` of R90's table. -/
abbrev Port.pRX : Port := ⟨.producer, .rx⟩
abbrev Port.cRX : Port := ⟨.consumer, .rx⟩
abbrev Port.pTX : Port := ⟨.producer, .tx⟩
abbrev Port.cTX : Port := ⟨.consumer, .tx⟩

/-- The eight operations of R92's opcode map. -/
inductive Op where
  | push | drainBegin | pop | drainEnd | init | wakeWait | track | tsReset
deriving DecidableEq, Repr

/-- A command with its operands, one constructor per row of opcode_table.json: the channel is the field CH of the command word
(R91), `slot` the operand words of PUSH and `raw` the operand word of TRACK (R97). -/
inductive Instr where
  | push (ch : Chan) (slot : List Word)
  | drainBegin (ch : Chan)
  | pop (ch : Chan)
  | drainEnd (ch : Chan)
  | init (ch : Chan)
  | wakeWait (ch : Chan)
  | track (ch : Chan) (raw : Word)
  | tsReset (ch : Chan)
deriving DecidableEq, Repr

/-- The operation of a command. -/
def Instr.op : Instr → Op
  | .push _ _ => .push
  | .drainBegin _ => .drainBegin
  | .pop _ => .pop
  | .drainEnd _ => .drainEnd
  | .init _ => .init
  | .wakeWait _ => .wakeWait
  | .track _ _ => .track
  | .tsReset _ => .tsReset

/-- The channel of a command. -/
def Instr.chan : Instr → Chan
  | .push ch _ => ch
  | .drainBegin ch => ch
  | .pop ch => ch
  | .drainEnd ch => ch
  | .init ch => ch
  | .wakeWait ch => ch
  | .track ch _ => ch
  | .tsReset ch => ch

/-- The operand words that follow the command word (R97). -/
def Instr.operands : Instr → List Word
  | .push _ slot => slot
  | .drainBegin _ => []
  | .pop _ => []
  | .drainEnd _ => []
  | .init _ => []
  | .wakeWait _ => []
  | .track _ raw => [raw]
  | .tsReset _ => []

/-- The model faults of the spec (60_exceptions.md R212), in code order. -/
inductive FaultCode where
  /-- FLT_ILLEGAL_CMD: raised by decode on a reserved bit or opcode (R93, R94). -/
  | illegalCmd
  /-- FLT_WRONG_PORT: raised on the wrong channel or role (R95). -/
  | wrongPort
  /-- FLT_USE_BEFORE_INIT: PUSH, DRAIN_BEGIN, POP or DRAIN_END while UNINIT. -/
  | useBeforeInit
  /-- FLT_DRAIN_SEQUENCE: DRAIN_BEGIN inside a drain, POP or DRAIN_END outside one. -/
  | drainSequence
  /-- FLT_NOT_QUIESCENT: INIT while a drain is open. -/
  | notQuiescent
  /-- FLT_SLOT_OVERWRITE: PUSH onto a slot that holds an unread index (R141). -/
  | slotOverwrite
deriving DecidableEq, Repr

end Sys2Proof
end

