-- ==== Sys2Proof/WellFormed.lean ====
section
/-! DEFINITION. What a command must satisfy to have an encoding: the one operand whose length the types do not fix. -/

namespace Sys2Proof

/-- The SLOT operand has SLOT_BYTES/4 words (30_encoding.md R97); `slotWords` is that number. Channels, roles and the RAW word
are right by their types. -/
def Instr.wellFormed (slotWords : Nat) : Instr → Bool
  | .push _ slot => slot.length == slotWords
  | .drainBegin _ => true
  | .pop _ => true
  | .drainEnd _ => true
  | .init _ => true
  | .wakeWait _ => true
  | .track _ _ => true
  | .tsReset _ => true

end Sys2Proof
end

