-- ==== Sys2Proof/Decode.lean ====
section
/-! DEFINITION. The decoder, total on every word and every port (30_encoding.md R91 to R97, R100), the encoder written from the
same tables, and the host's view of the decoder. -/

namespace Sys2Proof

/-- Why a word list is not a whole command. -/
inductive Reject where
  /-- No word has arrived. -/
  | noWord
  /-- `CW[31:5] ≠ 0` (R93). -/
  | reservedBits
  /-- A reserved OP (R94). -/
  | reservedOp
  /-- The command word is legal, but not all of its operand words (R97) have arrived. -/
  | missingOperands
deriving DecidableEq, Repr

/-- The opcode number of R92's table. -/
def Op.code : Op → Nat
  | .push => 0x1
  | .drainBegin => 0x2
  | .pop => 0x3
  | .drainEnd => 0x4
  | .init => 0x5
  | .wakeWait => 0x6
  | .track => 0x7
  | .tsReset => 0x8

/-- R92 read the other way; R94's reserved values give `none`. -/
def Op.ofCode : Nat → Option Op
  | 0x1 => some .push
  | 0x2 => some .drainBegin
  | 0x3 => some .pop
  | 0x4 => some .drainEnd
  | 0x5 => some .init
  | 0x6 => some .wakeWait
  | 0x7 => some .track
  | 0x8 => some .tsReset
  | _ => none

/-- The "legal on port role" column of R92. -/
def Op.legalOn : Op → Role → Bool
  | .push, .producer => true
  | .push, .consumer => false
  | .init, .producer => true
  | .init, .consumer => true
  | .drainBegin, .consumer => true
  | .drainBegin, .producer => false
  | .pop, .consumer => true
  | .pop, .producer => false
  | .drainEnd, .consumer => true
  | .drainEnd, .producer => false
  | .wakeWait, .consumer => true
  | .wakeWait, .producer => false
  | .track, .consumer => true
  | .track, .producer => false
  | .tsReset, .consumer => true
  | .tsReset, .producer => false

/-- The value of the field CH for a channel (R91): 0 = RX, 1 = TX. -/
def Chan.bit : Chan → Nat
  | .rx => 0
  | .tx => 1

/-- R91's fields of a command word. -/
def fieldOp (cw : Word) : BitVec 4 := cw.extractLsb' 0 4
def fieldCh (cw : Word) : Bool := cw.getLsbD 4
def fieldRsv (cw : Word) : BitVec 27 := cw.extractLsb' 5 27

/-- The part of R96 that needs no port: R93 first, then R94. -/
def decodeCW (cw : Word) : Except Reject (Op × Chan) :=
  if fieldRsv cw ≠ 0 then .error .reservedBits
  else match Op.ofCode (fieldOp cw).toNat with
    | none => .error .reservedOp
    | some op => .ok (op, if fieldCh cw then .tx else .rx)

/-- R95: the port check of a legal command word, channel before role. `none` is "legal". -/
def portFault (q : Port) (op : Op) (ch : Chan) : Option FaultCode :=
  if ch ≠ q.chan then some .wrongPort
  else if op.legalOn q.role then none
  else some .wrongPort

/-- R96 whole: `decode(q, cw)`, with the checks in R96's order. -/
def decodeAt (q : Port) (cw : Word) : Except FaultCode (Op × Chan) :=
  match decodeCW cw with
  | .error _ => .error .illegalCmd
  | .ok (op, ch) =>
    match portFault q op ch with
    | some code => .error code
    | none => .ok (op, ch)

/-- The number of operand words an operation takes (R97). -/
def Op.operandCount (slotWords : Nat) : Op → Nat
  | .push => slotWords
  | .track => 1
  | .drainBegin => 0
  | .pop => 0
  | .drainEnd => 0
  | .init => 0
  | .wakeWait => 0
  | .tsReset => 0

/-- R97, R100: the length of a transaction, from `CW[3:0]` alone: 1 + SLOT_BYTES/4 words for PUSH, 2 for TRACK, 1 otherwise. -/
def transactionLength (slotWords : Nat) (cw : Word) : Nat :=
  match Op.ofCode (fieldOp cw).toNat with
  | some op => 1 + op.operandCount slotWords
  | none => 1

/-- The operand words of an operation, taken off the words after its command word (R97). -/
def readOperands (slotWords : Nat) (op : Op) (ch : Chan) (ops : List Word) : Except Reject (Instr × List Word) :=
  match op with
  | .push =>
    if ops.length < slotWords then .error .missingOperands
    else .ok (.push ch (ops.take slotWords), ops.drop slotWords)
  | .drainBegin => .ok (.drainBegin ch, ops)
  | .pop => .ok (.pop ch, ops)
  | .drainEnd => .ok (.drainEnd ch, ops)
  | .init => .ok (.init ch, ops)
  | .wakeWait => .ok (.wakeWait ch, ops)
  | .track =>
    match ops with
    | [] => .error .missingOperands
    | raw :: rest => .ok (.track ch raw, rest)
  | .tsReset => .ok (.tsReset ch, ops)

/-- The decoder: the command at the front of a word list and the words after it. `slotWords` is SLOT_BYTES/4. -/
def decode (slotWords : Nat) : List Word → Except Reject (Instr × List Word)
  | [] => .error .noWord
  | cw :: ops =>
    match decodeCW cw with
    | .error r => .error r
    | .ok (op, ch) => readOperands slotWords op ch ops

/-- R92: "The encoded word of an instruction is `OP | (CH << 4)`." -/
def commandWord (op : Op) (ch : Chan) : Word :=
  BitVec.ofNat 32 op.code ||| (BitVec.ofNat 32 ch.bit <<< 4)

/-- The words of a command: the command word, then its operand words (R90, R97). -/
def encode (i : Instr) : List Word :=
  commandWord i.op i.chan :: i.operands

/-- The first `n` 32-bit words of a number, least significant word first. -/
def wordsOfNat : Nat → Nat → List Word
  | 0, _ => []
  | n + 1, w => BitVec.ofNat 32 w :: wordsOfNat n (w / 2 ^ 32)

/-- The words of one transaction whose low `nbits` bits are `w` and whose other bits are zero, exactly as long as its command word
says (R100). -/
def transactionWords (slotWords nbits w : Nat) : List Word :=
  let v := w % 2 ^ nbits
  wordsOfNat (transactionLength slotWords (BitVec.ofNat 32 v)) v

/-- The host's question to the decoder, at the reference slot size (00_scope.md R8): the command in the words of
`transactionWords`. -/
def decodeTableWord (nbits w : Nat) : Option Instr :=
  let slotWords := Config.reference.slotBytes / 4
  match decode slotWords (transactionWords slotWords nbits w) with
  | .ok (i, _) => some i
  | .error _ => none

end Sys2Proof
end

