-- ==== Sys2Proof/Machine/State.lean ====
section
/-! DEFINITION. The state of an RBFC as plain data (10_state.md R20 to R37, 70_reset_and_hazards.md R250), the ways a step
can stop, and the state at power-on. -/

namespace Sys2Proof.Machine

/-- The shared address space (20_memory.md R50): (address, byte) pairs, addresses rising, no entry equal to what an unlisted
address reads as. -/
abbrev Memory := List Host.Cell

/-- What a byte that nothing has written reads as. The spec draws the segments' power-on contents (R250): DESIGN CHOICE, unsafe
(log 3); `State.powerOn` takes any contents. -/
def Memory.unlisted : Byte := 0

/-- The two index cells of a segment header (R51). -/
inductive IndexCell where
  | put
  | get
deriving DecidableEq, Repr

/-- One value for each index cell. -/
structure PerCell (α : Type) where
  put : α
  get : α
deriving DecidableEq, Repr

/-- The value of a cell. -/
def PerCell.val {α : Type} (p : PerCell α) : IndexCell → α
  | .put => p.put
  | .get => p.get

/-- `p` with one cell's value replaced. -/
def PerCell.set {α : Type} (p : PerCell α) (c : IndexCell) (v : α) : PerCell α :=
  match c with
  | .put => { p with put := v }
  | .get => { p with get := v }

/-- The five agents (10_state.md R20). -/
inductive Agent where
  | prod (ch : Chan)
  | cons (ch : Chan)
  | env
deriving DecidableEq, Repr

/-- One value for each agent. -/
structure PerAgent (α : Type) where
  prod : PerChan α
  cons : PerChan α
  env : α
deriving DecidableEq, Repr

/-- The value of an agent. -/
def PerAgent.val {α : Type} (p : PerAgent α) : Agent → α
  | .prod ch => p.prod.val ch
  | .cons ch => p.cons.val ch
  | .env => p.env

/-- `p` with one agent's value replaced. -/
def PerAgent.set {α : Type} (p : PerAgent α) (a : Agent) (v : α) : PerAgent α :=
  match a with
  | .prod ch => { p with prod := p.prod.set ch v }
  | .cons ch => { p with cons := p.cons.set ch v }
  | .env => { p with env := v }

/-- CHSTATE (R25). -/
inductive ChState where
  | uninit
  | ready
deriving DecidableEq, Repr

/-- The registers of one timestamp reconstruction unit (R32 to R34): TS_INIT, TS_LAST, TS_HIGH. -/
structure Tracker where
  init : Bool
  last : Word
  high : Word
deriving DecidableEq, Repr

/-- Everything held per channel outside the shared segment (R25 to R36). -/
structure Channel where
  /-- HIST[ch][c] without its last entry, oldest first; the last entry is the cell in memory (R36, log 11). -/
  older : PerCell (List Word)
  /-- FRONT[a][ch][c] (R36). -/
  front : PerAgent (PerCell Nat)
  /-- CHSTATE[ch] (R25). -/
  chState : ChState
  /-- PFAULT[ch] (R26). -/
  pFault : Bool
  /-- CFAULT[ch] (R27). -/
  cFault : Bool
  /-- CDRAIN[ch] (R28). -/
  cDrain : Bool
  /-- CLGET[ch] (R29). -/
  clGet : Word
  /-- CLIMIT[ch] (R30). -/
  clLimit : Word
  /-- WAKE[ch] (R31). -/
  wake : Bool
  /-- TS_INIT[ch], TS_LAST[ch], TS_HIGH[ch] (R32 to R34). -/
  ts : Tracker
deriving DecidableEq, Repr

/-- A command port (30_encoding.md R90). -/
structure PortState where
  /-- The words waiting at the port, oldest first (the model's input, log 5). -/
  stream : List Word
  /-- A WAKE_WAIT is outstanding on the port, the one command that can be (R90, 43_channel_control.md R191). -/
  waiting : Bool
deriving DecidableEq, Repr

/-- One value for each command port. -/
structure PerPort (α : Type) where
  producer : PerChan α
  consumer : PerChan α
deriving DecidableEq, Repr

/-- The value of a port. -/
def PerPort.val {α : Type} (p : PerPort α) (q : Port) : α :=
  match q.role with
  | .producer => p.producer.val q.chan
  | .consumer => p.consumer.val q.chan

/-- `p` with one port's value replaced. -/
def PerPort.set {α : Type} (p : PerPort α) (q : Port) (v : α) : PerPort α :=
  match q.role with
  | .producer => { p with producer := p.producer.set q.chan v }
  | .consumer => { p with consumer := p.consumer.set q.chan v }

/-- Status codes of a response (R99). -/
inductive Status where
  | ok | full | corrupt | empty | timeout
deriving DecidableEq, Repr

/-- A response (R98): the port it goes to, its status and its data words. -/
structure Response where
  port : Port
  status : Status
  data : List Word
deriving DecidableEq, Repr

/-- A member of FAULTS (60_exceptions.md R212): `(code, port, CW)`. -/
structure FaultRecord where
  code : FaultCode
  port : Port
  cw : Word
deriving DecidableEq, Repr

/-- A choice of the scheduler (60_exceptions.md R220): which agent takes the next step. -/
inductive Move where
  /-- The agent of port `q` steps; `draw` is the step's free value (00_scope.md R11). -/
  | port (q : Port) (draw : Nat)
  /-- ENV's move WAKE_LOSS (43_channel_control.md R192). -/
  | wakeLoss (ch : Chan)
  /-- ENV's move CORRUPT_WRITE (R192). -/
  | corruptWrite (ch : Chan) (addr : Nat) (bytes : List Byte)
deriving DecidableEq, Repr

/-- The state of the machine. -/
structure State where
  /-- The parameters of R8; no step changes them (10_state.md R21, log 1). -/
  cfg : Config
  /-- The shared segments: PUT, GET and the slots (R22 to R24). -/
  mem : Memory
  /-- The block's own state of each channel (R25 to R36). -/
  chan : PerChan Channel
  /-- The command ports (30_encoding.md R90). -/
  ports : PerPort PortState
  /-- FAULTS (R37): a set, held as a list without repeats (log 18). -/
  faults : List FaultRecord
  /-- The model's own: the moves to come (R220, log 6). -/
  schedule : List Move
  /-- The model's own: the port whose command is running (log 6). -/
  port : Port
  /-- The model's own: the free value of the running step (R11, log 7). -/
  draw : Nat
  /-- The model's own: the response the last step returned, if any (R98, R40, log 8). -/
  response : Option Response
deriving DecidableEq, Repr

/-- How the machine stops. The six model faults of R212 are not here: they are next states that record themselves (log 9). -/
inductive Fault where
  /-- Raised by `step` when FAULTS is not empty: "From then on no agent takes a step" (60_exceptions.md R213).
  Safe: it only withholds steps, as the spec does. -/
  | halted
deriving DecidableEq, Repr

/-- Why the machine has no meaning to give. -/
inductive Refusal where
  /-- An arm of `exec` whose instruction has no meaning yet; no arm raises it. Safe. -/
  | notModelled (mnemonic : String)
  /-- Raised by `step`: the configuration breaks R8 or R55, and "the model has no run for it". Safe. -/
  | illegalConfig
  /-- Raised by `step`: the schedule asks for a CORRUPT_WRITE that R192 does not enable (log 13). Safe. -/
  | envMoveNotEnabled
deriving DecidableEq, Repr

/-- What the spec leaves open at power-on in one channel (R250, 93_implementation_defined.md U19). -/
structure ChannelDraws where
  clGet : Word
  clLimit : Word
  tsLast : Word
deriving DecidableEq, Repr

/-- A channel at power-on (R250). -/
def Channel.powerOn (d : ChannelDraws) : Channel where
  older := ⟨[], []⟩
  front := ⟨⟨⟨0, 0⟩, ⟨0, 0⟩⟩, ⟨⟨0, 0⟩, ⟨0, 0⟩⟩, ⟨0, 0⟩⟩
  chState := .uninit
  pFault := false
  cFault := false
  cDrain := false
  clGet := d.clGet
  clLimit := d.clLimit
  wake := false
  ts := ⟨false, d.tsLast, 0⟩

/-- A port at power-on: idle, with the given words waiting (R250, R251). -/
def PortState.powerOn (words : List Word) : PortState := ⟨words, false⟩

/-- The machine at power-on (R250) for any parameters, any segment contents `mem` (the draws of PUT, GET and the slots), any
draws of the unread registers, any words at the ports, any schedule and any value of the free value `draw`. -/
def State.powerOn (cfg : Config) (mem : Memory) (draws : PerChan ChannelDraws)
    (words : PerPort (List Word)) (schedule : List Move) (draw : Nat) : State where
  cfg := cfg
  mem := mem
  chan := ⟨.powerOn draws.rx, .powerOn draws.tx⟩
  ports := ⟨⟨.powerOn words.producer.rx, .powerOn words.producer.tx⟩,
            ⟨.powerOn words.consumer.rx, .powerOn words.consumer.tx⟩⟩
  faults := []
  schedule := schedule
  port := .pRX
  draw := draw
  response := none

/-- The power-on state the host runs from: the reference parameters, and zero for everything R250 draws (DESIGN CHOICE, logs 2 to
4, 6 and 7). Nothing waits at a port and no move is scheduled (log 14). -/
def State.reset : State :=
  State.powerOn .reference [] ⟨⟨0, 0, 0⟩, ⟨0, 0, 0⟩⟩ ⟨⟨[], []⟩, ⟨[], []⟩⟩ [] 0

end Sys2Proof.Machine
end

