-- ==== Sys2Proof/Machine/Ops.lean ====
section
/-! DEFINITION. The named operations every meaning is written over: bytes and words of the shared segment, the index cells with
their histories and frontiers, slots, and the three ways a command ends (a response, a hold, a model fault). -/

namespace Sys2Proof.Machine

/-! ### Bytes (20_memory.md R54) -/

/-- The `n` low bytes of `v`, least significant first: byte k holds bits `[8k+7:8k]` (R54). -/
def leBytes : Nat → Nat → List Byte
  | 0, _ => []
  | n + 1, v => BitVec.ofNat 8 v :: leBytes n (v / 256)

/-- `Σ byte[k]·2^(8k)` over the bytes of a list (R54). -/
def leNat : List Byte → Nat
  | [] => 0
  | b :: bs => b.toNat + 256 * leNat bs

/-- The byte at an address. -/
def Memory.readByte : Memory → Nat → Byte
  | [], _ => Memory.unlisted
  | (b, v) :: m, a => if a = b then v else Memory.readByte m a

/-- Puts an entry for `a` in its place in rising order. -/
def Memory.insert : Memory → Nat → Byte → Memory
  | [], a, v => [(a, v)]
  | (b, w) :: m, a, v => if a < b then (a, v) :: (b, w) :: m else (b, w) :: Memory.insert m a v

/-- The memory with no entry for `a`. -/
def Memory.remove (m : Memory) (a : Nat) : Memory := m.filter fun cell => cell.1 != a

/-- Stores a byte, keeping the canonical form: the entry is listed exactly if it differs from what an unlisted address reads as. -/
def Memory.writeByte (m : Memory) (a : Nat) (v : Byte) : Memory :=
  if v = Memory.unlisted then m.remove a else Memory.insert (m.remove a) a v

/-- The canonical form: addresses strictly rising, no entry that reads as unlisted. -/
def Memory.wf : Memory → Bool
  | [] => true
  | [(_, v)] => v != Memory.unlisted
  | (a, v) :: (b, w) :: m => v != Memory.unlisted && decide (a < b) && Memory.wf ((b, w) :: m)

/-- `n` bytes from an address up. -/
def Memory.readBytes (m : Memory) (a : Nat) : Nat → List Byte
  | 0 => []
  | n + 1 => m.readByte a :: Memory.readBytes m (a + 1) n

/-- Stores bytes from an address up. -/
def Memory.writeBytes (m : Memory) (a : Nat) : List Byte → Memory
  | [] => m
  | b :: bs => Memory.writeBytes (m.writeByte a b) (a + 1) bs

/-- `MemRead(addr, n)` (R54). -/
def Memory.memRead (m : Memory) (a n : Nat) : Nat := leNat (m.readBytes a n)

/-- `MemWrite(addr, n, v)` (R54). -/
def Memory.memWrite (m : Memory) (a n v : Nat) : Memory := m.writeBytes a (leBytes n v)

/-- A whole u32 cell (R56). -/
def Memory.readWord (m : Memory) (a : Nat) : Word := BitVec.ofNat 32 (m.memRead a 4)

/-- Stores a whole u32 cell (R56). -/
def Memory.writeWord (m : Memory) (a : Nat) (v : Word) : Memory := m.memWrite a 4 v.toNat

end Sys2Proof.Machine

namespace Sys2Proof

/-! ### Parameters and addresses (00_scope.md R8, 20_memory.md R50 to R55) -/

/-- SLOT_BYTES/4: the words of a slot image (30_encoding.md R97). -/
def Config.slotWords (cfg : Config) : Nat := cfg.slotBytes / 4

/-- The address of an index cell: PUT at `BASE+0`, GET at `BASE+4` (R51). -/
def Config.cellAddr (cfg : Config) (ch : Chan) : Machine.IndexCell → Nat
  | .put => cfg.base.val ch
  | .get => cfg.base.val ch + 4

/-- The address of slot `i` (R52). -/
def Config.slotAddr (cfg : Config) (ch : Chan) (i : Nat) : Nat :=
  cfg.base.val ch + 8 + i * cfg.slotBytes

/-- The length of a segment (R50). -/
def Config.segmentLength (cfg : Config) (ch : Chan) : Nat :=
  8 + cfg.cap.val ch * cfg.slotBytes

/-- `addr` is a byte of channel `ch`'s segment (R50). -/
def Config.inSegment (cfg : Config) (ch : Chan) (addr : Nat) : Bool :=
  decide (cfg.base.val ch ≤ addr) && decide (addr < cfg.base.val ch + cfg.segmentLength ch)

/-- `slotOf(ch, idx) = idx mod CAP[ch]`, on the full 32-bit index (R53). -/
def Config.slotOf (cfg : Config) (ch : Chan) (idx : Word) : Nat :=
  idx.toNat % cfg.cap.val ch

/-- R8's range of one capacity: `1 ≤ CAP ≤ 2^32 − 1`. -/
def Config.capLegal (cfg : Config) (ch : Chan) : Bool :=
  decide (1 ≤ cfg.cap.val ch) && decide (cfg.cap.val ch ≤ 2 ^ 32 - 1)

/-- The two segments share no byte (R8). -/
def Config.segmentsDisjoint (cfg : Config) : Bool :=
  decide (cfg.base.rx + cfg.segmentLength .rx ≤ cfg.base.tx) ||
  decide (cfg.base.tx + cfg.segmentLength .tx ≤ cfg.base.rx)

/-- The configurations the model has a run for (R8, R55; 93_implementation_defined.md U13). -/
def Config.legal (cfg : Config) : Bool :=
  cfg.capLegal .rx && cfg.capLegal .tx &&
  cfg.slotBytes % 4 == 0 && cfg.tsOffset % 4 == 0 && decide (cfg.tsOffset + 4 ≤ cfg.slotBytes) &&
  cfg.base.rx % 4 == 0 && cfg.base.tx % 4 == 0 && cfg.segmentsDisjoint

end Sys2Proof

namespace Sys2Proof.Machine

/-! ### Access to the state -/

/-- The agent that issues on a port (30_encoding.md R90). -/
def agentOf (q : Port) : Agent :=
  match q.role with
  | .producer => .prod q.chan
  | .consumer => .cons q.chan

/-- The block's own state of a channel. -/
def State.ch (s : State) (ch : Chan) : Channel := s.chan.val ch

/-- Changes the block's own state of one channel. -/
def State.updCh (s : State) (ch : Chan) (f : Channel → Channel) : State :=
  { s with chan := s.chan.set ch (f (s.chan.val ch)) }

/-- Changes the segment memory. -/
def State.setMem (s : State) (m : Memory) : State := { s with mem := m }

/-- Replaces a port's state. -/
def State.setPort (s : State) (q : Port) (p : PortState) : State := { s with ports := s.ports.set q p }

/-- Sets whether a WAKE_WAIT is outstanding on a port. -/
def State.setWaiting (s : State) (q : Port) (b : Bool) : State :=
  s.setPort q { s.ports.val q with waiting := b }

/-! ### Index cells (20_memory.md R60 to R62) -/

/-- The current value of an index cell: its four bytes (R51, R56). -/
def State.cell (s : State) (ch : Chan) (c : IndexCell) : Word :=
  s.mem.readWord (s.cfg.cellAddr ch c)

/-- HIST[ch][c], oldest first; its last entry is the cell's current value (10_state.md R36). -/
def State.hist (s : State) (ch : Chan) (c : IndexCell) : List Word :=
  (s.ch ch).older.val c ++ [s.cell ch c]

/-- The position of the last entry of HIST[ch][c]. -/
def State.histLast (s : State) (ch : Chan) (c : IndexCell) : Nat :=
  (s.hist ch c).length - 1

/-- FRONT[a][ch][c] (R36). -/
def State.front (s : State) (a : Agent) (ch : Chan) (c : IndexCell) : Nat :=
  ((s.ch ch).front.val a).val c

/-- Sets FRONT[a][ch][c]. -/
def State.setFront (s : State) (a : Agent) (ch : Chan) (c : IndexCell) (k : Nat) : State :=
  s.updCh ch fun x => { x with front := x.front.set a ((x.front.val a).set c k) }

/-- The owner of a cell: PROD[ch] of PUT, CONS[ch] of GET (R61). -/
def ownerOf (ch : Chan) : IndexCell → Agent
  | .put => .prod ch
  | .get => .cons ch

/-- A free choice in `[lo, hi]`; every value of the range is the choice of some `draw` (log 7). -/
def pick (lo hi draw : Nat) : Nat :=
  if hi ≤ lo then hi else lo + draw % (hi - lo + 1)

/-- The history position an IndexRead takes (R61): the owner's is the last; a non-owner's is free from its frontier on. -/
def State.viewIndex (s : State) (a : Agent) (ch : Chan) (c : IndexCell) : Nat :=
  if a = ownerOf ch c then s.histLast ch c
  else pick (s.front a ch c) (s.histLast ch c) s.draw

/-- The value of `IndexRead(a, c)` on channel `ch` (R61). -/
def State.view (s : State) (a : Agent) (ch : Chan) (c : IndexCell) : Word :=
  (s.hist ch c).getD (s.viewIndex a ch c) (s.cell ch c)

/-- The effect of `IndexRead(a, c)` on channel `ch`: only the reader's frontier moves (R61, R58). -/
def State.readIndex (s : State) (a : Agent) (ch : Chan) (c : IndexCell) : State :=
  s.setFront a ch c (s.viewIndex a ch c)

/-- Makes `v` the newest entry of HIST[ch][c], and so the cell's value. -/
def State.appendHist (s : State) (ch : Chan) (c : IndexCell) (v : Word) : State :=
  (s.updCh ch fun x => { x with older := x.older.set c (x.older.val c ++ [s.cell ch c]) }).setMem
    (s.mem.writeWord (s.cfg.cellAddr ch c) v)

/-- `IndexWrite(a, c, v)` on channel `ch` (R62). -/
def State.writeIndex (s : State) (a : Agent) (ch : Chan) (c : IndexCell) (v : Word) : State :=
  let t := s.appendHist ch c v
  t.setFront a ch c (t.histLast ch c)

/-! ### Slots (20_memory.md R52, R64) -/

/-- `SlotRead(ch, i)`: the SLOT_BYTES current bytes of slot `i`. -/
def State.slotRead (s : State) (ch : Chan) (i : Nat) : List Byte :=
  s.mem.readBytes (s.cfg.slotAddr ch i) s.cfg.slotBytes

/-- `SlotWrite(ch, i, bytes)`. -/
def State.slotWrite (s : State) (ch : Chan) (i : Nat) (bytes : List Byte) : State :=
  s.setMem (s.mem.writeBytes (s.cfg.slotAddr ch i) bytes)

/-! ### How a command ends (00_scope.md R11, 60_exceptions.md R210) -/

/-- The outcome type of every meaning. -/
abbrev Result := Host.Outcome State Fault Refusal

/-- `respond(status, data...)`: ends the command with a response to its port (R98). -/
def respond (status : Status) (data : List Word) (s : State) : Result :=
  .next { s with response := some ⟨s.port, status, data⟩ }

/-- The command stays outstanding on its port and returns no response (R210 (b)). -/
def hold (s : State) : Result :=
  .next { s.setWaiting s.port true with response := none }

/-- The state after `raise Fault(code)`: the record `(code, port, CW)` joins FAULTS, there is no response, and nothing else
changes (60_exceptions.md R210, R212, R213). -/
def State.recordFault (s : State) (code : FaultCode) (cw : Word) : State :=
  { s with
    faults := if ⟨code, s.port, cw⟩ ∈ s.faults then s.faults else s.faults ++ [⟨code, s.port, cw⟩]
    response := none }

/-- `raise Fault(code)`: ends the command with a model fault. The one operation every fault is taken through; the block has no
return from it (R213, R216). -/
def raise (code : FaultCode) (cw : Word) (s : State) : Result :=
  .next (s.recordFault code cw)

/-- The port check of R95, in its place before every other check of a command (R214); `k` is the rest of the command. -/
def onLegalPort (op : Op) (ch : Chan) (s : State) (k : Result) : Result :=
  match portFault s.port op ch with
  | some code => raise code (commandWord op ch) s
  | none => k

/-- Goes on with `k` unless a check applies; then the command ends with the model fault `code` (R214). -/
def faultIf (cond : Bool) (code : FaultCode) (op : Op) (ch : Chan) (s : State) (k : Result) : Result :=
  if cond then raise code (commandWord op ch) s else k

end Sys2Proof.Machine
end

