-- ==== Sys2Proof/Machine/Flags.lean ====
section
/-! DEFINITION. The conditions a command tests and the bits it sets. The block has no condition codes (10_state.md R40); its
sticky bits are PFAULT and CFAULT (R26, R27), its notification bit is WAKE (R31), and its conditions are the occupancy tests of
R41 and the branch tests of the tracker (40_timestamp.md R120). -/

namespace Sys2Proof.Machine

/-- `occ = p -₃₂ g` (R41). -/
def occupancy (p g : Word) : Word := p - g

/-- ProtocolCorruption: `occ > CAP[ch]` (R41, 60_exceptions.md R211). -/
def overCapacity (cfg : Config) (ch : Chan) (occ : Word) : Bool := decide (cfg.cap.val ch < occ.toNat)

/-- Full: `occ == CAP[ch]` (00_scope.md R13). -/
def atCapacity (cfg : Config) (ch : Chan) (occ : Word) : Bool := occ.toNat == cfg.cap.val ch

/-- CHSTATE[ch] is UNINIT (R25). -/
def State.isUninit (s : State) (ch : Chan) : Bool := (s.ch ch).chState == .uninit

/-- Sets PFAULT[ch] (R26). -/
def State.setPFault (s : State) (ch : Chan) : State := s.updCh ch fun x => { x with pFault := true }

/-- Sets CFAULT[ch] (R27). -/
def State.setCFault (s : State) (ch : Chan) : State := s.updCh ch fun x => { x with cFault := true }

/-- Writes WAKE[ch] (R31). -/
def State.setWake (s : State) (ch : Chan) (b : Bool) : State := s.updCh ch fun x => { x with wake := b }

/-- `delta < 2^31` with `delta = raw -₃₂ last`: forward progress (R120). -/
def isForward (last raw : Word) : Bool := decide ((raw - last).toNat < 2 ^ 31)

/-- `raw < last` as integers: in a forward step, the counter wrapped (R120). -/
def isBehind (last raw : Word) : Bool := decide (raw.toNat < last.toNat)

end Sys2Proof.Machine
end

