-- ==== Sys2Proof/Machine/Operands.lean ====
section
/-! DEFINITION. The operand and response forms: the slot image as words and as bytes, the 64-bit result as words, and the
response words (30_encoding.md R97, R98, R99). -/

namespace Sys2Proof.Machine

/-- The bytes of a slot image given as operand words: byte k is bits `[8(k mod 4)+7 : 8(k mod 4)]` of word `⌊k/4⌋` (R97). -/
def slotBytesOf (words : List Word) : List Byte :=
  words.flatMap fun w => leBytes 4 w.toNat

/-- The words of a slot image given as bytes, laid out as the SLOT operand (R98). -/
def slotWordsOf : List Byte → List Word
  | b0 :: b1 :: b2 :: b3 :: bs => BitVec.ofNat 32 (leNat [b0, b1, b2, b3]) :: slotWordsOf bs
  | _ => []

/-- The two words of a u64 result, low word first (R98). -/
def wordsOf64 (v : DWord) : List Word := [v.extractLsb' 0 32, v.extractLsb' 32 32]

/-- The STATUS numbers of R99. -/
def Status.code : Status → Nat
  | .ok => 0
  | .full => 1
  | .corrupt => 2
  | .empty => 3
  | .timeout => 4

/-- The response word: `RW[2:0]` = STATUS, `RW[31:3]` = 0 (R98). -/
def responseWord (st : Status) : Word := BitVec.ofNat 32 st.code

/-- The words of a response: the response word, then the data words (R98). -/
def Response.words (r : Response) : List Word := responseWord r.status :: r.data

/-- The fault numbers of 60_exceptions.md R212. -/
def faultNumber : FaultCode → Nat
  | .illegalCmd => 1
  | .wrongPort => 2
  | .useBeforeInit => 3
  | .drainSequence => 4
  | .notQuiescent => 5
  | .slotOverwrite => 6

/-- A fault record as the spec writes it: `(code, port, CW)` with the code's number (R212). -/
def FaultRecord.triple (r : FaultRecord) : Nat × Port × Word := (faultNumber r.code, r.port, r.cw)

/-- `timestampRaw` of a slot image: the little-endian u32 at TS_OFFSET (20_memory.md R73, 30_encoding.md R102). -/
def timestampRaw (cfg : Config) (slot : List Byte) : Word :=
  BitVec.ofNat 32 (leNat ((slot.drop cfg.tsOffset).take 4))

end Sys2Proof.Machine
end

