-- ==== Sys2Proof/Machine/Consumer.lean ====
section
/-! DEFINITION. The consumer side: DRAIN_BEGIN, POP, DRAIN_END (42_ring_consumer.md R160 to R162). -/

namespace Sys2Proof.Machine

/-- The state after DRAIN_BEGIN's two index reads: the own GET, then PUT (R160). -/
def State.drainReads (s : State) (ch : Chan) : State :=
  (s.readIndex (.cons ch) ch .get).readIndex (.cons ch) ch .put

/-- Opens a drain: the local getIndex, the sampled PUT and CDRAIN (R160). -/
def State.openDrain (s : State) (ch : Chan) (g p : Word) : State :=
  s.updCh ch fun x => { x with clGet := g, clLimit := p, cDrain := true }

/-- DRAIN_BEGIN.ch (R160), with R214's order of checks. -/
def execDrainBegin (ch : Chan) (s : State) : Result :=
  onLegalPort .drainBegin ch s <|
  faultIf (s.isUninit ch) .useBeforeInit .drainBegin ch s <|
  faultIf (s.ch ch).cDrain .drainSequence .drainBegin ch s <|
  if (s.ch ch).cFault then respond .corrupt [] s
  else
    let g := s.view (.cons ch) ch .get
    let p := (s.readIndex (.cons ch) ch .get).view (.cons ch) ch .put
    let t := s.drainReads ch
    let occ := occupancy p g
    if overCapacity s.cfg ch occ then respond .corrupt [] (t.setCFault ch)
    else respond .ok [occ] (t.openDrain ch g p)

/-- The bytes of the slot POP takes next: slot `CLGET mod CAP` (R161). -/
def State.nextSlot (s : State) (ch : Chan) : List Byte :=
  s.slotRead ch (s.cfg.slotOf ch (s.ch ch).clGet)

/-- POP.ch (R161): the next slot of the open drain, or EMPTY at its end. -/
def execPop (ch : Chan) (s : State) : Result :=
  onLegalPort .pop ch s <|
  faultIf (s.isUninit ch) .useBeforeInit .pop ch s <|
  faultIf (!(s.ch ch).cDrain) .drainSequence .pop ch s <|
  if (s.ch ch).clGet = (s.ch ch).clLimit then respond .empty [] s
  else respond .ok (slotWordsOf (s.nextSlot ch)) (s.updCh ch fun x => { x with clGet := x.clGet + 1 })

/-- Closes the drain: CDRAIN (R162). -/
def State.closeDrain (s : State) (ch : Chan) : State := s.updCh ch fun x => { x with cDrain := false }

/-- DRAIN_END.ch (R162): publishes CLGET as GET, once, and closes the drain. -/
def execDrainEnd (ch : Chan) (s : State) : Result :=
  onLegalPort .drainEnd ch s <|
  faultIf (s.isUninit ch) .useBeforeInit .drainEnd ch s <|
  faultIf (!(s.ch ch).cDrain) .drainSequence .drainEnd ch s <|
  respond .ok [] ((s.writeIndex (.cons ch) ch .get (s.ch ch).clGet).closeDrain ch)

end Sys2Proof.Machine
end

