-- ==== Sys2Proof/Machine/Control.lean ====
section
/-! DEFINITION. Channel control: INIT and WAKE_WAIT (43_channel_control.md R190, R191), and ENV's two moves (R192). -/

namespace Sys2Proof.Machine

/-- Every frontier at position 0 (R190). -/
def frontsZero : PerAgent (PerCell Nat) :=
  ⟨⟨⟨0, 0⟩, ⟨0, 0⟩⟩, ⟨⟨0, 0⟩, ⟨0, 0⟩⟩, ⟨0, 0⟩⟩

/-- INIT's effect (R190): GET takes the current PUT, both histories keep that one entry, every frontier points at it, the sticky
bits clear and the channel is READY. -/
def State.reinit (s : State) (ch : Chan) : State :=
  (s.updCh ch fun x =>
    { x with older := ⟨[], []⟩, front := frontsZero, pFault := false, cFault := false, chState := .ready }).setMem
    (s.mem.writeWord (s.cfg.cellAddr ch .get) (s.cell ch .put))

/-- INIT.ch (R190). -/
def execInit (ch : Chan) (s : State) : Result :=
  onLegalPort .init ch s <|
  faultIf (s.ch ch).cDrain .notQuiescent .init ch s <|
  respond .ok [] (s.reinit ch)

/-- How one step of a WAKE_WAIT goes (R191). -/
inductive WaitChoice where
  /-- The completion step WOKEN. -/
  | woken
  /-- The completion step TIMEOUT. -/
  | timeout
  /-- No completion step fires: the command stays outstanding. -/
  | hold
deriving DecidableEq, Repr

/-- The free choice of R191. WOKEN is enabled only while WAKE[ch] is 1; TIMEOUT always is; the command may also hold (log 10).
Every enabled choice is the choice of some `draw`. -/
def waitChoice (wake : Bool) (draw : Nat) : WaitChoice :=
  match draw % 3 with
  | 0 => if wake then .woken else .timeout
  | 1 => .timeout
  | _ => .hold

/-- WAKE_WAIT.ch (R191): run when the command is issued and again at every later step of its port until it completes. It does not
depend on CHSTATE. -/
def execWakeWait (ch : Chan) (s : State) : Result :=
  onLegalPort .wakeWait ch s <|
  match waitChoice (s.ch ch).wake s.draw with
  | .woken => respond .ok [] ((s.setWaiting s.port false).setWake ch false)
  | .timeout => respond .timeout [] (s.setWaiting s.port false)
  | .hold => Sys2Proof.Machine.hold s

/-! ### ENV (R192) -/

/-- `WAKE_LOSS(ch)`: always enabled. -/
def envWakeLoss (ch : Chan) (s : State) : Result :=
  .next { s.setWake ch false with response := none }

/-- A write of `n` bytes at `addr` stores to one of the four bytes of a header cell. -/
def touchesCell (cfg : Config) (ch : Chan) (c : IndexCell) (addr n : Nat) : Bool :=
  n != 0 && decide (addr < cfg.cellAddr ch c + 4) && decide (cfg.cellAddr ch c < addr + n)

/-- Keeps the value a header cell has before it is overwritten, so that the new value is appended to its history as one write
(20_memory.md R79, logs 11 and 12). -/
def State.keepOld (s : State) (ch : Chan) (c : IndexCell) : State :=
  s.updCh ch fun x => { x with older := x.older.set c (x.older.val c ++ [s.cell ch c]) }

/-- The effect of `CORRUPT_WRITE(ch, addr, bytes)`: the bytes are stored, and every header cell among them gets its new value
appended to its history (R192, R79). No frontier and no block-local state changes. -/
def State.foreignWrite (s : State) (ch : Chan) (addr : Nat) (bytes : List Byte) : State :=
  let keep (c : IndexCell) (t : State) : State :=
    if touchesCell s.cfg ch c addr bytes.length then t.keepOld ch c else t
  (keep .get (keep .put s)).setMem (s.mem.writeBytes addr bytes)

/-- R192 enables a CORRUPT_WRITE: ENV_MAY_CORRUPT is true and every byte lies in channel ch's segment. -/
def corruptEnabled (cfg : Config) (ch : Chan) (addr n : Nat) : Bool :=
  cfg.envMayCorrupt && (n == 0 || (cfg.inSegment ch addr && cfg.inSegment ch (addr + n - 1)))

/-- `CORRUPT_WRITE(ch, addr, bytes)` (R192); one that R192 does not enable is refused by name (log 13). -/
def envCorruptWrite (ch : Chan) (addr : Nat) (bytes : List Byte) (s : State) : Result :=
  if corruptEnabled s.cfg ch addr bytes.length then
    .next { s.foreignWrite ch addr bytes with response := none }
  else .refused .envMoveNotEnabled

end Sys2Proof.Machine
end

