-- ==== Sys2Proof/Machine/Producer.lean ====
section
/-! DEFINITION. The producer side: PUSH (41_ring_producer.md R140, R141). -/

namespace Sys2Proof.Machine

/-- `OverwriteCheck(ch, p)`: the slot of index `p` still holds an index from the current GET on, whoever may see it (R141). -/
def State.overwrites (s : State) (ch : Chan) (p : Word) : Bool :=
  let gT := s.cell ch .get
  let n := (p - gT).toNat
  decide (s.cfg.cap.val ch ≤ n) ||
    (List.range n).any fun k => s.cfg.slotOf ch (gT + BitVec.ofNat 32 k) == s.cfg.slotOf ch p

/-- The state after PUSH's two index reads: the own PUT, then GET (R140). -/
def State.pushReads (s : State) (ch : Chan) : State :=
  (s.readIndex (.prod ch) ch .put).readIndex (.prod ch) ch .get

/-- PUSH's effect once there is space, after its reads: first the slot contents, then the publish of `p +₃₂ 1`, then the wake
(R140, 20_memory.md R63). -/
def State.pushPublish (s : State) (ch : Chan) (p : Word) (bytes : List Byte) : State :=
  ((s.slotWrite ch (s.cfg.slotOf ch p) bytes).writeIndex (.prod ch) ch .put (p + 1)).setWake ch true

/-- PUSH.ch SLOT (R140), with R214's order of checks. A model fault leaves the reads undone as well (60_exceptions.md R210). -/
def execPush (ch : Chan) (slot : List Word) (s : State) : Result :=
  onLegalPort .push ch s <|
  faultIf (s.isUninit ch) .useBeforeInit .push ch s <|
  if (s.ch ch).pFault then respond .corrupt [] s
  else
    let p := s.view (.prod ch) ch .put
    let g := (s.readIndex (.prod ch) ch .put).view (.prod ch) ch .get
    let t := s.pushReads ch
    let occ := occupancy p g
    if overCapacity s.cfg ch occ then respond .corrupt [] (t.setPFault ch)
    else if atCapacity s.cfg ch occ then respond .full [] t
    else faultIf (s.overwrites ch p) .slotOverwrite .push ch s <|
      respond .ok [] (t.pushPublish ch p (slotBytesOf slot))

end Sys2Proof.Machine
end

