-- ==== Sys2Proof/Machine/Timestamp.lean ====
section
/-! DEFINITION. The timestamp reconstruction unit: TRACK and TS_RESET (40_timestamp.md R120, R121). -/

namespace Sys2Proof.Machine

/-- `(zext_64(high) << 32) | zext_64(raw)` (R120, 00_scope.md R9, R10). -/
def timestamp64 (high raw : Word) : DWord := (high.setWidth 64 <<< 32) ||| raw.setWidth 64

/-- The 64-bit result of one TRACK (R120). -/
def Tracker.result (t : Tracker) (raw : Word) : DWord :=
  if !t.init then raw.setWidth 64
  else if isForward t.last raw then
    if isBehind t.last raw then timestamp64 (t.high + 1) raw else timestamp64 t.high raw
  else timestamp64 (t.high - 1) raw

/-- The registers after one TRACK (R120): the first call and forward steps take the sample, a wrap counts, and a sample behind
`last` changes nothing. -/
def Tracker.update (t : Tracker) (raw : Word) : Tracker :=
  if !t.init then { t with init := true, last := raw }
  else if isForward t.last raw then
    if isBehind t.last raw then { t with last := raw, high := t.high + 1 } else { t with last := raw }
  else t

/-- The registers after TS_RESET (R121): TS_LAST is left as it is. -/
def Tracker.cleared (t : Tracker) : Tracker := { t with init := false, high := 0 }

/-- TRACK.ch RAW (R120). It does not depend on CHSTATE. -/
def execTrack (ch : Chan) (raw : Word) (s : State) : Result :=
  onLegalPort .track ch s <|
    respond .ok (wordsOf64 ((s.ch ch).ts.result raw)) (s.updCh ch fun x => { x with ts := x.ts.update raw })

/-- TS_RESET.ch (R121). -/
def execTsReset (ch : Chan) (s : State) : Result :=
  onLegalPort .tsReset ch s <|
    respond .ok [] (s.updCh ch fun x => { x with ts := x.ts.cleared })

end Sys2Proof.Machine
end

