-- ==== Sys2Proof/Machine/Dispatch.lean ====
section
/-! DEFINITION. One arm per command: every row of spec/opcode_table.json has its meaning. -/

namespace Sys2Proof.Machine

def exec (i : Instr) (s : State) : Host.Outcome State Fault Refusal :=
  match i with
  | .push ch slot => Sys2Proof.Machine.execPush ch slot s
  | .drainBegin ch => Sys2Proof.Machine.execDrainBegin ch s
  | .pop ch => Sys2Proof.Machine.execPop ch s
  | .drainEnd ch => Sys2Proof.Machine.execDrainEnd ch s
  | .init ch => Sys2Proof.Machine.execInit ch s
  | .wakeWait ch => Sys2Proof.Machine.execWakeWait ch s
  | .track ch raw => Sys2Proof.Machine.execTrack ch raw s
  | .tsReset ch => Sys2Proof.Machine.execTsReset ch s

end Sys2Proof.Machine
end

