-- ==== Sys2Proof/Machine/Serve.lean ====
section
/-! DEFINITION. What one move of the schedule does: a port's step fetches its next transaction and runs it, or goes on with an
outstanding WAKE_WAIT; ENV's moves act at once (30_encoding.md R90, R96, 60_exceptions.md R220). -/

namespace Sys2Proof.Machine

/-- Takes the words of a transaction off a port's stream (R90, R100). -/
def State.consume (s : State) (q : Port) (n : Nat) : State :=
  s.setPort q { s.ports.val q with stream := (s.ports.val q).stream.drop n }

/-- A step of a port with no outstanding command, whose words are `cw :: ops`: the checks of R96 on the command word, then the
command itself once its operand words are there; until then the agent has no step and nothing happens (log 5). -/
def serveWords (q : Port) (cw : Word) (ops : List Word) (s : State) : Result :=
  match decodeAt q cw with
  | .error code => raise code cw (s.consume q (transactionLength s.cfg.slotWords cw))
  | .ok _ =>
    match decode s.cfg.slotWords (cw :: ops) with
    | .ok (i, _) => exec i (s.consume q (transactionLength s.cfg.slotWords cw))
    | .error _ => .next s

/-- A step of a port: an outstanding WAKE_WAIT holds it (43_channel_control.md R191); otherwise its next transaction runs. -/
def servePort (q : Port) (s : State) : Result :=
  if (s.ports.val q).waiting then exec (.wakeWait q.chan) s
  else match (s.ports.val q).stream with
    | [] => .next s
    | cw :: ops => serveWords q cw ops s

/-- The state in which port `q`'s step runs, with the step's free value. -/
def State.select (s : State) (q : Port) (draw : Nat) : State :=
  { s with port := q, draw := draw, response := none }

/-- One move (R220). -/
def takeMove (m : Move) (s : State) : Result :=
  match m with
  | .port q draw => servePort q (s.select q draw)
  | .wakeLoss ch => envWakeLoss ch s
  | .corruptWrite ch addr bytes => envCorruptWrite ch addr bytes s

/-- A step with no move to take: every agent is idle. -/
def State.idle (s : State) : State := { s with response := none }

/-- The next step of the schedule (R220); the move is taken off it. -/
def runSchedule (s : State) : Result :=
  match s.schedule with
  | [] => .next s.idle
  | m :: rest => takeMove m { s with schedule := rest }

/-- A port that may issue the command word `cw`: the producer port of its channel for PUSH, else the consumer port. -/
def portFor (cw : Word) : Port :=
  match decodeCW cw with
  | .ok (.push, ch) => ⟨.producer, ch⟩
  | .ok (_, ch) => ⟨.consumer, ch⟩
  | .error _ => .cRX

/-- Puts the words of one transaction at the front of port `q`, with nothing outstanding on it, and gives `q` the next step (log
14). -/
def State.placeTransaction (s : State) (q : Port) (words : List Word) : State :=
  { s.setPort q ⟨words ++ (s.ports.val q).stream, false⟩ with schedule := .port q s.draw :: s.schedule }

end Sys2Proof.Machine
end

