-- ==== Sys2Proof/Machine/Step.lean ====
section
/-! DEFINITION. One step of the machine, and the host's way to place an instruction where the next step fetches it. -/

namespace Sys2Proof.Machine

/-- One step. An illegal configuration has no run (20_memory.md R55); after a model fault no agent takes a step
(60_exceptions.md R213); otherwise the next move of the schedule is taken (R220). -/
def step (s : State) : Host.Outcome State Fault Refusal :=
  if s.cfg.legal then
    if s.faults = [] then runSchedule s else .fault .halted
  else .refused .illegalConfig

/-- `s` with the transaction whose low `nbits` bits are `w`, the others zero, at the front of a port that may issue it, and that
port to step next (log 14). -/
def State.withFetchWord (s : State) (nbits w : Nat) : State :=
  s.placeTransaction (portFor (BitVec.ofNat 32 (w % 2 ^ nbits))) (transactionWords s.cfg.slotWords nbits w)

end Sys2Proof.Machine
end

