-- ==== Sys2Proof/Machine/Program.lean ====
section
/-! DEFINITION. Commands in sequence and the pseudo-instructions of 30_encoding.md R102. The block sees only real commands, one
step each; an expansion is what the issuing agent's program does with the responses. -/

namespace Sys2Proof.Machine

/-- Runs commands one after another on the port that is running, and collects their responses. `none` if a command returns no
response (it faulted or is still outstanding). -/
def execAll : List Instr → State → Option (List Response × State)
  | [], s => some ([], s)
  | i :: is, s =>
    match exec i s with
    | .next t =>
      match t.response with
      | some r => (execAll is t).map fun (rs, u) => (r :: rs, u)
      | none => none
    | .fault _ => none
    | .refused _ => none

/-- The pseudo-instructions of R102. -/
inductive Pseudo where
  | tryPush (ch : Chan) (slot : List Word)
  | drain (ch : Chan)
  | drainTracked (ch : Chan)
  | waitData (ch : Chan)
deriving DecidableEq, Repr

/-- The first command of an expansion (R102). -/
def Pseudo.first : Pseudo → Instr
  | .tryPush ch slot => .push ch slot
  | .drain ch => .drainBegin ch
  | .drainTracked ch => .drainBegin ch
  | .waitData ch => .wakeWait ch

/-- The commands of a DRAIN after one of them answered (R102): POP after an OK DRAIN_BEGIN and after every POP that returns OK,
DRAIN_END at EMPTY. -/
def drainNext (ch : Chan) (last : Instr) (r : Response) : Option Instr :=
  match last, r.status with
  | .drainBegin _, .ok => some (.pop ch)
  | .pop _, .ok => some (.pop ch)
  | .pop _, .empty => some (.drainEnd ch)
  | _, _ => none

/-- As `drainNext`, with a TRACK of the slot's `timestampRaw` after every POP that returns OK (R102). -/
def drainTrackedNext (cfg : Config) (ch : Chan) (last : Instr) (r : Response) : Option Instr :=
  match last, r.status with
  | .drainBegin _, .ok => some (.pop ch)
  | .pop _, .ok => some (.track ch (timestampRaw cfg (slotBytesOf r.data)))
  | .track _ _, .ok => some (.pop ch)
  | .pop _, .empty => some (.drainEnd ch)
  | _, _ => none

/-- The command an expansion issues after its command `last` was answered with `r`; `none` when the expansion is over. -/
def Pseudo.next (cfg : Config) (p : Pseudo) (last : Instr) (r : Response) : Option Instr :=
  match p with
  | .tryPush _ _ => none
  | .drain ch => drainNext ch last r
  | .drainTracked ch => drainTrackedNext cfg ch last r
  | .waitData _ => none

/-- Runs an expansion from its command `i`, for at most `fuel` commands. -/
def Pseudo.runFrom (p : Pseudo) : Nat → Instr → State → Option (List Response × State)
  | 0, _, _ => none
  | fuel + 1, i, s =>
    match exec i s with
    | .next t =>
      match t.response with
      | some r =>
        match p.next s.cfg i r with
        | some j => (Pseudo.runFrom p fuel j t).map fun (rs, u) => (r :: rs, u)
        | none => some ([r], t)
      | none => none
    | .fault _ => none
    | .refused _ => none

/-- Runs a pseudo-instruction alone on the port that is running. -/
def Pseudo.run (p : Pseudo) (fuel : Nat) (s : State) : Option (List Response × State) :=
  p.runFrom fuel p.first s

/-- The slots a DRAIN delivered: the data of the OK responses of its POPs, in order (R163). DRAIN_BEGIN's COUNT, the first
response, and the responses without data are left out. -/
def deliveredSlots (rs : List Response) : List (List Byte) :=
  ((rs.drop 1).filter fun r => r.status == .ok && r.data.length != 0).map fun r => slotBytesOf r.data

end Sys2Proof.Machine
end

