-- ==== Sys2Proof/Machine/SlotLayout.lean ====
section
/-! DEFINITION. The reference slot layout (20_memory.md R74 to R76). The ring carries slots as opaque bytes (R73); these are the
records an agent's program packs into a slot and reads back from one. -/

namespace Sys2Proof.Machine

/-- The `type` tags of R75. -/
inductive SlotType where
  | rx | tx | status | error
deriving DecidableEq, Repr

def SlotType.code : SlotType → Byte
  | .rx => 0
  | .tx => 1
  | .status => 2
  | .error => 3

/-- The Status `code`s of R75. -/
inductive BusState where
  | errorActive | errorWarning | errorPassive | busOff | unknown
deriving DecidableEq, Repr

def BusState.code : BusState → Byte
  | .errorActive => 0
  | .errorWarning => 1
  | .errorPassive => 2
  | .busOff => 3
  | .unknown => 4

/-- The Error `code`s of R75. -/
inductive ErrorCause where
  | ackMissing | bit0 | bit1 | form | stuff | crc | other
deriving DecidableEq, Repr

def ErrorCause.code : ErrorCause → Byte
  | .ackMissing => 0
  | .bit0 => 1
  | .bit1 => 2
  | .form => 3
  | .stuff => 4
  | .crc => 5
  | .other => 6

/-- What the byte at offset 3 says, by the kind of the slot (R74, R75). -/
inductive SlotKind where
  | rx
  | tx
  | status (state : BusState)
  | error (cause : ErrorCause)
deriving DecidableEq, Repr

def SlotKind.type : SlotKind → SlotType
  | .rx => .rx
  | .tx => .tx
  | .status _ => .status
  | .error _ => .error

/-- The `code` byte: the bus state, the error cause, or zero for Rx and Tx (R74). -/
def SlotKind.codeByte : SlotKind → Byte
  | .rx => 0
  | .tx => 0
  | .status st => st.code
  | .error c => c.code

/-- The arbitration id of R74: 11 bits in the base form, 29 in the extended one; bit 0 of `flags` says which. -/
inductive ArbitrationId where
  | base (id : BitVec 11)
  | extended (id : BitVec 29)
deriving DecidableEq, Repr

/-- The extended-id flag. -/
def ArbitrationId.isExtended : ArbitrationId → Bool
  | .base _ => false
  | .extended _ => true

/-- The `id` field: the id in bits 28:0 or 10:0 (R74), the bits above, of which R74 says nothing, zero (log 20). -/
def ArbitrationId.word : ArbitrationId → Word
  | .base id => id.setWidth 32
  | .extended id => id.setWidth 32

/-- The id in an `id` field, by the extended-id flag: bits 28:0 or 10:0 of the word (R74, log 20). -/
def ArbitrationId.ofWord (extended : Bool) (w : Word) : ArbitrationId :=
  if extended then .extended (w.setWidth 29) else .base (w.setWidth 11)

/-- The flags bitfield of R74 after its bit 0, which the arbitration id gives; bit 1 first. -/
structure SlotFlags where
  remoteRequest : Bool
  fdFormat : Bool
  bitrateSwitch : Bool
  errorStateIndicator : Bool
  dropMarker : Bool
deriving DecidableEq, Repr

/-- Bits 5:0 as R74 numbers them, bits 7:6 zero. -/
def SlotFlags.byte (extended : Bool) (f : SlotFlags) : Byte :=
  BitVec.ofNat 8 (extended.toNat + 2 * f.remoteRequest.toNat + 4 * f.fdFormat.toNat +
    8 * f.bitrateSwitch.toNat + 16 * f.errorStateIndicator.toNat + 32 * f.dropMarker.toNat)

/-- The flags in a byte, bit 0 left out. -/
def SlotFlags.ofByte (b : Byte) : SlotFlags where
  remoteRequest := b.getLsbD 1
  fdFormat := b.getLsbD 2
  bitrateSwitch := b.getLsbD 3
  errorStateIndicator := b.getLsbD 4
  dropMarker := b.getLsbD 5

/-- R76's table, DLC to payload length, "indexed by DLC". -/
def dlcLengths : List Nat := [0, 1, 2, 3, 4, 5, 6, 7, 8, 12, 16, 20, 24, 32, 48, 64]

/-- `len(DLC)` (R76). -/
def dlcLength (dlc : BitVec 4) : Nat := dlcLengths.getD dlc.toNat 0

/-- The bytes of a slot's `data` field that mean anything: the first `len(DLC)` (R74). -/
def payloadOf (dlc : BitVec 4) (data : List Byte) : List Byte := data.take (dlcLength dlc)

/-- The fields of a reference slot (R74). `data` is the data field, 64 bytes in a slot. -/
structure SlotFields where
  kind : SlotKind
  flags : SlotFlags
  dlc : BitVec 4
  timestampRaw : Word
  id : ArbitrationId
  data : List Byte
deriving DecidableEq, Repr

/-- The payload of a slot: the first `len(DLC)` bytes of its data field (R74). -/
def SlotFields.payload (f : SlotFields) : List Byte := payloadOf f.dlc f.data

/-- The 76 bytes of a reference slot (R74): shorter data is filled with zero bytes, longer data cut at 64 (log 20). -/
def SlotFields.pack (f : SlotFields) : List Byte :=
  [f.kind.type.code, f.flags.byte f.id.isExtended, f.dlc.setWidth 8, f.kind.codeByte] ++
    leBytes 4 f.timestampRaw.toNat ++ leBytes 4 f.id.word.toNat ++
    (f.data.take 64 ++ List.replicate (64 - f.data.length) 0)

/-- The fields of a slot image as R74 lays them out: type and code bytes, flags, DLC, timestampRaw, arbitration id, data. -/
structure RawSlotFields where
  typeByte : Byte
  flags : SlotFlags
  dlc : BitVec 4
  codeByte : Byte
  timestampRaw : Word
  id : ArbitrationId
  data : List Byte
deriving DecidableEq, Repr

/-- The payload read from a slot image (R74). -/
def RawSlotFields.payload (f : RawSlotFields) : List Byte := payloadOf f.dlc f.data

/-- Reads the fields of a slot image at R74's offsets. -/
def readSlotFields (slot : List Byte) : RawSlotFields where
  typeByte := slot.getD 0 0
  flags := .ofByte (slot.getD 1 0)
  dlc := (slot.getD 2 0).setWidth 4
  codeByte := slot.getD 3 0
  timestampRaw := BitVec.ofNat 32 (leNat ((slot.drop 4).take 4))
  id := .ofWord ((slot.getD 1 0).getLsbD 0) (BitVec.ofNat 32 (leNat ((slot.drop 8).take 4)))
  data := (slot.drop 12).take 64

end Sys2Proof.Machine
end

