-- ==== Sys2Proof/Safety.lean ====
section
/-! DEFINITION. What counts as a safe run, in the terms claims use: good states, enabled moves, slot ownership, the protocol
invariant with its view bounds and contents (20_memory.md R67, R68), and infinite runs with the fairness assumptions of
70_reset_and_hazards.md R261. -/

namespace Sys2Proof.Machine

/-- A state with no model fault recorded: "a state with a non-empty `FAULTS` is never a good final state" (10_state.md R37). -/
def State.good (s : State) : Bool := s.faults.isEmpty

/-- `t` is reached from `s` in some number of steps. -/
inductive Reaches (s : State) : State → Prop where
  | refl : Reaches s s
  | step {t u : State} : Reaches s t → Machine.step t = .next u → Reaches s u

/-- Some transaction of the port can run, or can be answered with a fault: its command word faults, or its words are all there. -/
def wordsReady (cfg : Config) (q : Port) : List Word → Bool
  | [] => false
  | cw :: ops =>
    match decodeAt q cw with
    | .error _ => true
    | .ok _ =>
      match decode cfg.slotWords (cw :: ops) with
      | .ok _ => true
      | .error _ => false

/-- The agent of a move has this step enabled (60_exceptions.md R220): a command from a port with none outstanding, a WAKE_WAIT
completion, or an ENV move. After a model fault no agent has (R213). -/
def State.enabled (s : State) (m : Move) : Bool :=
  s.faults.isEmpty &&
  match m with
  | .port q _ => (s.ports.val q).waiting || wordsReady s.cfg q (s.ports.val q).stream
  | .wakeLoss _ => true
  | .corruptWrite ch addr bytes => corruptEnabled s.cfg ch addr bytes.length

/-- The command that a move runs on its port, if it runs one. -/
def State.commandOf (s : State) (m : Move) : Option (Port × Instr) :=
  match m with
  | .port q _ =>
    if (s.ports.val q).waiting then some (q, .wakeWait q.chan)
    else match decode s.cfg.slotWords (s.ports.val q).stream with
      | .ok (i, _) => some (q, i)
      | .error _ => none
  | .wakeLoss _ => none
  | .corruptWrite _ _ _ => none

/-- The command the next step runs, if it runs one. -/
def State.nextCommand (s : State) : Option (Port × Instr) := s.schedule.head?.bind s.commandOf

/-! ### What stays the same -/

/-- The address `a` is one of the `n` addresses from `base` up. -/
def Within (a base n : Nat) : Prop := base ≤ a ∧ a < base + n

/-- Every byte of memory reads as before. -/
def SameBytes (s t : State) : Prop := ∀ a, t.mem.readByte a = s.mem.readByte a

/-- Byte `k` of a slot image given as words: bits `[8(k mod 4)+7 : 8(k mod 4)]` of word `⌊k/4⌋` (30_encoding.md R97). -/
def imageByte (words : List Word) (k : Nat) : Byte := (words.getD (k / 4) 0).extractLsb' (8 * (k % 4)) 8

/-- Everything but channel `ch`'s own state, the memory and the response is as before. -/
structure SameElsewhere (s t : State) (ch : Chan) : Prop where
  cfg : t.cfg = s.cfg
  ports : t.ports = s.ports
  faults : t.faults = s.faults
  schedule : t.schedule = s.schedule
  port : t.port = s.port
  draw : t.draw = s.draw
  otherChannel : ∀ ch', ch' ≠ ch → t.ch ch' = s.ch ch'

/-! ### The order of checks (60_exceptions.md R214) -/

/-- The model fault a command ends with, read from R214's list alone: the port, then use before INIT, then the drain sequence (for
INIT, quiescence), then, for a PUSH that is neither corrupt nor full, the overwrite check. -/
def faultOf (i : Instr) (s : State) : Option FaultCode :=
  let ch := i.chan
  if ch ≠ s.port.chan ∨ i.op.legalOn s.port.role = false then some .wrongPort
  else match i with
    | .push _ _ =>
      let occ := (s.cell ch .put - s.view (.prod ch) ch .get).toNat
      if (s.ch ch).chState = .uninit then some .useBeforeInit
      else if (s.ch ch).pFault = false ∧ occ < s.cfg.cap.val ch ∧ s.overwrites ch (s.cell ch .put) = true then
        some .slotOverwrite
      else none
    | .drainBegin _ =>
      if (s.ch ch).chState = .uninit then some .useBeforeInit
      else if (s.ch ch).cDrain = true then some .drainSequence
      else none
    | .pop _ =>
      if (s.ch ch).chState = .uninit then some .useBeforeInit
      else if (s.ch ch).cDrain = false then some .drainSequence
      else none
    | .drainEnd _ =>
      if (s.ch ch).chState = .uninit then some .useBeforeInit
      else if (s.ch ch).cDrain = false then some .drainSequence
      else none
    | .init _ => if (s.ch ch).cDrain = true then some .notQuiescent else none
    | .wakeWait _ => none
    | .track _ _ => none
    | .tsReset _ => none

/-! ### Invariants of the machine -/

/-- Every frontier points into its history (10_state.md R36). -/
def FrontsInHistory (s : State) : Prop := ∀ a ch c, s.front a ch c ≤ s.histLast ch c

/-- A WAKE_WAIT is outstanding on consumer ports only (30_encoding.md R92). -/
def OnlyConsumersWait (s : State) : Prop := ∀ q, (s.ports.val q).waiting = true → q.role = .consumer

/-! ### Ownership (10_state.md R41, R42) -/

/-- The true occupancy: the current PUT minus the current GET. -/
def State.occupied (s : State) (ch : Chan) : Word := occupancy (s.cell ch .put) (s.cell ch .get)

/-- Index `idx` belongs to the consumer: it is one of g, g+1, …, p−1 (R42). -/
def State.consumerOwns (s : State) (ch : Chan) (idx : Word) : Bool :=
  decide ((idx - s.cell ch .get).toNat < (s.occupied ch).toNat)

/-! ### The protocol invariant (R41, 20_memory.md R67, R68)

Positions: `p0` is the value both indices had at the last INIT, `ds` says how far past it each entry of HIST[ch][GET] is. -/

/-- The history of PUT counts up by one from `p0`; the history of GET is `p0` plus the rising positions `ds`, none past PUT; the
oldest GET the producer may still read is at most CAP behind PUT, the oldest PUT the consumer may still read is not behind GET,
and an open drain stands between the two. -/
structure RingInv (s : State) (ch : Chan) (p0 : Word) (ds : List Nat) : Prop where
  putHist : s.hist ch .put = (List.range ((s.histLast ch .put) + 1)).map fun i => p0 + BitVec.ofNat 32 i
  getHist : s.hist ch .get = ds.map fun d => p0 + BitVec.ofNat 32 d
  rising : ds.Pairwise (· ≤ ·)
  producerFront : s.front (.prod ch) ch .get < ds.length
  producerBound : s.histLast ch .put ≤ ds.getD (s.front (.prod ch) ch .get) 0 + s.cfg.cap.val ch
  consumerFront : s.front (.cons ch) ch .put ≤ s.histLast ch .put
  consumerBound : ds.getLastD 0 ≤ s.front (.cons ch) ch .put
  drain : (s.ch ch).cDrain = true → ∃ c l, ds.getLastD 0 ≤ c ∧ c ≤ l ∧ l ≤ s.front (.cons ch) ch .put ∧
    (s.ch ch).clGet = p0 + BitVec.ofNat 32 c ∧ (s.ch ch).clLimit = p0 + BitVec.ofNat 32 l

/-- A channel not initialised since power-on: one history entry, every frontier the protocol reads at it, no drain (R250). -/
structure FreshInv (s : State) (ch : Chan) : Prop where
  older : (s.ch ch).older = ⟨[], []⟩
  noDrain : (s.ch ch).cDrain = false

/-- The protocol invariant of one channel: neither side has seen corruption, and the channel is fresh or its ring is in order. -/
structure ChannelInv (s : State) (ch : Chan) : Prop where
  pFault : (s.ch ch).pFault = false
  cFault : (s.ch ch).cFault = false
  fresh : (s.ch ch).chState = .uninit → FreshInv s ch
  ring : (s.ch ch).chState = .ready → ∃ p0 ds, RingInv s ch p0 ds

/-- Both sides of both channels follow the protocol, and ENV may not write the segments. -/
structure Disciplined (s : State) : Prop where
  noForeignWrites : s.cfg.envMayCorrupt = false
  channels : ∀ ch, ChannelInv s ch

/-- The slots in flight hold what was pushed: `log` has the slot image of every PUSH since the last INIT, the one that published
position i+1 at place i, and every unread position's slot holds its image (R67). -/
structure ContentsInv (s : State) (ch : Chan) (log : List (List Byte)) (p0 : Word) (ds : List Nat) : Prop where
  ring : RingInv s ch p0 ds
  logLength : log.length = s.histLast ch .put
  contents : ∀ i, ds.getLastD 0 ≤ i → i < log.length →
    s.slotRead ch (s.cfg.slotOf ch (p0 + BitVec.ofNat 32 i)) = log.getD i []

/-- The channel carries `log` once it is READY. -/
def Carries (s : State) (ch : Chan) (log : List (List Byte)) : Prop :=
  (s.ch ch).chState = .ready → ∃ p0 ds, ContentsInv s ch log p0 ds

/-- The log after the next step of `s` went to `t`: a PUSH that returned OK on the channel appends its slot image, an INIT of the
channel that returned OK empties it, nothing else changes it. -/
def nextLog (s t : State) (ch : Chan) (log : List (List Byte)) : List (List Byte) :=
  if t.response.map (·.status) = some .ok then
    match s.nextCommand with
    | some (_, .push ch' slot) => if ch' = ch then log ++ [slotBytesOf slot] else log
    | some (_, .init ch') => if ch' = ch then [] else log
    | _ => log
  else log

/-! ### Infinite runs and fairness (70_reset_and_hazards.md R261) -/

/-- Words arriving at a port (30_encoding.md R90). -/
def State.arriveAt (s : State) (q : Port) (words : List Word) : State :=
  s.setPort q { s.ports.val q with stream := (s.ports.val q).stream ++ words }

/-- Words arriving at every port. -/
def State.arrive (s : State) (words : PerPort (List Word)) : State :=
  (((s.arriveAt .pRX words.producer.rx).arriveAt .pTX words.producer.tx).arriveAt .cRX
    words.consumer.rx).arriveAt .cTX words.consumer.tx

/-- An infinite run without a model fault: a state and a move for every moment, each step taking that moment's move, and between
two steps more words may arrive at the ports. -/
structure Run where
  state : Nat → State
  move : Nat → Move
  legal : ∀ n, (state n).cfg.legal = true
  good : ∀ n, (state n).good = true
  takes : ∀ n, ∃ (words : PerPort (List Word)) (t : State),
    takeMove (move n) (state n) = .next t ∧ state (n + 1) = t.arrive words

/-- The agent whose step a move is (10_state.md R20, 60_exceptions.md R220). -/
def Move.agent : Move → Agent
  | .port q _ => agentOf q
  | .wakeLoss _ => .env
  | .corruptWrite _ _ _ => .env

/-- The move lets an outstanding WAKE_WAIT go on holding: neither completion step is taken (43_channel_control.md R191). -/
def State.keepsHolding (s : State) (m : Move) : Prop :=
  match m with
  | .port q draw => (s.ports.val q).waiting = true ∧ waitChoice (s.ch q.chan).wake draw = .hold
  | .wakeLoss _ => False
  | .corruptWrite _ _ _ => False

/-- At moment `n` agent `a` takes an enabled step; an outstanding WAKE_WAIT that goes on holding takes none. -/
def Run.stepsAt (r : Run) (a : Agent) (n : Nat) : Prop :=
  (r.move n).agent = a ∧ (r.state n).enabled (r.move n) = true ∧ ¬ (r.state n).keepsHolding (r.move n)

/-- R261 (a), weak fairness, of all five agents: one that has some step enabled at every moment from some point on eventually takes
one. ENV always has, by WAKE_LOSS (43_channel_control.md R192). -/
def Run.weaklyFair (r : Run) : Prop :=
  ∀ a n, (∀ m, n ≤ m → ∃ mv : Move, mv.agent = a ∧ (r.state m).enabled mv = true) → ∃ m, n ≤ m ∧ r.stepsAt a m

/-- Channel `ch` is not re-initialised from moment `n` up to before moment `m` (an INIT restarts the positions of its
histories). -/
def Run.noInitBetween (r : Run) (ch : Chan) (n m : Nat) : Prop :=
  ∀ j, n ≤ j → j < m → ∀ q, (r.state j).commandOf (r.move j) ≠ some (q, .init ch)

/-- The agent of a channel that reads a cell without owning it. -/
def peerOf (ch : Chan) : IndexCell → Agent
  | .put => .cons ch
  | .get => .prod ch

/-- Command `i`, run on port `q`, does the IndexRead of a cell by its peer: a PUSH reads GET unless UNINIT or PFAULT ends it before
(41_ring_producer.md R140), a DRAIN_BEGIN reads PUT unless UNINIT, CDRAIN or CFAULT does (42_ring_consumer.md R160). -/
def State.readsAsPeer (s : State) (q : Port) (i : Instr) (ch : Chan) : IndexCell → Prop
  | .get => q = ⟨.producer, ch⟩ ∧ (∃ slot, i = .push ch slot) ∧ (s.ch ch).chState = .ready ∧ (s.ch ch).pFault = false
  | .put => q = ⟨.consumer, ch⟩ ∧ i = .drainBegin ch ∧ (s.ch ch).chState = .ready ∧
      (s.ch ch).cDrain = false ∧ (s.ch ch).cFault = false

/-- At moment `m` a step does the IndexRead of cell `c` of channel `ch` by its peer. -/
def Run.peerReadsAt (r : Run) (ch : Chan) (c : IndexCell) (m : Nat) : Prop :=
  ∃ q i, (r.state m).commandOf (r.move m) = some (q, i) ∧ (r.state m).readsAsPeer q i ch c

/-- The state in which the step of a move runs. -/
def State.onMove (s : State) : Move → State
  | .port q draw => s.select q draw
  | .wakeLoss _ => s
  | .corruptWrite _ _ _ => s

/-- R261 (b), eventual visibility: for every index write, a non-owner's IndexRead returns it or a later one from some point on. -/
def Run.eventuallyVisible (r : Run) : Prop :=
  ∀ ch c n, ∃ k, ∀ m, k ≤ m → r.noInitBetween ch n m → r.peerReadsAt ch c m →
    (r.state n).histLast ch c ≤ ((r.state m).onMove (r.move m)).viewIndex (peerOf ch c) ch c

end Sys2Proof.Machine
end

