-- ==== Sys2Proof/Certificates/Slice0/Obligations.lean ====
section
/-! DEFINITION. The statements about the model, each from a numbered rule of spec/. -/

open Sys2Proof Sys2Proof.Machine

/-! ### Encoding -/

/-- The decoder reads exactly the encodings of well-formed commands: decoding gives `i` and a rest exactly when `i` is well formed
and the words are `i`'s encoding followed by that rest (30_encoding.md R91, R92, R97). -/
def Obligations.DecodeInvertsEncode : Prop :=
  ∀ (slotWords : Nat) (i : Instr) (ws rest : List Word),
    decode slotWords ws = .ok (i, rest) ↔ i.wellFormed slotWords = true ∧ ws = encode i ++ rest

/-- 30_encoding.md R94: a reserved OP raises FLT_ILLEGAL_CMD, and every one of the 2^32 command words is one of the 16 legal words,
which decodes to its operation and channel, or raises FLT_ILLEGAL_CMD on every port. -/
def Obligations.EveryWordIsLegalOrFaults : Prop :=
  ∀ (q : Port) (cw : Word),
    (cw.toNat % 16 = 0 ∨ 9 ≤ cw.toNat % 16 → decodeAt q cw = .error .illegalCmd) ∧
    ((cw.toNat ∈ [0x1, 0x2, 0x3, 0x4, 0x5, 0x6, 0x7, 0x8, 0x11, 0x12, 0x13, 0x14, 0x15, 0x16, 0x17, 0x18] ∧
        ∃ op ch, cw = commandWord op ch ∧ decodeCW cw = .ok (op, ch)) ∨
      (cw.toNat ∉ [0x1, 0x2, 0x3, 0x4, 0x5, 0x6, 0x7, 0x8, 0x11, 0x12, 0x13, 0x14, 0x15, 0x16, 0x17, 0x18] ∧
        decodeAt q cw = .error .illegalCmd))

/-- 30_encoding.md R96: `decode(q, cw)` on every word and every port, in numbers: reserved bits first, then the opcode, then the
channel, then the role, and otherwise the mnemonic and the channel. -/
def Obligations.DecodeChecksInOrder : Prop :=
  ∀ (q : Port) (cw : Word),
    let op := cw.toNat % 16
    let ch := cw.toNat / 16 % 2
    let reserved := cw.toNat / 32 ≠ 0 ∨ op = 0 ∨ 9 ≤ op
    let wrongChannel := ch ≠ q.chan.bit
    let wrongRole := (op = 1 ∧ q.role = .consumer) ∨ (op ≠ 1 ∧ op ≠ 5 ∧ q.role = .producer)
    (reserved → decodeAt q cw = .error .illegalCmd) ∧
    (¬ reserved → wrongChannel ∨ wrongRole → decodeAt q cw = .error .wrongPort) ∧
    (¬ reserved → ¬ wrongChannel → ¬ wrongRole →
      ∃ o, Op.ofCode op = some o ∧ o.code = op ∧ decodeAt q cw = .ok (o, q.chan))

/-- Words written out from 30_encoding.md R92's table (95_test_vectors.md DE-1 to DE-8). -/
def Obligations.SpecWordsDecode : Prop :=
  decode 2 [0x00000001, 0x11111111, 0x22222222, 0x33333333] = .ok (.push .rx [0x11111111, 0x22222222], [0x33333333]) ∧
  decode 19 [0x00000012] = .ok (.drainBegin .tx, []) ∧
  decode 19 [0x00000003, 0x00000004] = .ok (.pop .rx, [0x00000004]) ∧
  decode 19 [0x00000014] = .ok (.drainEnd .tx, []) ∧
  decode 19 [0x00000015] = .ok (.init .tx, []) ∧
  decode 19 [0x00000006] = .ok (.wakeWait .rx, []) ∧
  decode 19 [0x00000007, 0xEE6B2800] = .ok (.track .rx 0xEE6B2800, []) ∧
  decode 19 [0x00000018] = .ok (.tsReset .tx, []) ∧
  decode 19 [0x00000021] = .error .reservedBits ∧
  decode 19 [0x00000009] = .error .reservedOp ∧
  decode 19 [0x00000007] = .error .missingOperands

/-- 30_encoding.md R97, R100: a transaction has 1 + SLOT_BYTES/4 words for PUSH, 2 for TRACK and 1 for all others, its length can be
read from CW[3:0] alone, and it is the length of the encoding. -/
def Obligations.TransactionLengthFollowsOpcode : Prop :=
  ∀ (slotWords : Nat) (i : Instr), i.wellFormed slotWords = true →
    (encode i).length =
      (match i with
      | .push _ _ => 1 + slotWords
      | .track _ _ => 2
      | .drainBegin _ => 1
      | .pop _ => 1
      | .drainEnd _ => 1
      | .init _ => 1
      | .wakeWait _ => 1
      | .tsReset _ => 1) ∧
    ∀ cw : Word, fieldOp cw = fieldOp (commandWord i.op i.chan) → transactionLength slotWords cw = (encode i).length

/-! ### The step -/

/-- When the words waiting at the scheduled port begin with a whole command `i`, the step is `exec i`, with the port and the draw set,
the move and the command's words taken off, and no response left from before (30_encoding.md R90, 00_scope.md R12). -/
def Obligations.StepRunsDecodedCommand : Prop :=
  ∀ (s : State) (q : Port) (d : Nat) (moves : List Move) (i : Instr) (rest : List Word),
    s.cfg.legal = true → s.faults = [] → s.schedule = .port q d :: moves →
    (s.ports.val q).waiting = false → decode s.cfg.slotWords (s.ports.val q).stream = .ok (i, rest) →
    step s = exec i { s with
      schedule := moves, port := q, draw := d, response := none
      ports := s.ports.set q { stream := rest, waiting := false } }

/-- When the command word at the scheduled port raises a decode fault on that port, the step records `(code, port, CW)` in FAULTS,
with code 1 (FLT_ILLEGAL_CMD) or 2 (FLT_WRONG_PORT), and gives no response; memory, channels and the other ports are as before
(30_encoding.md R93 to R96, 60_exceptions.md R212). -/
def Obligations.StepRecordsDecodeFault : Prop :=
  ∀ (s : State) (q : Port) (d : Nat) (moves : List Move) (cw : Word) (ops : List Word) (code : FaultCode),
    s.cfg.legal = true → s.faults = [] → s.schedule = .port q d :: moves →
    (s.ports.val q).waiting = false → (s.ports.val q).stream = cw :: ops → decodeAt q cw = .error code →
    ∃ t, step s = .next t ∧ t.faults = [⟨code, q, cw⟩] ∧ t.response = none ∧
      (code = .illegalCmd ∧ t.faults.map FaultRecord.triple = [(1, q, cw)] ∨
        code = .wrongPort ∧ t.faults.map FaultRecord.triple = [(2, q, cw)]) ∧
      t.cfg = s.cfg ∧ t.mem = s.mem ∧ t.chan = s.chan ∧ t.schedule = moves ∧
      (t.ports.val q).waiting = false ∧ ∀ q', q' ≠ q → t.ports.val q' = s.ports.val q'

/-- While a WAKE_WAIT is outstanding on a port, a step of that port takes no word from it: it goes on with the WAKE_WAIT, which stays
outstanding without a response or completes with OK or TIMEOUT (30_encoding.md R90, 43_channel_control.md R191). -/
def Obligations.OutstandingWaitHoldsItsPort : Prop :=
  ∀ (s : State) (ch : Chan) (d : Nat) (moves : List Move),
    s.cfg.legal = true → s.faults = [] → s.schedule = .port ⟨.consumer, ch⟩ d :: moves →
    (s.ports.val ⟨.consumer, ch⟩).waiting = true →
    ∃ t, step s = .next t ∧
      (t.ports.val ⟨.consumer, ch⟩).stream = (s.ports.val ⟨.consumer, ch⟩).stream ∧
      (((t.ports.val ⟨.consumer, ch⟩).waiting = true ∧ t.response = none) ∨
        ((t.ports.val ⟨.consumer, ch⟩).waiting = false ∧
          (t.response = some ⟨⟨.consumer, ch⟩, .ok, []⟩ ∨ t.response = some ⟨⟨.consumer, ch⟩, .timeout, []⟩)))

/-- 60_exceptions.md R213: a command that faults adds its record to FAULTS, gives no response and has no other effect; no command
(INIT included) takes a record out of FAULTS; a step that adds a record, from decode or from a command, changes no state of the
block but FAULTS; from then on no agent takes a step; and the state is not a good one. -/
def Obligations.FaultRecordsItselfAndHalts : Prop :=
  (∀ (i : Instr) (s t : State), exec i s = .next t → t.faults ≠ s.faults →
    ∃ code, t.faults = s.faults ++ [⟨code, s.port, commandWord i.op i.chan⟩] ∧
      t = { s with faults := t.faults, response := none }) ∧
  (∀ (i : Instr) (s t : State) (r : FaultRecord), exec i s = .next t → r ∈ s.faults → r ∈ t.faults) ∧
  (∀ s t : State, step s = .next t → t.faults ≠ s.faults →
    ∃ r, t.faults = [r] ∧ t.response = none ∧ t.cfg = s.cfg ∧ t.mem = s.mem ∧ t.chan = s.chan ∧
      ∀ q, (t.ports.val q).waiting = (s.ports.val q).waiting) ∧
  (∀ s : State, s.cfg.legal = true → s.faults ≠ [] → step s = .fault .halted ∧ s.good = false)

/-- 30_encoding.md R98, R99: the response words of OK, FULL, CORRUPT, EMPTY and TIMEOUT are 0, 1, 2, 3 and 4 (the status number in
bits 2:0, zero above); a response goes to the issuing port and begins with its status's word; each command returns only its own statuses; and the data words are one for an OK DRAIN_BEGIN, SLOT_BYTES/4 for an OK POP, two for TRACK and
none otherwise. -/
def Obligations.ResponseFollowsStatus : Prop :=
  [Status.ok, .full, .corrupt, .empty, .timeout].map responseWord = [0, 1, 2, 3, 4] ∧
  ∀ (s t : State) (i : Instr) (r : Response), s.cfg.legal = true → exec i s = .next t → t.response = some r →
    r.port = s.port ∧
    r.words = responseWord r.status :: r.data ∧
    r.status ∈ (match i with
      | .push _ _ => [Status.ok, .full, .corrupt]
      | .drainBegin _ => [.ok, .corrupt]
      | .pop _ => [.ok, .empty]
      | .drainEnd _ => [.ok]
      | .init _ => [.ok]
      | .wakeWait _ => [.ok, .timeout]
      | .track _ _ => [.ok]
      | .tsReset _ => [.ok]) ∧
    r.data.length = (match i, r.status with
      | .drainBegin _, .ok => 1
      | .pop _, .ok => s.cfg.slotWords
      | .track _ _, _ => 2
      | _, _ => 0)

/-- 60_exceptions.md R214, R212: the faults have the numbers 1 to 6; the model fault a command ends with is the first of R214's list
that applies (`faultOf`), its record `(number, port, CW)` is then in FAULTS, and that is the command's only effect; where none applies
the command adds nothing to FAULTS. -/
def Obligations.CommandFaultsInCheckOrder : Prop :=
  [FaultCode.illegalCmd, .wrongPort, .useBeforeInit, .drainSequence, .notQuiescent, .slotOverwrite].map faultNumber =
    [1, 2, 3, 4, 5, 6] ∧
  ∀ (i : Instr) (s : State),
    let cw := commandWord i.op i.chan
    (∀ code, faultOf i s = some code →
      exec i s = .next (s.recordFault code cw) ∧
      (faultNumber code, s.port, cw) ∈ (s.recordFault code cw).faults.map FaultRecord.triple) ∧
    (faultOf i s = none → ∃ t, exec i s = .next t ∧ t.faults = s.faults)

/-- 20_memory.md R55, 00_scope.md R8: a configuration out of range, misaligned or with overlapping segments has no run. -/
def Obligations.IllegalConfigurationHasNoRun : Prop :=
  ∀ s : State,
    (step s = .refused .illegalConfig ↔
      ¬ ((∀ ch, 1 ≤ s.cfg.cap.val ch ∧ s.cfg.cap.val ch ≤ 2 ^ 32 - 1) ∧
        s.cfg.slotBytes % 4 = 0 ∧ s.cfg.tsOffset % 4 = 0 ∧ s.cfg.tsOffset + 4 ≤ s.cfg.slotBytes ∧
        (∀ ch, s.cfg.base.val ch % 4 = 0) ∧
        ∀ a, ¬ (s.cfg.inSegment .rx a = true ∧ s.cfg.inSegment .tx a = true)))

/-! ### PUSH (41_ring_producer.md R140 to R142) -/

/-- PUSH with space: the slot image is stored in slot `PUT mod CAP`, byte k of the slot being bits `[8(k mod 4)+7 : 8(k mod 4)]` of
operand word `⌊k/4⌋` (30_encoding.md R97), then PUT is published as `PUT +₃₂ 1`, then WAKE is set, and the
response is OK; the producer's frontiers move to what it read and wrote. No other byte, register, channel or port changes. -/
def Obligations.PushStoresPublishesAndWakes : Prop :=
  ∀ (s : State) (ch : Chan) (slot : List Word),
    s.cfg.legal = true → slot.length = s.cfg.slotWords → s.port = ⟨.producer, ch⟩ →
    (s.ch ch).chState = .ready → (s.ch ch).pFault = false →
    (s.cell ch .put - s.view (.prod ch) ch .get).toNat < s.cfg.cap.val ch →
    s.overwrites ch (s.cell ch .put) = false →
    ∃ t, exec (.push ch slot) s = .next t ∧
      t.response = some ⟨s.port, .ok, []⟩ ∧
      t.slotRead ch ((s.cell ch .put).toNat % s.cfg.cap.val ch) = slotBytesOf slot ∧
      (∀ k, k < s.cfg.slotBytes →
        t.mem.readByte (s.cfg.base.val ch + 8 + (s.cell ch .put).toNat % s.cfg.cap.val ch * s.cfg.slotBytes + k) =
          imageByte slot k) ∧
      t.cell ch .put = s.cell ch .put + 1 ∧
      t.hist ch .put = s.hist ch .put ++ [s.cell ch .put + 1] ∧
      t.ch ch = { s.ch ch with
        older := ⟨(s.ch ch).older.put ++ [s.cell ch .put], (s.ch ch).older.get⟩
        front := (s.ch ch).front.set (.prod ch) ⟨s.histLast ch .put + 1, s.viewIndex (.prod ch) ch .get⟩
        wake := true } ∧
      SameElsewhere s t ch ∧
      ∀ a, ¬ Within a (s.cfg.slotAddr ch ((s.cell ch .put).toNat % s.cfg.cap.val ch)) s.cfg.slotBytes →
        ¬ Within a (s.cfg.cellAddr ch .put) 4 → t.mem.readByte a = s.mem.readByte a

/-- 41_ring_producer.md R142: a PUSH that reads occupancy CAP returns FULL and changes no slot, no index and no flag (only its own
frontiers move); a PUSH that returns OK raises the producer's view of the occupancy by exactly one. -/
def Obligations.PushOnFullRingChangesNothing : Prop :=
  ∀ (s : State) (ch : Chan) (slot : List Word),
    s.cfg.legal = true → slot.length = s.cfg.slotWords → s.port = ⟨.producer, ch⟩ → (s.ch ch).chState = .ready →
    (s.ch ch).pFault = false →
    ((s.cell ch .put - s.view (.prod ch) ch .get).toNat = s.cfg.cap.val ch →
      ∃ t, exec (.push ch slot) s = .next t ∧
        t.response = some ⟨s.port, .full, []⟩ ∧
        t.ch ch = { s.ch ch with
          front := (s.ch ch).front.set (.prod ch) ⟨s.histLast ch .put, s.viewIndex (.prod ch) ch .get⟩ } ∧
        SameElsewhere s t ch ∧ t.mem = s.mem) ∧
    (∀ t, exec (.push ch slot) s = .next t → t.response = some ⟨s.port, .ok, []⟩ →
      (t.cell ch .put - s.view (.prod ch) ch .get).toNat =
        (s.cell ch .put - s.view (.prod ch) ch .get).toNat + 1)

/-- PUSH and ProtocolCorruption: an occupancy above CAP sets PFAULT and returns CORRUPT; while PFAULT is set, PUSH returns CORRUPT
with no reads and no effect. Nothing else changes. -/
def Obligations.PushReportsCorruption : Prop :=
  ∀ (s : State) (ch : Chan) (slot : List Word),
    s.port = ⟨.producer, ch⟩ → (s.ch ch).chState = .ready →
    ((s.ch ch).pFault = true →
      exec (.push ch slot) s = .next { s with response := some ⟨s.port, .corrupt, []⟩ }) ∧
    ((s.ch ch).pFault = false → s.cfg.cap.val ch < (s.cell ch .put - s.view (.prod ch) ch .get).toNat →
      ∃ t, exec (.push ch slot) s = .next t ∧
        t.response = some ⟨s.port, .corrupt, []⟩ ∧
        t.ch ch = { s.ch ch with
          pFault := true
          front := (s.ch ch).front.set (.prod ch) ⟨s.histLast ch .put, s.viewIndex (.prod ch) ch .get⟩ } ∧
        SameElsewhere s t ch ∧ t.mem = s.mem)

/-- 70_reset_and_hazards.md R255, 41_ring_producer.md R141: with occupancy below CAP, the slot of the index pushed still holds an
unread index exactly when the index window has crossed zero, the occupancy is at least r = 2^32 mod CAP and the index pushed is below
r; so never when CAP divides 2^32. (R255 says it for the first such PUSH of a run, where the third condition follows.) -/
def Obligations.OverwriteOnlyAcrossTheWrap : Prop :=
  ∀ (s : State) (ch : Chan),
    s.cfg.legal = true → (s.occupied ch).toNat < s.cfg.cap.val ch →
    (s.overwrites ch (s.cell ch .put) = true ↔
      (s.cell ch .put).toNat < (s.cell ch .get).toNat ∧
      2 ^ 32 % s.cfg.cap.val ch ≤ (s.occupied ch).toNat ∧
      (s.cell ch .put).toNat < 2 ^ 32 % s.cfg.cap.val ch) ∧
    (2 ^ 32 % s.cfg.cap.val ch = 0 → s.overwrites ch (s.cell ch .put) = false)

/-! ### DRAIN_BEGIN, POP, DRAIN_END (42_ring_consumer.md R160 to R163) -/

/-- DRAIN_BEGIN: samples GET (its own latest) and PUT, opens a drain between them and returns OK with COUNT = `p -₃₂ g`. Only the
drain registers and the consumer's frontiers change. -/
def Obligations.DrainBeginSamplesIndices : Prop :=
  ∀ (s : State) (ch : Chan),
    s.port = ⟨.consumer, ch⟩ → (s.ch ch).chState = .ready → (s.ch ch).cDrain = false → (s.ch ch).cFault = false →
    (s.view (.cons ch) ch .put - s.cell ch .get).toNat ≤ s.cfg.cap.val ch →
    ∃ t, exec (.drainBegin ch) s = .next t ∧
      t.response = some ⟨s.port, .ok, [s.view (.cons ch) ch .put - s.cell ch .get]⟩ ∧
      t.ch ch = { s.ch ch with
        clGet := s.cell ch .get
        clLimit := s.view (.cons ch) ch .put
        cDrain := true
        front := (s.ch ch).front.set (.cons ch) ⟨s.viewIndex (.cons ch) ch .put, s.histLast ch .get⟩ } ∧
      SameElsewhere s t ch ∧ t.mem = s.mem

/-- DRAIN_BEGIN and ProtocolCorruption: an occupancy above CAP sets CFAULT, opens no drain and returns CORRUPT; while CFAULT is set,
DRAIN_BEGIN returns CORRUPT with no reads and no effect. -/
def Obligations.DrainBeginReportsCorruption : Prop :=
  ∀ (s : State) (ch : Chan),
    s.port = ⟨.consumer, ch⟩ → (s.ch ch).chState = .ready → (s.ch ch).cDrain = false →
    ((s.ch ch).cFault = true →
      exec (.drainBegin ch) s = .next { s with response := some ⟨s.port, .corrupt, []⟩ }) ∧
    ((s.ch ch).cFault = false → s.cfg.cap.val ch < (s.view (.cons ch) ch .put - s.cell ch .get).toNat →
      ∃ t, exec (.drainBegin ch) s = .next t ∧
        t.response = some ⟨s.port, .corrupt, []⟩ ∧
        t.ch ch = { s.ch ch with
          cFault := true
          front := (s.ch ch).front.set (.cons ch) ⟨s.viewIndex (.cons ch) ch .put, s.histLast ch .get⟩ } ∧
        SameElsewhere s t ch ∧ t.mem = s.mem)

/-- POP in an open drain: before the limit it returns OK with the bytes of slot `CLGET mod CAP` as words, byte k of the
slot being bits `[8(k mod 4)+7 : 8(k mod 4)]` of data word `⌊k/4⌋` (30_encoding.md R98, R97), and CLGET goes up by one
modulo 2^32; at the limit it returns EMPTY and changes nothing, however often it is repeated. POP never writes GET. -/
def Obligations.PopTakesNextSlot : Prop :=
  ∀ (s : State) (ch : Chan),
    s.cfg.legal = true → s.port = ⟨.consumer, ch⟩ → (s.ch ch).chState = .ready → (s.ch ch).cDrain = true →
    ((s.ch ch).clGet ≠ (s.ch ch).clLimit →
      ∃ t data, exec (.pop ch) s = .next t ∧
        t.response = some ⟨s.port, .ok, data⟩ ∧
        data.length = s.cfg.slotWords ∧
        slotBytesOf data = s.slotRead ch ((s.ch ch).clGet.toNat % s.cfg.cap.val ch) ∧
        (∀ k, k < s.cfg.slotBytes →
          imageByte data k =
            s.mem.readByte (s.cfg.base.val ch + 8 + (s.ch ch).clGet.toNat % s.cfg.cap.val ch * s.cfg.slotBytes + k)) ∧
        t.ch ch = { s.ch ch with clGet := (s.ch ch).clGet + 1 } ∧
        SameElsewhere s t ch ∧ t.mem = s.mem) ∧
    ((s.ch ch).clGet = (s.ch ch).clLimit →
      exec (.pop ch) s = .next { s with response := some ⟨s.port, .empty, []⟩ })

/-- DRAIN_END in an open drain: publishes CLGET as GET by one history entry, closes the drain and returns OK. Only the four bytes of
the GET cell are stored to. -/
def Obligations.DrainEndPublishesOnce : Prop :=
  ∀ (s : State) (ch : Chan),
    s.port = ⟨.consumer, ch⟩ → (s.ch ch).chState = .ready → (s.ch ch).cDrain = true →
    ∃ t, exec (.drainEnd ch) s = .next t ∧
      t.response = some ⟨s.port, .ok, []⟩ ∧
      t.cell ch .get = (s.ch ch).clGet ∧
      t.hist ch .get = s.hist ch .get ++ [(s.ch ch).clGet] ∧
      t.ch ch = { s.ch ch with
        older := ⟨(s.ch ch).older.put, (s.ch ch).older.get ++ [s.cell ch .get]⟩
        front := (s.ch ch).front.set (.cons ch) ⟨s.front (.cons ch) ch .put, s.histLast ch .get + 1⟩
        cDrain := false } ∧
      SameElsewhere s t ch ∧
      ∀ a, ¬ Within a (s.cfg.cellAddr ch .get) 4 → t.mem.readByte a = s.mem.readByte a

/-- 42_ring_consumer.md R163: whenever DRAIN_BEGIN returns OK, its COUNT is `p -₃₂ g` and at most CAP, where g and p are the values it
reads; and DRAIN, its commands run one after another with no other agent's step in between (log 21; R163 has no such limit), then
returns COUNT slots, those of indices g, g+1, …, p−1 in that order, then one EMPTY, and the published GET equals p. -/
def Obligations.DrainDeliversCount : Prop :=
  (∀ (s t : State) (ch : Chan) (data : List Word),
    exec (.drainBegin ch) s = .next t → t.response = some ⟨s.port, .ok, data⟩ →
    data = [s.view (.cons ch) ch .put - s.cell ch .get] ∧
    (s.view (.cons ch) ch .put - s.cell ch .get).toNat ≤ s.cfg.cap.val ch) ∧
  ∀ (s : State) (ch : Chan) (n : Nat),
    s.cfg.legal = true → s.port = ⟨.consumer, ch⟩ → (s.ch ch).chState = .ready → (s.ch ch).cDrain = false →
    (s.ch ch).cFault = false → n = (s.view (.cons ch) ch .put - s.cell ch .get).toNat → n ≤ s.cfg.cap.val ch →
    ∃ rs t, (Pseudo.drain ch).run (n + 3) s = some (rs, t) ∧
      rs.map (·.status) = .ok :: List.replicate n .ok ++ [.empty, .ok] ∧
      rs.head?.map (·.data) = some [BitVec.ofNat 32 n] ∧
      deliveredSlots rs =
        (List.range n).map (fun k => s.slotRead ch ((s.cell ch .get + BitVec.ofNat 32 k).toNat % s.cfg.cap.val ch)) ∧
      t.cell ch .get = s.view (.cons ch) ch .put ∧ (t.ch ch).cDrain = false

/-! ### INIT, WAKE_WAIT and ENV (43_channel_control.md R190 to R192) -/

/-- INIT with no drain open, from either port of the channel: GET takes the current PUT, each history keeps that one entry, every
agent's frontier points at it, both sticky bits clear and the channel is READY. PUT, the slots, WAKE, CLGET, CLIMIT, the tracker and
every byte outside the GET cell stay. -/
def Obligations.InitSynchronisesChannel : Prop :=
  ∀ (s : State) (ch : Chan),
    s.port.chan = ch → (s.ch ch).cDrain = false →
    ∃ t, exec (.init ch) s = .next t ∧
      t.response = some ⟨s.port, .ok, []⟩ ∧
      t.cell ch .put = s.cell ch .put ∧
      t.hist ch .put = [s.cell ch .put] ∧ t.hist ch .get = [s.cell ch .put] ∧
      (∀ a c, t.front a ch c = 0) ∧
      t.ch ch = { s.ch ch with
        older := ⟨[], []⟩, front := (t.ch ch).front, pFault := false, cFault := false, chState := .ready } ∧
      SameElsewhere s t ch ∧
      ∀ a, ¬ Within a (s.cfg.cellAddr ch .get) 4 → t.mem.readByte a = s.mem.readByte a

/-- WAKE_WAIT on its consumer port, for every draw: WOKEN clears WAKE and returns OK, TIMEOUT leaves WAKE and returns TIMEOUT, and
otherwise the command is outstanding without a response. Nothing else changes. The draw's coding is the model's (log 7, log 10). -/
def Obligations.WakeWaitCompletes : Prop :=
  ∀ (s : State) (ch : Chan),
    s.port = ⟨.consumer, ch⟩ →
    (waitChoice (s.ch ch).wake s.draw = .woken →
      (s.ch ch).wake = true ∧
      ∃ t, exec (.wakeWait ch) s = .next t ∧ t.response = some ⟨s.port, .ok, []⟩ ∧
        t = { s with
          chan := s.chan.set ch { s.ch ch with wake := false }
          ports := s.ports.set s.port { s.ports.val s.port with waiting := false }
          response := t.response }) ∧
    (waitChoice (s.ch ch).wake s.draw = .timeout →
      ∃ t, exec (.wakeWait ch) s = .next t ∧ t.response = some ⟨s.port, .timeout, []⟩ ∧
        t = { s with
          ports := s.ports.set s.port { s.ports.val s.port with waiting := false }
          response := t.response }) ∧
    (waitChoice (s.ch ch).wake s.draw = .hold →
      exec (.wakeWait ch) s = .next { s with
        ports := s.ports.set s.port { s.ports.val s.port with waiting := true }
        response := none })

/-- 43_channel_control.md R191: TIMEOUT is enabled at every step, WOKEN exactly while WAKE is 1, the command may also go on holding,
and when several are enabled the choice is free: each is the choice of some draw. -/
def Obligations.WakeWaitChoiceIsFree : Prop :=
  ∀ (s : State) (ch : Chan), s.port = ⟨.consumer, ch⟩ →
    (∃ d t, exec (.wakeWait ch) { s with draw := d } = .next t ∧ t.response = some ⟨s.port, .timeout, []⟩ ∧
      (t.ch ch).wake = (s.ch ch).wake) ∧
    ((∃ d t, exec (.wakeWait ch) { s with draw := d } = .next t ∧ t.response = some ⟨s.port, .ok, []⟩) ↔
      (s.ch ch).wake = true) ∧
    (∃ d t, exec (.wakeWait ch) { s with draw := d } = .next t ∧ t.response = none ∧
      (t.ports.val s.port).waiting = true ∧ t.ch ch = s.ch ch)

/-- 43_channel_control.md R192: WAKE_LOSS is always enabled and only clears WAKE. CORRUPT_WRITE is enabled only when ENV_MAY_CORRUPT
and only inside the segment; it stores its bytes, appends each touched header cell's new value to that cell's history, and touches no
block-local state. That a write storing a cell's old value again is appended too is the model's choice (log 12), as is the refusal of
a move that is not enabled (log 13). -/
def Obligations.EnvMovesTouchOnlyTheirTargets : Prop :=
  ∀ (s : State) (ch : Chan) (addr : Nat) (bytes : List Byte) (moves : List Move),
    s.cfg.legal = true → s.faults = [] →
    (s.schedule = .wakeLoss ch :: moves →
      ∃ t, step s = .next t ∧
        t = { s with schedule := moves, response := none, chan := s.chan.set ch { s.ch ch with wake := false } }) ∧
    (s.schedule = .corruptWrite ch addr bytes :: moves →
      (¬ (s.cfg.envMayCorrupt = true ∧ ∀ a, Within a addr bytes.length → s.cfg.inSegment ch a = true) →
        step s = .refused .envMoveNotEnabled) ∧
      (s.cfg.envMayCorrupt = true → (∀ a, Within a addr bytes.length → s.cfg.inSegment ch a = true) →
        ∃ t, step s = .next t ∧
          (∀ k, k < bytes.length → t.mem.readByte (addr + k) = bytes.getD k 0) ∧
          (∀ a, ¬ Within a addr bytes.length → t.mem.readByte a = s.mem.readByte a) ∧
          (∀ c, (∃ a, Within a addr bytes.length ∧ Within a (s.cfg.cellAddr ch c) 4) →
            t.hist ch c = s.hist ch c ++ [t.cell ch c]) ∧
          (∀ c, ¬ (∃ a, Within a addr bytes.length ∧ Within a (s.cfg.cellAddr ch c) 4) →
            t.hist ch c = s.hist ch c) ∧
          t.ch ch = { s.ch ch with older := (t.ch ch).older } ∧
          (∀ ch', ch' ≠ ch → t.ch ch' = s.ch ch') ∧
          t.cfg = s.cfg ∧ t.ports = s.ports ∧ t.faults = s.faults ∧ t.schedule = moves ∧ t.response = none))

/-! ### TRACK and TS_RESET (40_timestamp.md R120 to R127) -/

/-- The first TRACK: the result is the sample zero-extended, and the tracker takes it. It does not depend on CHSTATE. Nothing else
changes. -/
def Obligations.TrackFirstCallTakesSample : Prop :=
  ∀ (s : State) (ch : Chan) (raw : Word),
    s.port = ⟨.consumer, ch⟩ → (s.ch ch).ts.init = false →
    ∃ t, exec (.track ch raw) s = .next t ∧
      t.response = some ⟨s.port, .ok, [raw, 0]⟩ ∧
      t.ch ch = { s.ch ch with ts := ⟨true, raw, (s.ch ch).ts.high⟩ } ∧
      SameElsewhere s t ch ∧ t.mem = s.mem

/-- 40_timestamp.md R122, R120: after the first call every pair (raw, last) falls in exactly one of the cases F0, F1, B1, B0 by the
numeric relation of the two; F0 takes the sample, F1 also counts a wrap, B1 and B0 change nothing; and the result is
`TS_HIGH·2^32 + raw` with the new TS_HIGH in F0 and F1 and `TS_HIGH -₃₂ 1` in B1 and B0. Nothing else changes. -/
def Obligations.TrackBranchesByRelation : Prop :=
  ∀ (s : State) (ch : Chan) (raw : Word),
    s.port = ⟨.consumer, ch⟩ → (s.ch ch).ts.init = true →
    let last := (s.ch ch).ts.last.toNat
    let high := (s.ch ch).ts.high
    let F0 := last ≤ raw.toNat ∧ raw.toNat - last < 2 ^ 31
    let F1 := raw.toNat < last ∧ 2 ^ 31 < last - raw.toNat
    let B1 := last < raw.toNat ∧ 2 ^ 31 ≤ raw.toNat - last
    let B0 := raw.toNat < last ∧ last - raw.toNat ≤ 2 ^ 31
    let value (h : Word) : List Word := wordsOf64 (BitVec.ofNat 64 (h.toNat * 2 ^ 32 + raw.toNat))
    ((F0 ∧ ¬ F1 ∧ ¬ B1 ∧ ¬ B0) ∨ (¬ F0 ∧ F1 ∧ ¬ B1 ∧ ¬ B0) ∨ (¬ F0 ∧ ¬ F1 ∧ B1 ∧ ¬ B0) ∨ (¬ F0 ∧ ¬ F1 ∧ ¬ B1 ∧ B0)) ∧
    ∃ t, exec (.track ch raw) s = .next t ∧
      (F0 → t.response = some ⟨s.port, .ok, value high⟩ ∧ t.ch ch = { s.ch ch with ts := ⟨true, raw, high⟩ }) ∧
      (F1 → t.response = some ⟨s.port, .ok, value (high + 1)⟩ ∧
        t.ch ch = { s.ch ch with ts := ⟨true, raw, high + 1⟩ }) ∧
      (B1 ∨ B0 → t.response = some ⟨s.port, .ok, value (high - 1)⟩ ∧ t.ch ch = s.ch ch) ∧
      SameElsewhere s t ch ∧ t.mem = s.mem

/-- 40_timestamp.md R121: TS_RESET is one word, `0x8 | (ch << 4)`, legal only on the channel's consumer port (elsewhere it faults); it
clears TS_INIT and TS_HIGH, leaves TS_LAST, returns OK and changes nothing else; it has no effect on a tracker already in reset
state; and the next TRACK is a first call, which leaves TS_HIGH 0. -/
def Obligations.TsResetRestartsTracker : Prop :=
  encode (.tsReset .rx) = [0x00000008] ∧ encode (.tsReset .tx) = [0x00000018] ∧
  ∀ (s : State) (ch : Chan),
    (s.port ≠ ⟨.consumer, ch⟩ →
      exec (.tsReset ch) s = .next (s.recordFault .wrongPort (commandWord .tsReset ch))) ∧
    (s.port = ⟨.consumer, ch⟩ →
      ∃ t, exec (.tsReset ch) s = .next t ∧
        t.response = some ⟨s.port, .ok, []⟩ ∧
        t.ch ch = { s.ch ch with ts := ⟨false, (s.ch ch).ts.last, 0⟩ } ∧
        SameElsewhere s t ch ∧ t.mem = s.mem ∧
        ((s.ch ch).ts.init = false → (s.ch ch).ts.high = 0 → t.ch ch = s.ch ch) ∧
        ∀ raw, ∃ u, exec (.track ch raw) t = .next u ∧ u.response = some ⟨s.port, .ok, [raw, 0]⟩ ∧
          (u.ch ch).ts = ⟨true, raw, 0⟩)

/-- 40_timestamp.md R123: TRACK on samples of true times whose consecutive gaps are below 2^31 µs, from the reset tracker: every
response is OK, every output is the true time counted from the start of the first sample's epoch, so the outputs never decrease and
reduce modulo 2^32 to the samples. The TRACKs run one after another (the tracker is the consumer's alone, O30). The span is bounded so that no output passes 2^64 (R120 corner case 4). -/
def Obligations.TrackReconstructsElapsedTime : Prop :=
  ∀ (s : State) (ch : Chan) (first : Nat) (times : List Nat),
    s.port = ⟨.consumer, ch⟩ → (s.ch ch).ts.init = false → (s.ch ch).ts.high = 0 →
    (first :: times).IsChain (fun a b => a ≤ b ∧ b < a + 2 ^ 31) →
    (∀ t ∈ first :: times, t < first / 2 ^ 32 * 2 ^ 32 + 2 ^ 64) →
    ∃ rs u, execAll ((first :: times).map fun t => .track ch (BitVec.ofNat 32 t)) s = some (rs, u) ∧
      (∀ r ∈ rs, r.status = .ok) ∧
      (let outputs := rs.map fun r => (r.data.getD 1 0).toNat * 2 ^ 32 + (r.data.getD 0 0).toNat
       outputs = ((first :: times).map fun t => t - first / 2 ^ 32 * 2 ^ 32) ∧
       outputs.Pairwise (· ≤ ·) ∧
       outputs.map (· % 2 ^ 32) = (first :: times).map (· % 2 ^ 32))

/-- 10_state.md R35: no command but TRACK and TS_RESET writes the tracker, and none reads it: replacing the tracker's registers
before such a command changes nothing in what it does but those registers. -/
def Obligations.TrackerIsPrivate : Prop :=
  ∀ (s t : State) (i : Instr) (ch : Chan) (ts : Tracker),
    i.op ≠ .track → i.op ≠ .tsReset → exec i s = .next t →
    (t.ch ch).ts = (s.ch ch).ts ∧
    exec i { s with chan := s.chan.set ch { s.ch ch with ts := ts } } =
      .next { t with chan := t.chan.set ch { t.ch ch with ts := ts } }

/-! ### Who may change what -/

/-- 60_exceptions.md R220: a command of one channel leaves the other channel's registers, ports and segment bytes alone. -/
def Obligations.ChannelsAreIsolated : Prop :=
  ∀ (s t : State) (i : Instr) (ch : Chan),
    s.cfg.legal = true → i.wellFormed s.cfg.slotWords = true → exec i s = .next t → ch ≠ i.chan →
    t.ch ch = s.ch ch ∧ (∀ q : Port, q.chan = ch → t.ports.val q = s.ports.val q) ∧
    ∀ a, s.cfg.inSegment ch a = true → t.mem.readByte a = s.mem.readByte a

/-- 60_exceptions.md R219: of its channel, the producer changes only PUT, slots, WAKE (set) and PFAULT; the consumer only GET, CDRAIN,
CLGET, CLIMIT, CFAULT, WAKE (clear) and the tracker; INIT only GET, CHSTATE, PFAULT and CFAULT (and each, the hidden histories and
frontiers of R36). -/
def Obligations.AgentsChangeOnlyTheirState : Prop :=
  ∀ (s t : State) (i : Instr),
    s.cfg.legal = true → i.wellFormed s.cfg.slotWords = true → exec i s = .next t →
    let ch := i.chan
    (∀ ch', ch' ≠ ch → t.ch ch' = s.ch ch') ∧
    (i.op ≠ .init → s.port = ⟨.producer, ch⟩ →
      t.ch ch = { s.ch ch with
        older := (t.ch ch).older, front := (t.ch ch).front, wake := (t.ch ch).wake, pFault := (t.ch ch).pFault } ∧
      ((t.ch ch).wake = (s.ch ch).wake ∨ (t.ch ch).wake = true) ∧ t.hist ch .get = s.hist ch .get ∧
      ∀ a, ¬ Within a (s.cfg.cellAddr ch .put) 4 →
        ¬ Within a (s.cfg.slotAddr ch 0) (s.cfg.cap.val ch * s.cfg.slotBytes) →
        t.mem.readByte a = s.mem.readByte a) ∧
    (i.op ≠ .init → s.port = ⟨.consumer, ch⟩ →
      t.ch ch = { s.ch ch with
        older := (t.ch ch).older, front := (t.ch ch).front, cDrain := (t.ch ch).cDrain, clGet := (t.ch ch).clGet
        clLimit := (t.ch ch).clLimit, cFault := (t.ch ch).cFault, wake := (t.ch ch).wake, ts := (t.ch ch).ts } ∧
      ((t.ch ch).wake = (s.ch ch).wake ∨ (t.ch ch).wake = false) ∧ t.hist ch .put = s.hist ch .put ∧
      ∀ a, ¬ Within a (s.cfg.cellAddr ch .get) 4 → t.mem.readByte a = s.mem.readByte a) ∧
    (i.op = .init →
      t.ch ch = { s.ch ch with
        older := (t.ch ch).older, front := (t.ch ch).front, chState := (t.ch ch).chState, pFault := (t.ch ch).pFault
        cFault := (t.ch ch).cFault } ∧
      ∀ a, ¬ Within a (s.cfg.cellAddr ch .get) 4 → t.mem.readByte a = s.mem.readByte a)

/-- 10_state.md R22: while ENV may not write the segments, a step leaves PUT alone or adds 1 modulo 2^32 to it, and it adds 1 exactly
when it ran a PUSH of that channel that returned OK; so PUT is never reset. -/
def Obligations.PutOnlyCountsUp : Prop :=
  ∀ (s t : State) (ch : Chan),
    s.cfg.envMayCorrupt = false → step s = .next t →
    let pushed := ∃ q slot, s.nextCommand = some (q, .push ch slot) ∧ t.response = some ⟨q, .ok, []⟩
    (pushed → t.cell ch .put = s.cell ch .put + 1) ∧ (¬ pushed → t.cell ch .put = s.cell ch .put)

/-- 60_exceptions.md R211: a command returns CORRUPT exactly when no fault comes before it and it is a PUSH that reads an occupancy
above CAP or finds PFAULT set, or a DRAIN_BEGIN likewise with CFAULT; then the response carries no data and nothing is recorded beyond
that sticky bit (and the hidden frontiers of the reads). -/
def Obligations.CorruptOnlyFromTheOccupancyCheck : Prop :=
  ∀ (s t : State) (i : Instr), exec i s = .next t →
    ((∃ r, t.response = some r ∧ r.status = .corrupt) ↔
      faultOf i s = none ∧
      ((∃ ch slot, i = .push ch slot ∧
        ((s.ch ch).pFault = true ∨
          s.cfg.cap.val ch < (s.cell ch .put - s.view (.prod ch) ch .get).toNat)) ∨
      (∃ ch, i = .drainBegin ch ∧
        ((s.ch ch).cFault = true ∨
          s.cfg.cap.val ch < (s.view (.cons ch) ch .put - s.cell ch .get).toNat)))) ∧
    (∀ r, t.response = some r → r.status = .corrupt →
      r.data = [] ∧ t.mem = s.mem ∧ t.faults = s.faults ∧ (∀ ch, ch ≠ i.chan → t.ch ch = s.ch ch) ∧
      (i.op = .push →
        t.ch i.chan = { s.ch i.chan with pFault := true, front := (t.ch i.chan).front }) ∧
      (i.op = .drainBegin →
        t.ch i.chan = { s.ch i.chan with cFault := true, front := (t.ch i.chan).front }))

/-- 10_state.md R25 to R27: UNINIT, PFAULT and CFAULT end only by INIT: a step that ran no INIT of the channel leaves READY and a set
sticky bit as they are and never makes the channel READY, and a step that ran one that returned OK leaves the channel READY with both
bits clear. -/
def Obligations.OnlyInitEndsUninitAndCorrupt : Prop :=
  ∀ (s t : State) (ch : Chan), step s = .next t →
    ((∀ q, s.nextCommand ≠ some (q, .init ch)) →
      (t.ch ch).chState = (s.ch ch).chState ∧
      ((s.ch ch).pFault = true → (t.ch ch).pFault = true) ∧ ((s.ch ch).cFault = true → (t.ch ch).cFault = true)) ∧
    (∀ q, s.nextCommand = some (q, .init ch) → t.response = some ⟨q, .ok, []⟩ →
      (t.ch ch).chState = .ready ∧ (t.ch ch).pFault = false ∧ (t.ch ch).cFault = false)

/-- 10_state.md R21: no step changes the parameters. -/
def Obligations.ConfigurationNeverChanges : Prop :=
  ∀ s t : State, step s = .next t → t.cfg = s.cfg

/-! ### Memory and ordering (20_memory.md) -/

/-- 20_memory.md R54: `MemRead` is the little-endian sum of the bytes, and `MemWrite` stores `v[8k+7:8k]` into byte k and leaves every
other byte alone; PUT and GET are the little-endian values of the four bytes at BASE+0 and BASE+4 (R51). -/
def Obligations.MemoryIsLittleEndian : Prop :=
  ∀ (m : Memory) (addr n v : Nat),
    m.memRead addr n = ((List.range n).map fun k => (m.readByte (addr + k)).toNat * 2 ^ (8 * k)).sum ∧
    (∀ k, k < n → ((m.memWrite addr n v).readByte (addr + k)).toNat = v / 2 ^ (8 * k) % 256) ∧
    (∀ a, ¬ Within a addr n → (m.memWrite addr n v).readByte a = m.readByte a) ∧
    (∀ (s : State) (ch : Chan),
      (s.cell ch .put).toNat =
        ((List.range 4).map fun k => (s.mem.readByte (s.cfg.base.val ch + k)).toNat * 2 ^ (8 * k)).sum ∧
      (s.cell ch .get).toNat =
        ((List.range 4).map fun k => (s.mem.readByte (s.cfg.base.val ch + 4 + k)).toNat * 2 ^ (8 * k)).sum)

/-- 20_memory.md R61: IndexRead: the owner sees its own latest write; a non-owner sees any value not older than its frontier, and each
such value is the one seen under some draw; the frontier moves to the entry read and nothing else changes. -/
def Obligations.IndexReadIsCoherent : Prop :=
  ∀ (s : State) (a : Agent) (ch : Chan) (c : IndexCell),
    s.front a ch c ≤ s.histLast ch c →
    let k := s.viewIndex a ch c
    (a = ownerOf ch c → k = s.histLast ch c ∧ s.view a ch c = s.cell ch c) ∧
    (a ≠ ownerOf ch c → s.front a ch c ≤ k ∧ k ≤ s.histLast ch c ∧
      ∀ j, s.front a ch c ≤ j → j ≤ s.histLast ch c → ∃ d, ({ s with draw := d } : State).viewIndex a ch c = j) ∧
    (s.hist ch c)[k]? = some (s.view a ch c) ∧
    (s.readIndex a ch c).front a ch c = k ∧
    (∀ a' ch' c', ¬ (a' = a ∧ ch' = ch ∧ c' = c) → (s.readIndex a ch c).front a' ch' c' = s.front a' ch' c') ∧
    (∀ ch', (s.readIndex a ch c).ch ch' = { s.ch ch' with front := ((s.readIndex a ch c).ch ch').front }) ∧
    s.readIndex a ch c = { s with chan := (s.readIndex a ch c).chan }

/-- 20_memory.md R62: IndexWrite appends the value to the cell's history, so that it is the cell's value, and puts the writer's
frontier on it; no other history and no other byte changes. -/
def Obligations.IndexWriteAppends : Prop :=
  ∀ (s : State) (a : Agent) (ch : Chan) (c : IndexCell) (v : Word), s.cfg.legal = true →
    let t := s.writeIndex a ch c v
    t.hist ch c = s.hist ch c ++ [v] ∧ t.cell ch c = v ∧
    t.front a ch c = (t.hist ch c).length - 1 ∧
    (∀ a' ch' c', ¬ (a' = a ∧ ch' = ch ∧ c' = c) → t.front a' ch' c' = s.front a' ch' c') ∧
    (∀ ch' c', ¬ (ch' = ch ∧ c' = c) → t.hist ch' c' = s.hist ch' c') ∧
    (∀ x, ¬ Within x (s.cfg.cellAddr ch c) 4 → t.mem.readByte x = s.mem.readByte x)

/-- 20_memory.md R66: under the draw that picks the latest entry, every IndexRead returns the cell's current value: the simulator
oracle's runs are runs of the model. Which number picks the latest entry, the distance from the frontier to it, is the model's own
coding of the draw and no rule's (log 7, DESIGN CHOICE). -/
def Obligations.LatestDrawReadsCurrentValue : Prop :=
  ∀ (s : State) (a : Agent) (ch : Chan) (c : IndexCell),
    s.draw = s.histLast ch c - s.front a ch c → s.view a ch c = s.cell ch c

/-- 20_memory.md R64: slot memory has one current copy: a slot reads back what was last stored in it, and a store to a slot changes no
other slot of either channel and no index cell. -/
def Obligations.SlotMemoryHasOneCopy : Prop :=
  ∀ (s : State) (ch : Chan) (i : Nat) (bytes : List Byte),
    s.cfg.legal = true → i < s.cfg.cap.val ch → bytes.length = s.cfg.slotBytes →
    let t := s.slotWrite ch i bytes
    t.slotRead ch i = bytes ∧
    (∀ ch' j, j < s.cfg.cap.val ch' → ¬ (ch' = ch ∧ j = i) → t.slotRead ch' j = s.slotRead ch' j) ∧
    (∀ ch' c, t.cell ch' c = s.cell ch' c)

/-- The frontiers point into their histories: every step keeps it (10_state.md R36, 20_memory.md R60 to R62). -/
def Obligations.FrontiersStayInHistory : Prop :=
  ∀ s t : State, FrontsInHistory s → step s = .next t → FrontsInHistory t

/-- The frontiers point into their histories at power-on (70_reset_and_hazards.md R250), whatever the draws. -/
def Obligations.FrontiersInHistoryAtPowerOn : Prop :=
  ∀ cfg mem draws words sched d, FrontsInHistory (State.powerOn cfg mem draws words sched d)

/-- 20_memory.md R60: a frontier never moves backwards: no command but INIT makes a frontier smaller. -/
def Obligations.FrontiersNeverMoveBackwards : Prop :=
  ∀ (s t : State) (i : Instr) (a : Agent) (ch : Chan) (c : IndexCell),
    FrontsInHistory s → exec i s = .next t → i.op ≠ .init → s.front a ch c ≤ t.front a ch c

/-- The memory keeps its canonical form: every step keeps it (the model's own representation, log 3). -/
def Obligations.MemoryStaysCanonical : Prop :=
  ∀ s t : State, s.mem.wf = true → step s = .next t → t.mem.wf = true

/-- The memory has its canonical form at reset, and two canonical memories with the same bytes are equal (log 3). -/
def Obligations.CanonicalMemoryIsUnique : Prop :=
  State.reset.mem.wf = true ∧
  ∀ m m' : Memory, m.wf = true → m'.wf = true → (∀ a, m.readByte a = m'.readByte a) → m = m'

/-- Only consumer ports ever hold an outstanding command: every step keeps it (30_encoding.md R90, R92). -/
def Obligations.OnlyConsumersWaitIsKept : Prop :=
  ∀ s t : State, OnlyConsumersWait s → step s = .next t → OnlyConsumersWait t

/-! ### Reset (70_reset_and_hazards.md R250) -/

/-- 70_reset_and_hazards.md R250: the power-on values, for every configuration and every draw: the segments hold the drawn bytes, each
history one entry and every frontier on it, CHSTATE UNINIT, every flag 0, the tracker reset, FAULTS empty, every port idle; and the
reset state is one of these states. -/
def Obligations.PowerOnValues : Prop :=
  (∀ cfg mem draws words sched d,
    let s := State.powerOn cfg mem draws words sched d
    s.cfg = cfg ∧ s.mem = mem ∧ s.faults = [] ∧ (∀ q, (s.ports.val q).waiting = false) ∧
    ∀ ch, (∀ c, s.hist ch c = [s.cell ch c]) ∧ (∀ a c, s.front a ch c = 0) ∧
      (s.ch ch).chState = .uninit ∧ (s.ch ch).pFault = false ∧ (s.ch ch).cFault = false ∧
      (s.ch ch).cDrain = false ∧ (s.ch ch).wake = false ∧ (s.ch ch).ts.init = false ∧ (s.ch ch).ts.high = 0) ∧
  ∃ mem draws words sched d, State.reset = State.powerOn .reference mem draws words sched d

/-! ### The protocol (20_memory.md R67, R68) -/

/-- The protocol invariant is kept by every step, as long as ENV may not write the segments (10_state.md R41, 20_memory.md R68). -/
def Obligations.DisciplineIsKept : Prop :=
  ∀ s t : State, Disciplined s → step s = .next t → Disciplined t

/-- The protocol invariant holds at power-on, whatever the segments hold. -/
def Obligations.PowerOnIsDisciplined : Prop :=
  ∀ cfg mem draws words sched d, cfg.envMayCorrupt = false → Disciplined (State.powerOn cfg mem draws words sched d)

/-- 20_memory.md R68: from a disciplined state no step reports ProtocolCorruption: "ProtocolCorruption is never reported without an
ENV move". -/
def Obligations.NoCorruptionWithoutForeignWrites : Prop :=
  ∀ s t : State, Disciplined s → step s = .next t → ∀ r, t.response = some r → r.status ≠ .corrupt

/-- 20_memory.md R68: on a READY channel of a disciplined state, whatever the draw: the true occupancy is at most CAP, the producer's
view is at least it, the consumer's at most it, and neither view exceeds CAP. -/
def Obligations.ViewsBoundOccupancy : Prop :=
  ∀ (s : State) (ch : Chan), s.cfg.legal = true → Disciplined s → (s.ch ch).chState = .ready →
    (s.occupied ch).toNat ≤ (s.cell ch .put - s.view (.prod ch) ch .get).toNat ∧
    (s.cell ch .put - s.view (.prod ch) ch .get).toNat ≤ s.cfg.cap.val ch ∧
    (s.view (.cons ch) ch .put - s.cell ch .get).toNat ≤ (s.occupied ch).toNat

/-- 20_memory.md R67: the slots in flight hold what was pushed: with the log of the slot images pushed since the last INIT, the
invariant `Carries` (the unread slots hold the logged images) is kept by every step. -/
def Obligations.SlotsKeepWhatWasPushed : Prop :=
  ∀ (s t : State) (ch : Chan) (log : List (List Byte)),
    Disciplined s → Carries s ch log → step s = .next t → Carries t ch (nextLog s t ch log)

/-- 20_memory.md R67: a POP that returns the slot of index j returns exactly the bytes of the PUSH that published `PUT = j +₃₂ 1`:
the image at that position of the log. -/
def Obligations.PopDeliversWhatWasPushed : Prop :=
  ∀ (s t : State) (ch : Chan) (log : List (List Byte)) (p0 : Word) (ds : List Nat) (r : Response),
    s.cfg.legal = true → ContentsInv s ch log p0 ds → exec (.pop ch) s = .next t → t.response = some r → r.status = .ok →
    ∃ j, j < log.length ∧ (s.ch ch).clGet = p0 + BitVec.ofNat 32 j ∧
      (s.hist ch .put)[j + 1]? = some ((s.ch ch).clGet + 1) ∧ slotBytesOf r.data = log.getD j []

/-! ### Slots and liveness -/

/-- 20_memory.md R74, R75, R76: a reference slot has 76 bytes, its type is one of 0 to 3 and bits 7:6 of flags and 7:4 of dlc are zero;
its id field holds the arbitration id in bits 28:0 with flag bit 0 set, or in bits 10:0 with it clear; reading the fields at R74's
offsets gives back what was packed, and the payload read is the first `len(DLC)` (R76) bytes of the data. That the id field is zero
above those 29 or 11 bits is the model's choice and no rule's, R74 being silent on them (log 20, DESIGN CHOICE). -/
def Obligations.ReferenceSlotReadsBack : Prop :=
  ∀ f : SlotFields, f.data.length = 64 →
    f.pack.length = 76 ∧
    (f.pack.getD 0 0).toNat < 4 ∧ (f.pack.getD 1 0).toNat < 64 ∧ (f.pack.getD 2 0).toNat = f.dlc.toNat ∧
    (match f.id with
      | .extended id => (f.pack.getD 1 0).getLsbD 0 = true ∧ leNat ((f.pack.drop 8).take 4) = id.toNat
      | .base id => (f.pack.getD 1 0).getLsbD 0 = false ∧ leNat ((f.pack.drop 8).take 4) = id.toNat) ∧
    readSlotFields f.pack =
      ⟨f.kind.type.code, f.flags, f.dlc, f.kind.codeByte, f.timestampRaw, f.id, f.data⟩ ∧
    (readSlotFields f.pack).payload = f.data.take (dlcLength f.dlc) ∧
    timestampRaw .reference f.pack = f.timestampRaw

/-- 70_reset_and_hazards.md R261 (a): in a weakly fair run an outstanding WAKE_WAIT eventually completes. -/
def Obligations.FairWaitCompletes : Prop :=
  ∀ (r : Run) (q : Port) (n : Nat), r.weaklyFair → ((r.state n).ports.val q).waiting = true →
    ∃ m, n ≤ m ∧ ((r.state m).ports.val q).waiting = false

/-- 70_reset_and_hazards.md R261 (a): weak fairness is of every agent: in a weakly fair run ENV takes a step after every moment,
since its WAKE_LOSS is always enabled (43_channel_control.md R192), and so does a port whose agent has a step enabled from then on. -/
def Obligations.FairRunServesEveryAgent : Prop :=
  ∀ (r : Run) (n : Nat), r.weaklyFair →
    (∃ m, n ≤ m ∧ (r.move m).agent = .env ∧ (r.state m).enabled (r.move m) = true) ∧
    ∀ q : Port,
      (∀ m, n ≤ m → ((r.state m).ports.val q).waiting = true ∨
        wordsReady (r.state m).cfg q ((r.state m).ports.val q).stream = true) →
      ∃ m d, n ≤ m ∧ r.move m = .port q d

/-- 70_reset_and_hazards.md R261 (b): in a run with eventual visibility, a peer that goes on reading an index cell of a channel that is
not re-initialised has, from some moment on, observed every write made to it: its frontier reaches the write. PUSH and DRAIN_BEGIN
commands that end before their reads (UNINIT, PFAULT, CFAULT, an open drain) do not count as reads. -/
def Obligations.VisibleWritesAreObserved : Prop :=
  ∀ (r : Run) (ch : Chan) (c : IndexCell) (n : Nat), r.eventuallyVisible →
    (∀ m, r.noInitBetween ch n m) → (∀ k, ∃ m, k ≤ m ∧ r.peerReadsAt ch c m) →
    ∃ m, n ≤ m ∧ (r.state n).histLast ch c ≤ (r.state (m + 1)).front (peerOf ch c) ch c
end

