-- ==== Sys2Proof/Laws/PerInstr.lean ====
section
/-! SUPPORT. The family CommandWord: for every command, its command word is the first word of its encoding, decodes to its operation
and channel, and gives the length of its encoding. One lemma per constructor of Instr. -/

namespace Sys2Proof.Laws.CommandWord

/-- The command word of `i` decodes to its operation and channel (30_encoding.md R92), and the transaction length it announces is
the length of the encoding whenever the operands have the right length (R97, R100). -/
def Statement (i : Instr) : Prop :=
  decodeCW (commandWord i.op i.chan) = .ok (i.op, i.chan) ∧
  ∀ slotWords, i.wellFormed slotWords = true →
    (encode i).length = transactionLength slotWords (commandWord i.op i.chan)

/-- The command word of every operation and channel decodes to them (R92). -/
theorem decodeCW_commandWord (op : Op) (ch : Chan) : decodeCW (commandWord op ch) = .ok (op, ch) := by
  cases op <;> cases ch <;> rfl

/-- The transaction length that a command word announces (R100). -/
theorem transactionLength_commandWord (slotWords : Nat) (op : Op) (ch : Chan) :
    transactionLength slotWords (commandWord op ch) = 1 + op.operandCount slotWords := by
  cases op <;> cases ch <;> rfl

/-- Enough for a command: its operands have the length its operation announces. -/
theorem of_operands (i : Instr)
    (h : ∀ n, i.wellFormed n = true → i.operands.length = i.op.operandCount n) : Statement i := by
  refine ⟨decodeCW_commandWord _ _, fun n hw => ?_⟩
  rw [transactionLength_commandWord, encode, List.length_cons, h n hw, Nat.add_comm]

theorem push (ch : Chan) (slot : List Word) : Statement (.push ch slot) :=
  of_operands _ fun n h => show slot.length = n by simpa [Instr.wellFormed] using h

theorem drainBegin (ch : Chan) : Statement (.drainBegin ch) := of_operands _ fun _ _ => rfl

theorem pop (ch : Chan) : Statement (.pop ch) := of_operands _ fun _ _ => rfl

theorem drainEnd (ch : Chan) : Statement (.drainEnd ch) := of_operands _ fun _ _ => rfl

theorem init (ch : Chan) : Statement (.init ch) := of_operands _ fun _ _ => rfl

theorem wakeWait (ch : Chan) : Statement (.wakeWait ch) := of_operands _ fun _ _ => rfl

theorem track (ch : Chan) (raw : Word) : Statement (.track ch raw) := of_operands _ fun _ _ => rfl

theorem tsReset (ch : Chan) : Statement (.tsReset ch) := of_operands _ fun _ _ => rfl

end Sys2Proof.Laws.CommandWord
end

