-- ==== Sys2Proof/Laws/Decode.lean ====
section
/-! SUPPORT. The fields of a command word as numbers, and what the decoder accepts. -/

namespace Sys2Proof

theorem fieldOp_toNat (cw : Word) : (fieldOp cw).toNat = cw.toNat % 16 := by
  simp [fieldOp, BitVec.extractLsb']

theorem fieldRsv_toNat (cw : Word) : (fieldRsv cw).toNat = cw.toNat / 32 := by
  have := cw.isLt
  simp [fieldRsv, BitVec.extractLsb', BitVec.toNat_ofNat, Nat.shiftRight_eq_div_pow]
  omega

theorem fieldCh_eq (cw : Word) : fieldCh cw = decide (cw.toNat / 16 % 2 = 1) := by
  simp only [fieldCh, BitVec.getLsbD, Nat.testBit, Nat.shiftRight_eq_div_pow]
  have : cw.toNat / 2 ^ 4 % 2 = 0 ∨ cw.toNat / 2 ^ 4 % 2 = 1 := by omega
  norm_num at this ⊢
  rcases this with h | h <;> simp [h]

/-- R92's table has one row for each operation. -/
theorem opOfCode_some (n : Nat) (op : Op) : Op.ofCode n = some op ↔ op.code = n := by
  constructor
  · intro h
    unfold Op.ofCode at h
    split at h <;> simp_all <;> subst h <;> rfl
  · rintro rfl
    cases op <;> rfl

/-- A command word as a number (30_encoding.md R92). -/
theorem commandWord_toNat (op : Op) (ch : Chan) : (commandWord op ch).toNat = op.code + 16 * ch.bit := by
  cases op <;> cases ch <;> rfl

/-- The decoder accepts exactly the command words of R92. -/
theorem decodeCW_ok (cw : Word) (op : Op) (ch : Chan) : decodeCW cw = .ok (op, ch) ↔ cw = commandWord op ch := by
  constructor
  · intro h
    unfold decodeCW at h
    split at h
    · cases h
    · next hr =>
      have hr : (fieldRsv cw).toNat = 0 := by simpa using congrArg BitVec.toNat (not_not.1 hr)
      split at h
      · cases h
      · next o ho =>
        rw [opOfCode_some, fieldOp_toNat] at ho
        rw [fieldRsv_toNat] at hr
        rw [fieldCh_eq] at h
        simp only [Except.ok.injEq, Prod.mk.injEq] at h
        obtain ⟨rfl, h⟩ := h
        apply BitVec.eq_of_toNat_eq
        rw [commandWord_toNat]
        have h2 : ch.bit = cw.toNat / 16 % 2 := by
          have : cw.toNat / 16 % 2 = 0 ∨ cw.toNat / 16 % 2 = 1 := by omega
          rcases this with e | e <;> simp [e] at h <;> subst h <;> simp [Chan.bit, e]
        omega
  · rintro rfl
    exact Laws.CommandWord.decodeCW_commandWord op ch

end Sys2Proof
end

