-- ==== Sys2Proof/Laws/Memory.lean ====
section
/-! SUPPORT. The laws of the shared memory: a read after a write, a write leaves every other byte alone, and every operation keeps
the canonical form. -/

namespace Sys2Proof.Machine

/-! ### Bytes of a number -/

@[simp] theorem leBytes_length (n v : Nat) : (leBytes n v).length = n := by
  induction n generalizing v with
  | zero => rfl
  | succ n ih => simp [leBytes, ih]

theorem leNat_leBytes (n v : Nat) : leNat (leBytes n v) = v % 256 ^ n := by
  induction n generalizing v with
  | zero => simp [leBytes, leNat, Nat.mod_one]
  | succ n ih =>
    have h : v % 256 ^ (n + 1) = v % 256 + 256 * (v / 256 % 256 ^ n) := by
      rw [Nat.pow_succ, Nat.mul_comm, Nat.mod_mul]
    rw [h, leBytes, leNat, ih, BitVec.toNat_ofNat]

theorem leNat_lt (bs : List Byte) : leNat bs < 256 ^ bs.length := by
  induction bs with
  | nil => simp [leNat]
  | cons b bs ih =>
    have hb := b.isLt
    simp only [leNat, List.length_cons, Nat.pow_succ]
    omega

theorem leBytes_leNat (bs : List Byte) : leBytes bs.length (leNat bs) = bs := by
  induction bs with
  | nil => rfl
  | cons b bs ih =>
    have hb : b.toNat < 256 := b.isLt
    have h1 : (b.toNat + 256 * leNat bs) / 256 = leNat bs := by omega
    simp only [List.length_cons, leBytes, leNat, h1, ih]
    congr 1
    apply BitVec.eq_of_toNat_eq
    simp only [BitVec.toNat_ofNat]
    omega

/-! ### One byte -/

theorem Memory.readByte_insert (m : Memory) (a x : Nat) (v : Byte) (h : ∀ cell ∈ m, cell.1 ≠ a) :
    (Memory.insert m a v).readByte x = if x = a then v else m.readByte x := by
  induction m with
  | nil => rfl
  | cons cell m ih =>
    obtain ⟨b, w⟩ := cell
    have hb : b ≠ a := h (b, w) (by simp)
    have ih := ih fun cell hc => h cell (by simp [hc])
    by_cases hab : a < b
    · simp [Memory.insert, hab, Memory.readByte]
    · by_cases hx : x = b
      · have : x ≠ a := fun e => hb (hx.symm.trans e)
        simp [Memory.insert, hab, Memory.readByte, hx, hb]
      · simp [Memory.insert, hab, Memory.readByte, hx, ih]

theorem Memory.readByte_remove (m : Memory) (a x : Nat) :
    (m.remove a).readByte x = if x = a then Memory.unlisted else m.readByte x := by
  induction m with
  | nil => simp [Memory.remove, Memory.readByte]
  | cons cell m ih =>
    obtain ⟨b, w⟩ := cell
    by_cases hb : b = a
    · have hk : Memory.remove ((b, w) :: m) a = Memory.remove m a := by simp [Memory.remove, hb]
      rw [hk, ih, Memory.readByte]
      by_cases hx : x = a
      · rw [if_pos hx, if_pos hx]
      · rw [if_neg hx, if_neg hx, if_neg (fun e => hx (e.trans hb))]
    · have hk : Memory.remove ((b, w) :: m) a = (b, w) :: Memory.remove m a := by simp [Memory.remove, hb]
      rw [hk, Memory.readByte, Memory.readByte]
      by_cases hx : x = b
      · rw [if_pos hx, if_pos hx, if_neg (fun e => hb (hx.symm.trans e))]
      · rw [if_neg hx, if_neg hx, ih]

theorem Memory.remove_ne (m : Memory) (a : Nat) (cell : Host.Cell) (h : cell ∈ m.remove a) : cell.1 ≠ a := by
  simpa using (List.mem_filter.1 h).2

/-- A read after a write: the byte written at its address, every other byte as before. -/
theorem Memory.readByte_writeByte (m : Memory) (a x : Nat) (v : Byte) :
    (m.writeByte a v).readByte x = if x = a then v else m.readByte x := by
  unfold Memory.writeByte
  by_cases hv : v = Memory.unlisted
  · rw [if_pos hv, Memory.readByte_remove, hv]
  · rw [if_neg hv, Memory.readByte_insert _ _ _ _ (Memory.remove_ne m a), Memory.readByte_remove]
    split <;> rfl

/-! ### The canonical form -/

/-- The canonical form said by pairs and entries. -/
theorem Memory.wf_iff (m : Memory) :
    m.wf = true ↔ m.Pairwise (fun c d => c.1 < d.1) ∧ ∀ cell ∈ m, cell.2 ≠ Memory.unlisted := by
  induction m with
  | nil => simp [Memory.wf]
  | cons c m ih =>
    obtain ⟨a, v⟩ := c
    cases m with
    | nil => simp [Memory.wf]
    | cons d m =>
      obtain ⟨b, w⟩ := d
      simp only [Memory.wf, Bool.and_eq_true, bne_iff_ne, decide_eq_true_eq, ih, List.pairwise_cons,
        List.mem_cons, forall_eq_or_imp]
      constructor
      · rintro ⟨⟨hv, hab⟩, ⟨hb, hp⟩, hw, hm⟩
        exact ⟨⟨⟨hab, fun c hc => Nat.lt_trans hab (hb c hc)⟩, hb, hp⟩, hv, hw, hm⟩
      · rintro ⟨⟨⟨hab, -⟩, hb, hp⟩, hv, hw, hm⟩
        exact ⟨⟨hv, hab⟩, ⟨hb, hp⟩, hw, hm⟩

theorem Memory.mem_insert (m : Memory) (a : Nat) (v : Byte) (cell : Host.Cell) :
    cell ∈ Memory.insert m a v ↔ cell = (a, v) ∨ cell ∈ m := by
  induction m with
  | nil => simp [Memory.insert]
  | cons c m ih =>
    obtain ⟨b, w⟩ := c
    by_cases hab : a < b
    · simp [Memory.insert, hab]
    · simp only [Memory.insert, hab, if_false, List.mem_cons, ih]
      tauto

theorem Memory.pairwise_insert (m : Memory) (a : Nat) (v : Byte) (hp : m.Pairwise fun c d => c.1 < d.1)
    (h : ∀ cell ∈ m, cell.1 ≠ a) : (Memory.insert m a v).Pairwise fun c d => c.1 < d.1 := by
  induction m with
  | nil => simp [Memory.insert]
  | cons c m ih =>
    obtain ⟨b, w⟩ := c
    rw [List.pairwise_cons] at hp
    have hb : b ≠ a := h (b, w) (by simp)
    by_cases hab : a < b
    · rw [Memory.insert, if_pos hab, List.pairwise_cons, List.pairwise_cons]
      refine ⟨?_, hp⟩
      rintro c hc
      rcases List.mem_cons.1 hc with rfl | hc
      · exact hab
      · exact Nat.lt_trans hab (hp.1 c hc)
    · simp only [Memory.insert, hab, if_false, List.pairwise_cons, Memory.mem_insert]
      refine ⟨?_, ih hp.2 fun cell hc => h cell (by simp [hc])⟩
      rintro c (rfl | hc)
      · show b < a
        omega
      · exact hp.1 c hc

theorem Memory.wf_writeByte (m : Memory) (a : Nat) (v : Byte) (h : m.wf = true) : (m.writeByte a v).wf = true := by
  rw [Memory.wf_iff] at h ⊢
  have hp : (m.remove a).Pairwise fun c d => c.1 < d.1 := h.1.filter _
  have hm : ∀ cell ∈ m.remove a, cell.2 ≠ Memory.unlisted := fun cell hc => h.2 cell (List.mem_filter.1 hc).1
  unfold Memory.writeByte
  by_cases hv : v = Memory.unlisted
  · rw [if_pos hv]
    exact ⟨hp, hm⟩
  · rw [if_neg hv]
    refine ⟨Memory.pairwise_insert _ _ _ hp (Memory.remove_ne m a), ?_⟩
    intro cell hc
    rcases (Memory.mem_insert _ _ _ _).1 hc with rfl | hc
    · exact hv
    · exact hm cell hc

theorem Memory.wf_writeBytes (m : Memory) (a : Nat) (bs : List Byte) (h : m.wf = true) :
    (m.writeBytes a bs).wf = true := by
  induction bs generalizing m a with
  | nil => exact h
  | cons b bs ih => exact ih _ _ (Memory.wf_writeByte m a b h)

theorem Memory.wf_writeWord (m : Memory) (a : Nat) (v : Word) (h : m.wf = true) : (m.writeWord a v).wf = true :=
  Memory.wf_writeBytes m a _ h

/-- In a canonical memory a byte is listed exactly if it does not read as unlisted. -/
theorem Memory.readByte_of_mem (m : Memory) (h : m.Pairwise fun c d => c.1 < d.1) (cell : Host.Cell) (hc : cell ∈ m) :
    m.readByte cell.1 = cell.2 := by
  induction m with
  | nil => simp at hc
  | cons c m ih =>
    rw [List.pairwise_cons] at h
    obtain ⟨b, w⟩ := c
    rcases List.mem_cons.1 hc with rfl | hc'
    · simp [Memory.readByte]
    · have hne : cell.1 ≠ b := fun e => by have := h.1 cell hc'; simp only at this; omega
      rw [Memory.readByte, if_neg hne]
      exact ih h.2 hc'

/-! ### Runs of bytes -/

@[simp] theorem Memory.readBytes_length (m : Memory) (a n : Nat) : (m.readBytes a n).length = n := by
  induction n generalizing a with
  | zero => rfl
  | succ n ih => simp [Memory.readBytes, ih]

/-- A write of a run of bytes: its own bytes, and every other byte as before. -/
theorem Memory.readByte_writeBytes (m : Memory) (a x : Nat) (bs : List Byte) :
    (m.writeBytes a bs).readByte x =
      if a ≤ x ∧ x < a + bs.length then bs.getD (x - a) 0 else m.readByte x := by
  induction bs generalizing m a with
  | nil =>
    have h : ¬ (a ≤ x ∧ x < a + ([] : List Byte).length) := by simp only [List.length_nil]; omega
    rw [if_neg h, Memory.writeBytes]
  | cons b bs ih =>
    rw [Memory.writeBytes, ih, Memory.readByte_writeByte]
    by_cases h1 : a + 1 ≤ x ∧ x < a + 1 + bs.length
    · have h2 : a ≤ x ∧ x < a + (b :: bs).length := by simp only [List.length_cons]; omega
      have h3 : x - a = (x - (a + 1)) + 1 := by omega
      rw [if_pos h1, if_pos h2, h3, List.getD_cons_succ]
    · rw [if_neg h1]
      by_cases hx : x = a
      · have h2 : a ≤ x ∧ x < a + (b :: bs).length := by simp only [List.length_cons]; omega
        rw [if_pos hx, if_pos h2, hx, Nat.sub_self, List.getD_cons_zero]
      · have h2 : ¬ (a ≤ x ∧ x < a + (b :: bs).length) := by simp only [List.length_cons]; omega
        rw [if_neg hx, if_neg h2]

theorem Memory.readByte_writeBytes_outside (m : Memory) (a x : Nat) (bs : List Byte)
    (h : x < a ∨ a + bs.length ≤ x) : (m.writeBytes a bs).readByte x = m.readByte x := by
  rw [Memory.readByte_writeBytes, if_neg (by omega)]

theorem Memory.getD_readBytes (m : Memory) (a n k : Nat) (h : k < n) : (m.readBytes a n).getD k 0 = m.readByte (a + k) := by
  induction n generalizing a k with
  | zero => omega
  | succ n ih =>
    cases k with
    | zero => simp [Memory.readBytes]
    | succ k =>
      rw [Memory.readBytes, List.getD_cons_succ, ih _ _ (by omega)]
      congr 1
      omega

/-- Two memories that agree on a run of bytes read the same run. -/
theorem Memory.readBytes_congr (m m' : Memory) (a n : Nat)
    (h : ∀ x, a ≤ x → x < a + n → m.readByte x = m'.readByte x) : m.readBytes a n = m'.readBytes a n := by
  induction n generalizing a with
  | zero => rfl
  | succ n ih =>
    rw [Memory.readBytes, Memory.readBytes, h a (by omega) (by omega),
      ih (a + 1) fun x h1 h2 => h x (by omega) (by omega)]

theorem Memory.readBytes_writeBytes_same (m : Memory) (a : Nat) (bs : List Byte) :
    (m.writeBytes a bs).readBytes a bs.length = bs := by
  induction bs generalizing m a with
  | nil => rfl
  | cons b bs ih =>
    rw [List.length_cons, Memory.readBytes, Memory.writeBytes, ih,
      Memory.readByte_writeBytes_outside _ _ _ _ (by omega), Memory.readByte_writeByte, if_pos rfl]

theorem Memory.readBytes_writeBytes_disjoint (m : Memory) (a x n : Nat) (bs : List Byte)
    (h : x + n ≤ a ∨ a + bs.length ≤ x) : (m.writeBytes a bs).readBytes x n = m.readBytes x n :=
  Memory.readBytes_congr _ _ _ _ fun y h1 h2 => Memory.readByte_writeBytes_outside _ _ _ _ (by omega)

/-! ### Words -/

theorem Memory.readByte_writeWord_outside (m : Memory) (a x : Nat) (v : Word) (h : x < a ∨ a + 4 ≤ x) :
    (m.writeWord a v).readByte x = m.readByte x :=
  Memory.readByte_writeBytes_outside _ _ _ _ (by simpa using h)

theorem Memory.readBytes_writeWord_disjoint (m : Memory) (a x n : Nat) (v : Word) (h : x + n ≤ a ∨ a + 4 ≤ x) :
    (m.writeWord a v).readBytes x n = m.readBytes x n :=
  Memory.readBytes_writeBytes_disjoint _ _ _ _ _ (by simpa using h)

theorem Memory.readWord_writeWord_same (m : Memory) (a : Nat) (v : Word) : (m.writeWord a v).readWord a = v := by
  have h := Memory.readBytes_writeBytes_same m a (leBytes 4 v.toNat)
  rw [leBytes_length] at h
  unfold Memory.readWord Memory.writeWord Memory.memRead Memory.memWrite
  rw [h, leNat_leBytes]
  apply BitVec.eq_of_toNat_eq
  have := v.isLt
  simp only [BitVec.toNat_ofNat]
  omega

theorem Memory.readWord_writeBytes_disjoint (m : Memory) (a x : Nat) (bs : List Byte)
    (h : x + 4 ≤ a ∨ a + bs.length ≤ x) : (m.writeBytes a bs).readWord x = m.readWord x := by
  unfold Memory.readWord Memory.memRead
  rw [Memory.readBytes_writeBytes_disjoint _ _ _ _ _ h]

theorem Memory.readWord_writeWord_disjoint (m : Memory) (a x : Nat) (v : Word)
    (h : x + 4 ≤ a ∨ a + 4 ≤ x) : (m.writeWord a v).readWord x = m.readWord x :=
  Memory.readWord_writeBytes_disjoint _ _ _ _ (by simpa using h)

/-- Two memories that agree on a word's four bytes read the same word. -/
theorem Memory.readWord_congr (m m' : Memory) (a : Nat)
    (h : ∀ x, a ≤ x → x < a + 4 → m.readByte x = m'.readByte x) : m.readWord a = m'.readWord a := by
  unfold Memory.readWord Memory.memRead
  rw [Memory.readBytes_congr _ _ _ _ h]

end Sys2Proof.Machine
end

