-- ==== Sys2Proof/Laws/State.lean ====
section
/-! SUPPORT. One lemma per field and update of State: what an update leaves alone, and the value it gives. -/

namespace Sys2Proof

@[simp] theorem PerChan.val_set {α : Type} (p : PerChan α) (ch ch' : Chan) (v : α) :
    (p.set ch v).val ch' = if ch' = ch then v else p.val ch' := by
  cases ch <;> cases ch' <;> rfl

theorem PerChan.val_set_same {α : Type} (p : PerChan α) (ch : Chan) (v : α) : (p.set ch v).val ch = v := by
  simp

theorem PerChan.val_set_ne {α : Type} (p : PerChan α) {ch ch' : Chan} (h : ch' ≠ ch) (v : α) :
    (p.set ch v).val ch' = p.val ch' := by
  simp [h]

end Sys2Proof

namespace Sys2Proof.Machine

@[simp] theorem PerCell.val_set {α : Type} (p : PerCell α) (c c' : IndexCell) (v : α) :
    (p.set c v).val c' = if c' = c then v else p.val c' := by
  cases c <;> cases c' <;> rfl

@[simp] theorem PerAgent.val_set {α : Type} (p : PerAgent α) (a a' : Agent) (v : α) :
    (p.set a v).val a' = if a' = a then v else p.val a' := by
  cases a <;> cases a' <;> simp [PerAgent.set, PerAgent.val]

@[simp] theorem PerPort.val_set {α : Type} (p : PerPort α) (q q' : Port) (v : α) :
    (p.set q v).val q' = if q' = q then v else p.val q' := by
  obtain ⟨r, ch⟩ := q
  obtain ⟨r', ch'⟩ := q'
  cases r <;> cases r' <;> simp [PerPort.set, PerPort.val]

/-! ### Fields an update leaves alone -/

@[simp] theorem State.updCh_cfg (s : State) (ch : Chan) (f : Channel → Channel) : (s.updCh ch f).cfg = s.cfg := rfl
@[simp] theorem State.updCh_mem (s : State) (ch : Chan) (f : Channel → Channel) : (s.updCh ch f).mem = s.mem := rfl
@[simp] theorem State.updCh_ports (s : State) (ch : Chan) (f : Channel → Channel) : (s.updCh ch f).ports = s.ports := rfl
@[simp] theorem State.updCh_faults (s : State) (ch : Chan) (f : Channel → Channel) : (s.updCh ch f).faults = s.faults := rfl
@[simp] theorem State.updCh_schedule (s : State) (ch : Chan) (f : Channel → Channel) : (s.updCh ch f).schedule = s.schedule := rfl
@[simp] theorem State.updCh_port (s : State) (ch : Chan) (f : Channel → Channel) : (s.updCh ch f).port = s.port := rfl
@[simp] theorem State.updCh_draw (s : State) (ch : Chan) (f : Channel → Channel) : (s.updCh ch f).draw = s.draw := rfl
@[simp] theorem State.updCh_response (s : State) (ch : Chan) (f : Channel → Channel) : (s.updCh ch f).response = s.response := rfl
@[simp] theorem State.setMem_cfg (s : State) (m : Memory) : (s.setMem m).cfg = s.cfg := rfl
@[simp] theorem State.setMem_chan (s : State) (m : Memory) : (s.setMem m).chan = s.chan := rfl
@[simp] theorem State.setMem_ports (s : State) (m : Memory) : (s.setMem m).ports = s.ports := rfl
@[simp] theorem State.setMem_faults (s : State) (m : Memory) : (s.setMem m).faults = s.faults := rfl
@[simp] theorem State.setMem_schedule (s : State) (m : Memory) : (s.setMem m).schedule = s.schedule := rfl
@[simp] theorem State.setMem_port (s : State) (m : Memory) : (s.setMem m).port = s.port := rfl
@[simp] theorem State.setMem_draw (s : State) (m : Memory) : (s.setMem m).draw = s.draw := rfl
@[simp] theorem State.setMem_response (s : State) (m : Memory) : (s.setMem m).response = s.response := rfl
@[simp] theorem State.setPort_cfg (s : State) (q : Port) (p : PortState) : (s.setPort q p).cfg = s.cfg := rfl
@[simp] theorem State.setPort_mem (s : State) (q : Port) (p : PortState) : (s.setPort q p).mem = s.mem := rfl
@[simp] theorem State.setPort_chan (s : State) (q : Port) (p : PortState) : (s.setPort q p).chan = s.chan := rfl
@[simp] theorem State.setPort_faults (s : State) (q : Port) (p : PortState) : (s.setPort q p).faults = s.faults := rfl
@[simp] theorem State.setPort_schedule (s : State) (q : Port) (p : PortState) : (s.setPort q p).schedule = s.schedule := rfl
@[simp] theorem State.setPort_port (s : State) (q : Port) (p : PortState) : (s.setPort q p).port = s.port := rfl
@[simp] theorem State.setPort_draw (s : State) (q : Port) (p : PortState) : (s.setPort q p).draw = s.draw := rfl
@[simp] theorem State.setPort_response (s : State) (q : Port) (p : PortState) : (s.setPort q p).response = s.response := rfl
@[simp] theorem State.setWaiting_cfg (s : State) (q : Port) (b : Bool) : (s.setWaiting q b).cfg = s.cfg := rfl
@[simp] theorem State.setWaiting_mem (s : State) (q : Port) (b : Bool) : (s.setWaiting q b).mem = s.mem := rfl
@[simp] theorem State.setWaiting_chan (s : State) (q : Port) (b : Bool) : (s.setWaiting q b).chan = s.chan := rfl
@[simp] theorem State.setWaiting_faults (s : State) (q : Port) (b : Bool) : (s.setWaiting q b).faults = s.faults := rfl
@[simp] theorem State.setWaiting_schedule (s : State) (q : Port) (b : Bool) : (s.setWaiting q b).schedule = s.schedule := rfl
@[simp] theorem State.setWaiting_port (s : State) (q : Port) (b : Bool) : (s.setWaiting q b).port = s.port := rfl
@[simp] theorem State.setWaiting_draw (s : State) (q : Port) (b : Bool) : (s.setWaiting q b).draw = s.draw := rfl
@[simp] theorem State.setWaiting_response (s : State) (q : Port) (b : Bool) : (s.setWaiting q b).response = s.response := rfl
@[simp] theorem State.setFront_cfg (s : State) (a : Agent) (ch : Chan) (c : IndexCell) (k : Nat) : (s.setFront a ch c k).cfg = s.cfg := rfl
@[simp] theorem State.setFront_mem (s : State) (a : Agent) (ch : Chan) (c : IndexCell) (k : Nat) : (s.setFront a ch c k).mem = s.mem := rfl
@[simp] theorem State.setFront_ports (s : State) (a : Agent) (ch : Chan) (c : IndexCell) (k : Nat) : (s.setFront a ch c k).ports = s.ports := rfl
@[simp] theorem State.setFront_faults (s : State) (a : Agent) (ch : Chan) (c : IndexCell) (k : Nat) : (s.setFront a ch c k).faults = s.faults := rfl
@[simp] theorem State.setFront_schedule (s : State) (a : Agent) (ch : Chan) (c : IndexCell) (k : Nat) : (s.setFront a ch c k).schedule = s.schedule := rfl
@[simp] theorem State.setFront_port (s : State) (a : Agent) (ch : Chan) (c : IndexCell) (k : Nat) : (s.setFront a ch c k).port = s.port := rfl
@[simp] theorem State.setFront_draw (s : State) (a : Agent) (ch : Chan) (c : IndexCell) (k : Nat) : (s.setFront a ch c k).draw = s.draw := rfl
@[simp] theorem State.setFront_response (s : State) (a : Agent) (ch : Chan) (c : IndexCell) (k : Nat) : (s.setFront a ch c k).response = s.response := rfl
@[simp] theorem State.readIndex_cfg (s : State) (a : Agent) (ch : Chan) (c : IndexCell) : (s.readIndex a ch c).cfg = s.cfg := rfl
@[simp] theorem State.readIndex_mem (s : State) (a : Agent) (ch : Chan) (c : IndexCell) : (s.readIndex a ch c).mem = s.mem := rfl
@[simp] theorem State.readIndex_ports (s : State) (a : Agent) (ch : Chan) (c : IndexCell) : (s.readIndex a ch c).ports = s.ports := rfl
@[simp] theorem State.readIndex_faults (s : State) (a : Agent) (ch : Chan) (c : IndexCell) : (s.readIndex a ch c).faults = s.faults := rfl
@[simp] theorem State.readIndex_schedule (s : State) (a : Agent) (ch : Chan) (c : IndexCell) : (s.readIndex a ch c).schedule = s.schedule := rfl
@[simp] theorem State.readIndex_port (s : State) (a : Agent) (ch : Chan) (c : IndexCell) : (s.readIndex a ch c).port = s.port := rfl
@[simp] theorem State.readIndex_draw (s : State) (a : Agent) (ch : Chan) (c : IndexCell) : (s.readIndex a ch c).draw = s.draw := rfl
@[simp] theorem State.readIndex_response (s : State) (a : Agent) (ch : Chan) (c : IndexCell) : (s.readIndex a ch c).response = s.response := rfl
@[simp] theorem State.appendHist_cfg (s : State) (ch : Chan) (c : IndexCell) (v : Word) : (s.appendHist ch c v).cfg = s.cfg := rfl
@[simp] theorem State.appendHist_ports (s : State) (ch : Chan) (c : IndexCell) (v : Word) : (s.appendHist ch c v).ports = s.ports := rfl
@[simp] theorem State.appendHist_faults (s : State) (ch : Chan) (c : IndexCell) (v : Word) : (s.appendHist ch c v).faults = s.faults := rfl
@[simp] theorem State.appendHist_schedule (s : State) (ch : Chan) (c : IndexCell) (v : Word) : (s.appendHist ch c v).schedule = s.schedule := rfl
@[simp] theorem State.appendHist_port (s : State) (ch : Chan) (c : IndexCell) (v : Word) : (s.appendHist ch c v).port = s.port := rfl
@[simp] theorem State.appendHist_draw (s : State) (ch : Chan) (c : IndexCell) (v : Word) : (s.appendHist ch c v).draw = s.draw := rfl
@[simp] theorem State.appendHist_response (s : State) (ch : Chan) (c : IndexCell) (v : Word) : (s.appendHist ch c v).response = s.response := rfl
@[simp] theorem State.writeIndex_cfg (s : State) (a : Agent) (ch : Chan) (c : IndexCell) (v : Word) : (s.writeIndex a ch c v).cfg = s.cfg := rfl
@[simp] theorem State.writeIndex_ports (s : State) (a : Agent) (ch : Chan) (c : IndexCell) (v : Word) : (s.writeIndex a ch c v).ports = s.ports := rfl
@[simp] theorem State.writeIndex_faults (s : State) (a : Agent) (ch : Chan) (c : IndexCell) (v : Word) : (s.writeIndex a ch c v).faults = s.faults := rfl
@[simp] theorem State.writeIndex_schedule (s : State) (a : Agent) (ch : Chan) (c : IndexCell) (v : Word) : (s.writeIndex a ch c v).schedule = s.schedule := rfl
@[simp] theorem State.writeIndex_port (s : State) (a : Agent) (ch : Chan) (c : IndexCell) (v : Word) : (s.writeIndex a ch c v).port = s.port := rfl
@[simp] theorem State.writeIndex_draw (s : State) (a : Agent) (ch : Chan) (c : IndexCell) (v : Word) : (s.writeIndex a ch c v).draw = s.draw := rfl
@[simp] theorem State.writeIndex_response (s : State) (a : Agent) (ch : Chan) (c : IndexCell) (v : Word) : (s.writeIndex a ch c v).response = s.response := rfl
@[simp] theorem State.slotWrite_cfg (s : State) (ch : Chan) (i : Nat) (bs : List Byte) : (s.slotWrite ch i bs).cfg = s.cfg := rfl
@[simp] theorem State.slotWrite_chan (s : State) (ch : Chan) (i : Nat) (bs : List Byte) : (s.slotWrite ch i bs).chan = s.chan := rfl
@[simp] theorem State.slotWrite_ports (s : State) (ch : Chan) (i : Nat) (bs : List Byte) : (s.slotWrite ch i bs).ports = s.ports := rfl
@[simp] theorem State.slotWrite_faults (s : State) (ch : Chan) (i : Nat) (bs : List Byte) : (s.slotWrite ch i bs).faults = s.faults := rfl
@[simp] theorem State.slotWrite_schedule (s : State) (ch : Chan) (i : Nat) (bs : List Byte) : (s.slotWrite ch i bs).schedule = s.schedule := rfl
@[simp] theorem State.slotWrite_port (s : State) (ch : Chan) (i : Nat) (bs : List Byte) : (s.slotWrite ch i bs).port = s.port := rfl
@[simp] theorem State.slotWrite_draw (s : State) (ch : Chan) (i : Nat) (bs : List Byte) : (s.slotWrite ch i bs).draw = s.draw := rfl
@[simp] theorem State.slotWrite_response (s : State) (ch : Chan) (i : Nat) (bs : List Byte) : (s.slotWrite ch i bs).response = s.response := rfl
@[simp] theorem State.setPFault_cfg (s : State) (ch : Chan) : (s.setPFault ch).cfg = s.cfg := rfl
@[simp] theorem State.setPFault_mem (s : State) (ch : Chan) : (s.setPFault ch).mem = s.mem := rfl
@[simp] theorem State.setPFault_ports (s : State) (ch : Chan) : (s.setPFault ch).ports = s.ports := rfl
@[simp] theorem State.setPFault_faults (s : State) (ch : Chan) : (s.setPFault ch).faults = s.faults := rfl
@[simp] theorem State.setPFault_schedule (s : State) (ch : Chan) : (s.setPFault ch).schedule = s.schedule := rfl
@[simp] theorem State.setPFault_port (s : State) (ch : Chan) : (s.setPFault ch).port = s.port := rfl
@[simp] theorem State.setPFault_draw (s : State) (ch : Chan) : (s.setPFault ch).draw = s.draw := rfl
@[simp] theorem State.setPFault_response (s : State) (ch : Chan) : (s.setPFault ch).response = s.response := rfl
@[simp] theorem State.setCFault_cfg (s : State) (ch : Chan) : (s.setCFault ch).cfg = s.cfg := rfl
@[simp] theorem State.setCFault_mem (s : State) (ch : Chan) : (s.setCFault ch).mem = s.mem := rfl
@[simp] theorem State.setCFault_ports (s : State) (ch : Chan) : (s.setCFault ch).ports = s.ports := rfl
@[simp] theorem State.setCFault_faults (s : State) (ch : Chan) : (s.setCFault ch).faults = s.faults := rfl
@[simp] theorem State.setCFault_schedule (s : State) (ch : Chan) : (s.setCFault ch).schedule = s.schedule := rfl
@[simp] theorem State.setCFault_port (s : State) (ch : Chan) : (s.setCFault ch).port = s.port := rfl
@[simp] theorem State.setCFault_draw (s : State) (ch : Chan) : (s.setCFault ch).draw = s.draw := rfl
@[simp] theorem State.setCFault_response (s : State) (ch : Chan) : (s.setCFault ch).response = s.response := rfl
@[simp] theorem State.setWake_cfg (s : State) (ch : Chan) (b : Bool) : (s.setWake ch b).cfg = s.cfg := rfl
@[simp] theorem State.setWake_mem (s : State) (ch : Chan) (b : Bool) : (s.setWake ch b).mem = s.mem := rfl
@[simp] theorem State.setWake_ports (s : State) (ch : Chan) (b : Bool) : (s.setWake ch b).ports = s.ports := rfl
@[simp] theorem State.setWake_faults (s : State) (ch : Chan) (b : Bool) : (s.setWake ch b).faults = s.faults := rfl
@[simp] theorem State.setWake_schedule (s : State) (ch : Chan) (b : Bool) : (s.setWake ch b).schedule = s.schedule := rfl
@[simp] theorem State.setWake_port (s : State) (ch : Chan) (b : Bool) : (s.setWake ch b).port = s.port := rfl
@[simp] theorem State.setWake_draw (s : State) (ch : Chan) (b : Bool) : (s.setWake ch b).draw = s.draw := rfl
@[simp] theorem State.setWake_response (s : State) (ch : Chan) (b : Bool) : (s.setWake ch b).response = s.response := rfl
@[simp] theorem State.pushReads_cfg (s : State) (ch : Chan) : (s.pushReads ch).cfg = s.cfg := rfl
@[simp] theorem State.pushReads_mem (s : State) (ch : Chan) : (s.pushReads ch).mem = s.mem := rfl
@[simp] theorem State.pushReads_ports (s : State) (ch : Chan) : (s.pushReads ch).ports = s.ports := rfl
@[simp] theorem State.pushReads_faults (s : State) (ch : Chan) : (s.pushReads ch).faults = s.faults := rfl
@[simp] theorem State.pushReads_schedule (s : State) (ch : Chan) : (s.pushReads ch).schedule = s.schedule := rfl
@[simp] theorem State.pushReads_port (s : State) (ch : Chan) : (s.pushReads ch).port = s.port := rfl
@[simp] theorem State.pushReads_draw (s : State) (ch : Chan) : (s.pushReads ch).draw = s.draw := rfl
@[simp] theorem State.pushReads_response (s : State) (ch : Chan) : (s.pushReads ch).response = s.response := rfl
@[simp] theorem State.pushPublish_cfg (s : State) (ch : Chan) (p : Word) (bs : List Byte) : (s.pushPublish ch p bs).cfg = s.cfg := rfl
@[simp] theorem State.pushPublish_ports (s : State) (ch : Chan) (p : Word) (bs : List Byte) : (s.pushPublish ch p bs).ports = s.ports := rfl
@[simp] theorem State.pushPublish_faults (s : State) (ch : Chan) (p : Word) (bs : List Byte) : (s.pushPublish ch p bs).faults = s.faults := rfl
@[simp] theorem State.pushPublish_schedule (s : State) (ch : Chan) (p : Word) (bs : List Byte) : (s.pushPublish ch p bs).schedule = s.schedule := rfl
@[simp] theorem State.pushPublish_port (s : State) (ch : Chan) (p : Word) (bs : List Byte) : (s.pushPublish ch p bs).port = s.port := rfl
@[simp] theorem State.pushPublish_draw (s : State) (ch : Chan) (p : Word) (bs : List Byte) : (s.pushPublish ch p bs).draw = s.draw := rfl
@[simp] theorem State.pushPublish_response (s : State) (ch : Chan) (p : Word) (bs : List Byte) : (s.pushPublish ch p bs).response = s.response := rfl
@[simp] theorem State.drainReads_cfg (s : State) (ch : Chan) : (s.drainReads ch).cfg = s.cfg := rfl
@[simp] theorem State.drainReads_mem (s : State) (ch : Chan) : (s.drainReads ch).mem = s.mem := rfl
@[simp] theorem State.drainReads_ports (s : State) (ch : Chan) : (s.drainReads ch).ports = s.ports := rfl
@[simp] theorem State.drainReads_faults (s : State) (ch : Chan) : (s.drainReads ch).faults = s.faults := rfl
@[simp] theorem State.drainReads_schedule (s : State) (ch : Chan) : (s.drainReads ch).schedule = s.schedule := rfl
@[simp] theorem State.drainReads_port (s : State) (ch : Chan) : (s.drainReads ch).port = s.port := rfl
@[simp] theorem State.drainReads_draw (s : State) (ch : Chan) : (s.drainReads ch).draw = s.draw := rfl
@[simp] theorem State.drainReads_response (s : State) (ch : Chan) : (s.drainReads ch).response = s.response := rfl
@[simp] theorem State.openDrain_cfg (s : State) (ch : Chan) (g p : Word) : (s.openDrain ch g p).cfg = s.cfg := rfl
@[simp] theorem State.openDrain_mem (s : State) (ch : Chan) (g p : Word) : (s.openDrain ch g p).mem = s.mem := rfl
@[simp] theorem State.openDrain_ports (s : State) (ch : Chan) (g p : Word) : (s.openDrain ch g p).ports = s.ports := rfl
@[simp] theorem State.openDrain_faults (s : State) (ch : Chan) (g p : Word) : (s.openDrain ch g p).faults = s.faults := rfl
@[simp] theorem State.openDrain_schedule (s : State) (ch : Chan) (g p : Word) : (s.openDrain ch g p).schedule = s.schedule := rfl
@[simp] theorem State.openDrain_port (s : State) (ch : Chan) (g p : Word) : (s.openDrain ch g p).port = s.port := rfl
@[simp] theorem State.openDrain_draw (s : State) (ch : Chan) (g p : Word) : (s.openDrain ch g p).draw = s.draw := rfl
@[simp] theorem State.openDrain_response (s : State) (ch : Chan) (g p : Word) : (s.openDrain ch g p).response = s.response := rfl
@[simp] theorem State.closeDrain_cfg (s : State) (ch : Chan) : (s.closeDrain ch).cfg = s.cfg := rfl
@[simp] theorem State.closeDrain_mem (s : State) (ch : Chan) : (s.closeDrain ch).mem = s.mem := rfl
@[simp] theorem State.closeDrain_ports (s : State) (ch : Chan) : (s.closeDrain ch).ports = s.ports := rfl
@[simp] theorem State.closeDrain_faults (s : State) (ch : Chan) : (s.closeDrain ch).faults = s.faults := rfl
@[simp] theorem State.closeDrain_schedule (s : State) (ch : Chan) : (s.closeDrain ch).schedule = s.schedule := rfl
@[simp] theorem State.closeDrain_port (s : State) (ch : Chan) : (s.closeDrain ch).port = s.port := rfl
@[simp] theorem State.closeDrain_draw (s : State) (ch : Chan) : (s.closeDrain ch).draw = s.draw := rfl
@[simp] theorem State.closeDrain_response (s : State) (ch : Chan) : (s.closeDrain ch).response = s.response := rfl
@[simp] theorem State.reinit_cfg (s : State) (ch : Chan) : (s.reinit ch).cfg = s.cfg := rfl
@[simp] theorem State.reinit_ports (s : State) (ch : Chan) : (s.reinit ch).ports = s.ports := rfl
@[simp] theorem State.reinit_faults (s : State) (ch : Chan) : (s.reinit ch).faults = s.faults := rfl
@[simp] theorem State.reinit_schedule (s : State) (ch : Chan) : (s.reinit ch).schedule = s.schedule := rfl
@[simp] theorem State.reinit_port (s : State) (ch : Chan) : (s.reinit ch).port = s.port := rfl
@[simp] theorem State.reinit_draw (s : State) (ch : Chan) : (s.reinit ch).draw = s.draw := rfl
@[simp] theorem State.reinit_response (s : State) (ch : Chan) : (s.reinit ch).response = s.response := rfl
@[simp] theorem State.keepOld_cfg (s : State) (ch : Chan) (c : IndexCell) : (s.keepOld ch c).cfg = s.cfg := rfl
@[simp] theorem State.keepOld_mem (s : State) (ch : Chan) (c : IndexCell) : (s.keepOld ch c).mem = s.mem := rfl
@[simp] theorem State.keepOld_ports (s : State) (ch : Chan) (c : IndexCell) : (s.keepOld ch c).ports = s.ports := rfl
@[simp] theorem State.keepOld_faults (s : State) (ch : Chan) (c : IndexCell) : (s.keepOld ch c).faults = s.faults := rfl
@[simp] theorem State.keepOld_schedule (s : State) (ch : Chan) (c : IndexCell) : (s.keepOld ch c).schedule = s.schedule := rfl
@[simp] theorem State.keepOld_port (s : State) (ch : Chan) (c : IndexCell) : (s.keepOld ch c).port = s.port := rfl
@[simp] theorem State.keepOld_draw (s : State) (ch : Chan) (c : IndexCell) : (s.keepOld ch c).draw = s.draw := rfl
@[simp] theorem State.keepOld_response (s : State) (ch : Chan) (c : IndexCell) : (s.keepOld ch c).response = s.response := rfl
@[simp] theorem State.recordFault_cfg (s : State) (code : FaultCode) (cw : Word) : (s.recordFault code cw).cfg = s.cfg := rfl
@[simp] theorem State.recordFault_mem (s : State) (code : FaultCode) (cw : Word) : (s.recordFault code cw).mem = s.mem := rfl
@[simp] theorem State.recordFault_chan (s : State) (code : FaultCode) (cw : Word) : (s.recordFault code cw).chan = s.chan := rfl
@[simp] theorem State.recordFault_ports (s : State) (code : FaultCode) (cw : Word) : (s.recordFault code cw).ports = s.ports := rfl
@[simp] theorem State.recordFault_schedule (s : State) (code : FaultCode) (cw : Word) : (s.recordFault code cw).schedule = s.schedule := rfl
@[simp] theorem State.recordFault_port (s : State) (code : FaultCode) (cw : Word) : (s.recordFault code cw).port = s.port := rfl
@[simp] theorem State.recordFault_draw (s : State) (code : FaultCode) (cw : Word) : (s.recordFault code cw).draw = s.draw := rfl
@[simp] theorem State.consume_cfg (s : State) (q : Port) (n : Nat) : (s.consume q n).cfg = s.cfg := rfl
@[simp] theorem State.consume_mem (s : State) (q : Port) (n : Nat) : (s.consume q n).mem = s.mem := rfl
@[simp] theorem State.consume_chan (s : State) (q : Port) (n : Nat) : (s.consume q n).chan = s.chan := rfl
@[simp] theorem State.consume_faults (s : State) (q : Port) (n : Nat) : (s.consume q n).faults = s.faults := rfl
@[simp] theorem State.consume_schedule (s : State) (q : Port) (n : Nat) : (s.consume q n).schedule = s.schedule := rfl
@[simp] theorem State.consume_port (s : State) (q : Port) (n : Nat) : (s.consume q n).port = s.port := rfl
@[simp] theorem State.consume_draw (s : State) (q : Port) (n : Nat) : (s.consume q n).draw = s.draw := rfl
@[simp] theorem State.consume_response (s : State) (q : Port) (n : Nat) : (s.consume q n).response = s.response := rfl
@[simp] theorem State.select_cfg (s : State) (q : Port) (d : Nat) : (s.select q d).cfg = s.cfg := rfl
@[simp] theorem State.select_mem (s : State) (q : Port) (d : Nat) : (s.select q d).mem = s.mem := rfl
@[simp] theorem State.select_chan (s : State) (q : Port) (d : Nat) : (s.select q d).chan = s.chan := rfl
@[simp] theorem State.select_ports (s : State) (q : Port) (d : Nat) : (s.select q d).ports = s.ports := rfl
@[simp] theorem State.select_faults (s : State) (q : Port) (d : Nat) : (s.select q d).faults = s.faults := rfl
@[simp] theorem State.select_schedule (s : State) (q : Port) (d : Nat) : (s.select q d).schedule = s.schedule := rfl
@[simp] theorem State.idle_cfg (s : State) : (s.idle).cfg = s.cfg := rfl
@[simp] theorem State.idle_mem (s : State) : (s.idle).mem = s.mem := rfl
@[simp] theorem State.idle_chan (s : State) : (s.idle).chan = s.chan := rfl
@[simp] theorem State.idle_ports (s : State) : (s.idle).ports = s.ports := rfl
@[simp] theorem State.idle_faults (s : State) : (s.idle).faults = s.faults := rfl
@[simp] theorem State.idle_schedule (s : State) : (s.idle).schedule = s.schedule := rfl
@[simp] theorem State.idle_port (s : State) : (s.idle).port = s.port := rfl
@[simp] theorem State.idle_draw (s : State) : (s.idle).draw = s.draw := rfl

/-! ### Fields an update changes -/

@[simp] theorem State.setMem_mem (s : State) (m : Memory) : (s.setMem m).mem = m := rfl
@[simp] theorem State.setPort_ports (s : State) (q : Port) (p : PortState) :
    (s.setPort q p).ports = s.ports.set q p := rfl
@[simp] theorem State.setWaiting_ports (s : State) (q : Port) (b : Bool) :
    (s.setWaiting q b).ports = s.ports.set q { s.ports.val q with waiting := b } := rfl
@[simp] theorem State.consume_ports (s : State) (q : Port) (n : Nat) :
    (s.consume q n).ports = s.ports.set q { s.ports.val q with stream := (s.ports.val q).stream.drop n } := rfl
@[simp] theorem State.select_port (s : State) (q : Port) (d : Nat) : (s.select q d).port = q := rfl
@[simp] theorem State.select_draw (s : State) (q : Port) (d : Nat) : (s.select q d).draw = d := rfl
@[simp] theorem State.select_response (s : State) (q : Port) (d : Nat) : (s.select q d).response = none := rfl
@[simp] theorem State.idle_response (s : State) : s.idle.response = none := rfl
@[simp] theorem State.recordFault_response (s : State) (code : FaultCode) (cw : Word) :
    (s.recordFault code cw).response = none := rfl
@[simp] theorem State.slotWrite_mem (s : State) (ch : Chan) (i : Nat) (bs : List Byte) :
    (s.slotWrite ch i bs).mem = s.mem.writeBytes (s.cfg.slotAddr ch i) bs := rfl
@[simp] theorem State.appendHist_mem (s : State) (ch : Chan) (c : IndexCell) (v : Word) :
    (s.appendHist ch c v).mem = s.mem.writeWord (s.cfg.cellAddr ch c) v := rfl
@[simp] theorem State.writeIndex_mem (s : State) (a : Agent) (ch : Chan) (c : IndexCell) (v : Word) :
    (s.writeIndex a ch c v).mem = s.mem.writeWord (s.cfg.cellAddr ch c) v := rfl
@[simp] theorem State.reinit_mem (s : State) (ch : Chan) :
    (s.reinit ch).mem = s.mem.writeWord (s.cfg.cellAddr ch .get) (s.cell ch .put) := rfl
@[simp] theorem State.pushPublish_mem (s : State) (ch : Chan) (p : Word) (bs : List Byte) :
    (s.pushPublish ch p bs).mem =
      (s.mem.writeBytes (s.cfg.slotAddr ch (s.cfg.slotOf ch p)) bs).writeWord (s.cfg.cellAddr ch .put) (p + 1) := rfl

theorem State.mem_recordFault_faults (s : State) (code : FaultCode) (cw : Word) (r : FaultRecord) :
    r ∈ (s.recordFault code cw).faults ↔ r ∈ s.faults ∨ r = ⟨code, s.port, cw⟩ := by
  unfold State.recordFault
  by_cases h : (⟨code, s.port, cw⟩ : FaultRecord) ∈ s.faults
  · simp only [h, if_true]
    exact ⟨Or.inl, fun h' => h'.elim id fun e => e ▸ h⟩
  · simp [h]

/-! ### The channel after an update -/

@[simp] theorem State.ch_updCh (s : State) (ch ch' : Chan) (f : Channel → Channel) :
    (s.updCh ch f).ch ch' = if ch' = ch then f (s.ch ch) else s.ch ch' := by
  simp [State.updCh, State.ch]

@[simp] theorem State.ch_setMem (s : State) (m : Memory) (ch : Chan) : (s.setMem m).ch ch = s.ch ch := rfl
@[simp] theorem State.ch_setPort (s : State) (q : Port) (p : PortState) (ch : Chan) :
    (s.setPort q p).ch ch = s.ch ch := rfl
@[simp] theorem State.ch_setWaiting (s : State) (q : Port) (b : Bool) (ch : Chan) :
    (s.setWaiting q b).ch ch = s.ch ch := rfl
@[simp] theorem State.ch_slotWrite (s : State) (ch' : Chan) (i : Nat) (bs : List Byte) (ch : Chan) :
    (s.slotWrite ch' i bs).ch ch = s.ch ch := rfl
@[simp] theorem State.ch_recordFault (s : State) (code : FaultCode) (cw : Word) (ch : Chan) :
    (s.recordFault code cw).ch ch = s.ch ch := rfl
@[simp] theorem State.ch_consume (s : State) (q : Port) (n : Nat) (ch : Chan) :
    (s.consume q n).ch ch = s.ch ch := rfl
@[simp] theorem State.ch_select (s : State) (q : Port) (d : Nat) (ch : Chan) : (s.select q d).ch ch = s.ch ch := rfl
@[simp] theorem State.ch_idle (s : State) (ch : Chan) : s.idle.ch ch = s.ch ch := rfl

theorem State.ch_setFront (s : State) (a : Agent) (ch ch' : Chan) (c : IndexCell) (k : Nat) :
    (s.setFront a ch c k).ch ch' =
      if ch' = ch then { s.ch ch with front := (s.ch ch).front.set a (((s.ch ch).front.val a).set c k) }
      else s.ch ch' := by
  simp [State.setFront]

@[simp] theorem State.ch_setPFault (s : State) (ch ch' : Chan) :
    (s.setPFault ch).ch ch' = if ch' = ch then { s.ch ch with pFault := true } else s.ch ch' := by
  simp [State.setPFault]

@[simp] theorem State.ch_setCFault (s : State) (ch ch' : Chan) :
    (s.setCFault ch).ch ch' = if ch' = ch then { s.ch ch with cFault := true } else s.ch ch' := by
  simp [State.setCFault]

@[simp] theorem State.ch_setWake (s : State) (ch ch' : Chan) (b : Bool) :
    (s.setWake ch b).ch ch' = if ch' = ch then { s.ch ch with wake := b } else s.ch ch' := by
  simp [State.setWake]

@[simp] theorem State.ch_openDrain (s : State) (ch ch' : Chan) (g p : Word) :
    (s.openDrain ch g p).ch ch' =
      if ch' = ch then { s.ch ch with clGet := g, clLimit := p, cDrain := true } else s.ch ch' := by
  simp [State.openDrain]

@[simp] theorem State.ch_closeDrain (s : State) (ch ch' : Chan) :
    (s.closeDrain ch).ch ch' = if ch' = ch then { s.ch ch with cDrain := false } else s.ch ch' := by
  simp [State.closeDrain]

@[simp] theorem State.ch_reinit (s : State) (ch ch' : Chan) :
    (s.reinit ch).ch ch' =
      if ch' = ch then { s.ch ch with older := ⟨[], []⟩, front := frontsZero, pFault := false, cFault := false,
                                      chState := .ready }
      else s.ch ch' := by
  simp [State.reinit]

@[simp] theorem State.ch_appendHist (s : State) (ch ch' : Chan) (c : IndexCell) (v : Word) :
    (s.appendHist ch c v).ch ch' =
      if ch' = ch then { s.ch ch with older := (s.ch ch).older.set c ((s.ch ch).older.val c ++ [s.cell ch c]) }
      else s.ch ch' := by
  simp [State.appendHist]

/-! ### Frontiers -/

@[simp] theorem State.front_setFront (s : State) (a a' : Agent) (ch ch' : Chan) (c c' : IndexCell) (k : Nat) :
    (s.setFront a ch c k).front a' ch' c' =
      if a' = a ∧ ch' = ch ∧ c' = c then k else s.front a' ch' c' := by
  by_cases h1 : ch' = ch
  · subst h1
    by_cases h2 : a' = a
    · subst h2
      by_cases h3 : c' = c <;> simp [State.front, State.ch_setFront, h3]
    · simp [State.front, State.ch_setFront, h2]
  · simp [State.front, State.ch_setFront, h1]

end Sys2Proof.Machine
end

