-- ==== Sys2Proof/Laws/Ops.lean ====
section
/-! SUPPORT. What the shared operations do: layout of the segments, index cells with their histories and views, slots, and the ways a
command ends. -/

namespace Sys2Proof

/-! ### Layout (20_memory.md R50 to R55) -/

theorem Config.legal_iff (cfg : Config) :
    cfg.legal = true ↔
      (∀ ch, 1 ≤ cfg.cap.val ch ∧ cfg.cap.val ch ≤ 2 ^ 32 - 1) ∧
      cfg.slotBytes % 4 = 0 ∧ cfg.tsOffset % 4 = 0 ∧ cfg.tsOffset + 4 ≤ cfg.slotBytes ∧
      (∀ ch, cfg.base.val ch % 4 = 0) ∧
      (cfg.base.rx + cfg.segmentLength .rx ≤ cfg.base.tx ∨ cfg.base.tx + cfg.segmentLength .tx ≤ cfg.base.rx) := by
  have hall : ∀ P : Chan → Prop, (∀ ch, P ch) ↔ P .rx ∧ P .tx :=
    fun P => ⟨fun h => ⟨h _, h _⟩, fun h ch => by cases ch <;> simp [h.1, h.2]⟩
  simp only [Config.legal, Config.capLegal, Config.segmentsDisjoint, Bool.and_eq_true, Bool.or_eq_true,
    decide_eq_true_eq, beq_iff_eq, hall]
  simp only [PerChan.val]
  tauto

theorem Config.cap_pos {cfg : Config} (h : cfg.legal = true) (ch : Chan) : 1 ≤ cfg.cap.val ch :=
  ((Config.legal_iff cfg).1 h).1 ch |>.1

theorem Config.cap_lt {cfg : Config} (h : cfg.legal = true) (ch : Chan) : cfg.cap.val ch < 2 ^ 32 := by
  have := (((Config.legal_iff cfg).1 h).1 ch).2
  omega

theorem Config.slotWords_mul {cfg : Config} (h : cfg.legal = true) : 4 * cfg.slotWords = cfg.slotBytes := by
  have := ((Config.legal_iff cfg).1 h).2.1
  unfold Config.slotWords
  omega

theorem Config.slotOf_lt {cfg : Config} (h : cfg.legal = true) (ch : Chan) (idx : Word) :
    cfg.slotOf ch idx < cfg.cap.val ch :=
  Nat.mod_lt _ (Config.cap_pos h ch)

/-- Two different channels' segments share no byte. -/
theorem Config.segments_apart {cfg : Config} (h : cfg.legal = true) {ch ch' : Chan} (hne : ch' ≠ ch) :
    cfg.base.val ch + cfg.segmentLength ch ≤ cfg.base.val ch' ∨
    cfg.base.val ch' + cfg.segmentLength ch' ≤ cfg.base.val ch := by
  have := ((Config.legal_iff cfg).1 h).2.2.2.2.2
  cases ch <;> cases ch' <;> first | exact absurd rfl hne | (simp only [PerChan.val]; omega)

theorem Config.base_le_cellAddr (cfg : Config) (ch : Chan) (c : Machine.IndexCell) :
    cfg.base.val ch ≤ cfg.cellAddr ch c ∧ cfg.cellAddr ch c + 4 ≤ cfg.base.val ch + 8 := by
  cases c <;> simp [Config.cellAddr]

/-- A slot below CAP lies between the header and the end of its segment. -/
theorem Config.slot_in_segment (cfg : Config) (ch : Chan) (i : Nat) (h : i < cfg.cap.val ch) :
    cfg.base.val ch + 8 ≤ cfg.slotAddr ch i ∧
    cfg.slotAddr ch i + cfg.slotBytes ≤ cfg.base.val ch + cfg.segmentLength ch := by
  have : i * cfg.slotBytes + cfg.slotBytes ≤ cfg.cap.val ch * cfg.slotBytes := by
    have := Nat.mul_le_mul_right cfg.slotBytes (Nat.succ_le_of_lt h)
    rwa [Nat.succ_mul] at this
  unfold Config.slotAddr Config.segmentLength
  omega

/-- Two different slots of a channel share no byte. -/
theorem Config.slots_apart (cfg : Config) (ch : Chan) (i j : Nat) (h : i ≠ j) :
    cfg.slotAddr ch i + cfg.slotBytes ≤ cfg.slotAddr ch j ∨
    cfg.slotAddr ch j + cfg.slotBytes ≤ cfg.slotAddr ch i := by
  unfold Config.slotAddr
  rcases Nat.lt_or_gt_of_ne h with h | h
  · have := Nat.mul_le_mul_right cfg.slotBytes (Nat.succ_le_of_lt h)
    rw [Nat.succ_mul] at this
    omega
  · have := Nat.mul_le_mul_right cfg.slotBytes (Nat.succ_le_of_lt h)
    rw [Nat.succ_mul] at this
    omega

theorem Config.cells_apart (cfg : Config) (ch : Chan) {c c' : Machine.IndexCell} (h : c' ≠ c) :
    cfg.cellAddr ch c' + 4 ≤ cfg.cellAddr ch c ∨ cfg.cellAddr ch c + 4 ≤ cfg.cellAddr ch c' := by
  cases c <;> cases c' <;> simp_all [Config.cellAddr]

end Sys2Proof

namespace Sys2Proof.Machine

/-! ### Index cells (20_memory.md R60 to R62) -/

theorem State.cell_congr {s t : State} (hc : t.cfg = s.cfg) (hm : t.mem = s.mem) (ch : Chan) (c : IndexCell) :
    t.cell ch c = s.cell ch c := by
  unfold State.cell
  rw [hc, hm]

theorem State.slotRead_congr {s t : State} (hc : t.cfg = s.cfg) (hm : t.mem = s.mem) (ch : Chan) (i : Nat) :
    t.slotRead ch i = s.slotRead ch i := by
  unfold State.slotRead
  rw [hc, hm]

@[simp] theorem State.cell_updCh (s : State) (ch' : Chan) (f : Channel → Channel) (ch : Chan) (c : IndexCell) :
    (s.updCh ch' f).cell ch c = s.cell ch c := rfl
@[simp] theorem State.cell_setFront (s : State) (a : Agent) (ch' : Chan) (c' : IndexCell) (k : Nat) (ch : Chan)
    (c : IndexCell) : (s.setFront a ch' c' k).cell ch c = s.cell ch c := rfl
@[simp] theorem State.cell_readIndex (s : State) (a : Agent) (ch' : Chan) (c' : IndexCell) (ch : Chan)
    (c : IndexCell) : (s.readIndex a ch' c').cell ch c = s.cell ch c := rfl
@[simp] theorem State.cell_pushReads (s : State) (ch' ch : Chan) (c : IndexCell) :
    (s.pushReads ch').cell ch c = s.cell ch c := rfl
@[simp] theorem State.cell_drainReads (s : State) (ch' ch : Chan) (c : IndexCell) :
    (s.drainReads ch').cell ch c = s.cell ch c := rfl
@[simp] theorem State.cell_select (s : State) (q : Port) (d : Nat) (ch : Chan) (c : IndexCell) :
    (s.select q d).cell ch c = s.cell ch c := rfl

theorem State.hist_congr {s t : State} (ch : Chan) (c : IndexCell) (ho : (t.ch ch).older = (s.ch ch).older)
    (hv : t.cell ch c = s.cell ch c) : t.hist ch c = s.hist ch c := by
  unfold State.hist
  rw [ho, hv]

@[simp] theorem State.hist_setFront (s : State) (a : Agent) (ch' : Chan) (c' : IndexCell) (k : Nat) (ch : Chan)
    (c : IndexCell) : (s.setFront a ch' c' k).hist ch c = s.hist ch c := by
  refine State.hist_congr _ _ ?_ rfl
  rw [State.ch_setFront]
  split
  · next h => rw [h]
  · rfl

@[simp] theorem State.hist_readIndex (s : State) (a : Agent) (ch' : Chan) (c' : IndexCell) (ch : Chan)
    (c : IndexCell) : (s.readIndex a ch' c').hist ch c = s.hist ch c :=
  State.hist_setFront ..

@[simp] theorem State.histLast_setFront (s : State) (a : Agent) (ch' : Chan) (c' : IndexCell) (k : Nat) (ch : Chan)
    (c : IndexCell) : (s.setFront a ch' c' k).histLast ch c = s.histLast ch c := by
  unfold State.histLast
  rw [State.hist_setFront]

theorem State.histLast_eq (s : State) (ch : Chan) (c : IndexCell) :
    s.histLast ch c = ((s.ch ch).older.val c).length := by
  simp [State.histLast, State.hist]

theorem State.hist_length (s : State) (ch : Chan) (c : IndexCell) : (s.hist ch c).length = s.histLast ch c + 1 := by
  simp [State.histLast, State.hist]

/-- The last entry of a history is the cell's current value (10_state.md R36). -/
theorem State.hist_last (s : State) (ch : Chan) (c : IndexCell) (d : Word) :
    (s.hist ch c).getD (s.histLast ch c) d = s.cell ch c := by
  rw [State.histLast_eq]
  simp [State.hist]

theorem State.viewIndex_owner (s : State) (ch : Chan) (c : IndexCell) :
    s.viewIndex (ownerOf ch c) ch c = s.histLast ch c := by
  simp [State.viewIndex]

/-- The owner reads its own latest write (R61). -/
theorem State.view_owner (s : State) (ch : Chan) (c : IndexCell) : s.view (ownerOf ch c) ch c = s.cell ch c := by
  unfold State.view
  rw [State.viewIndex_owner, State.hist_last]

theorem State.view_prod_put (s : State) (ch : Chan) : s.view (.prod ch) ch .put = s.cell ch .put :=
  State.view_owner s ch .put

theorem State.view_cons_get (s : State) (ch : Chan) : s.view (.cons ch) ch .get = s.cell ch .get :=
  State.view_owner s ch .get

theorem pick_le (lo hi d : Nat) : pick lo hi d ≤ hi := by
  unfold pick
  split
  · exact Nat.le_refl _
  · have := Nat.mod_lt d (show 0 < hi - lo + 1 by omega)
    omega

theorem le_pick (lo hi d : Nat) (h : lo ≤ hi) : lo ≤ pick lo hi d := by
  unfold pick
  split <;> omega

/-- Every value of the range is picked by some draw. -/
theorem pick_surjective (lo hi k : Nat) (h1 : lo ≤ k) (h2 : k ≤ hi) : pick lo hi (k - lo) = k := by
  unfold pick
  split
  · omega
  · rw [Nat.mod_eq_of_lt (by omega)]
    omega

theorem State.viewIndex_le (s : State) (a : Agent) (ch : Chan) (c : IndexCell) :
    s.viewIndex a ch c ≤ s.histLast ch c := by
  unfold State.viewIndex
  split
  · exact Nat.le_refl _
  · exact pick_le _ _ _

theorem State.front_le_viewIndex (s : State) (a : Agent) (ch : Chan) (c : IndexCell)
    (h : s.front a ch c ≤ s.histLast ch c) : s.front a ch c ≤ s.viewIndex a ch c := by
  unfold State.viewIndex
  split
  · exact h
  · exact le_pick _ _ _ h

/-- Reading one cell does not change what the other one shows. -/
theorem State.viewIndex_readIndex_ne (s : State) (a : Agent) (ch : Chan) {c c' : IndexCell} (h : c' ≠ c) :
    (s.readIndex a ch c).viewIndex a ch c' = s.viewIndex a ch c' := by
  unfold State.viewIndex State.readIndex
  rw [State.histLast_setFront, State.front_setFront, State.setFront_draw]
  simp [h]

theorem State.view_readIndex_ne (s : State) (a : Agent) (ch : Chan) {c c' : IndexCell} (h : c' ≠ c) :
    (s.readIndex a ch c).view a ch c' = s.view a ch c' := by
  unfold State.view
  rw [State.viewIndex_readIndex_ne s a ch h, State.hist_readIndex, State.cell_readIndex]

/-! ### Writes of an index cell -/

theorem State.cell_writeWord_ne {s t : State} {ch ch' : Chan} {c c' : IndexCell} {v : Word}
    (hl : s.cfg.legal = true) (hc : t.cfg = s.cfg) (hm : t.mem = s.mem.writeWord (s.cfg.cellAddr ch c) v)
    (h : ¬ (ch' = ch ∧ c' = c)) : t.cell ch' c' = s.cell ch' c' := by
  unfold State.cell
  rw [hc, hm]
  refine Memory.readWord_writeWord_disjoint _ _ _ _ ?_
  by_cases hch : ch' = ch
  · subst hch
    exact Config.cells_apart _ _ fun e => h ⟨rfl, e⟩
  · have h1 := Config.segments_apart hl hch
    have h2 := Config.base_le_cellAddr s.cfg ch c
    have h3 := Config.base_le_cellAddr s.cfg ch' c'
    simp only [Config.segmentLength] at h1
    omega

@[simp] theorem State.cell_appendHist_same (s : State) (ch : Chan) (c : IndexCell) (v : Word) :
    (s.appendHist ch c v).cell ch c = v := by
  unfold State.cell
  rw [State.appendHist_mem, State.appendHist_cfg, Memory.readWord_writeWord_same]

theorem State.cell_appendHist_ne (s : State) (ch ch' : Chan) (c c' : IndexCell) (v : Word)
    (hl : s.cfg.legal = true) (h : ¬ (ch' = ch ∧ c' = c)) : (s.appendHist ch c v).cell ch' c' = s.cell ch' c' :=
  State.cell_writeWord_ne hl rfl rfl h

/-- IndexWrite appends one entry to the cell's history (R62). -/
theorem State.hist_appendHist_same (s : State) (ch : Chan) (c : IndexCell) (v : Word) :
    (s.appendHist ch c v).hist ch c = s.hist ch c ++ [v] := by
  unfold State.hist
  rw [State.cell_appendHist_same, State.ch_appendHist]
  simp

theorem State.hist_appendHist_ne (s : State) (ch ch' : Chan) (c c' : IndexCell) (v : Word)
    (hl : s.cfg.legal = true) (h : ¬ (ch' = ch ∧ c' = c)) : (s.appendHist ch c v).hist ch' c' = s.hist ch' c' := by
  unfold State.hist
  rw [State.cell_appendHist_ne s ch ch' c c' v hl h, State.ch_appendHist]
  by_cases hch : ch' = ch
  · subst hch
    have : c' ≠ c := fun e => h ⟨rfl, e⟩
    simp [this]
  · simp [hch]

theorem State.histLast_appendHist_same (s : State) (ch : Chan) (c : IndexCell) (v : Word) :
    (s.appendHist ch c v).histLast ch c = s.histLast ch c + 1 := by
  simp [State.histLast_eq]

/-- What IndexWrite leaves in the channel: one more old entry, and the writer's frontier on the new one. -/
theorem State.ch_writeIndex (s : State) (a : Agent) (ch ch' : Chan) (c : IndexCell) (v : Word) :
    (s.writeIndex a ch c v).ch ch' =
      if ch' = ch then
        { s.ch ch with
          older := (s.ch ch).older.set c ((s.ch ch).older.val c ++ [s.cell ch c])
          front := (s.ch ch).front.set a (((s.ch ch).front.val a).set c (s.histLast ch c + 1)) }
      else s.ch ch' := by
  unfold State.writeIndex
  rw [State.ch_setFront, State.histLast_appendHist_same]
  by_cases h : ch' = ch
  · simp [h]
  · simp [h]

@[simp] theorem State.cell_writeIndex_same (s : State) (a : Agent) (ch : Chan) (c : IndexCell) (v : Word) :
    (s.writeIndex a ch c v).cell ch c = v :=
  State.cell_appendHist_same s ch c v

theorem State.cell_writeIndex_ne (s : State) (a : Agent) (ch ch' : Chan) (c c' : IndexCell) (v : Word)
    (hl : s.cfg.legal = true) (h : ¬ (ch' = ch ∧ c' = c)) : (s.writeIndex a ch c v).cell ch' c' = s.cell ch' c' :=
  State.cell_appendHist_ne s ch ch' c c' v hl h

theorem State.hist_writeIndex_same (s : State) (a : Agent) (ch : Chan) (c : IndexCell) (v : Word) :
    (s.writeIndex a ch c v).hist ch c = s.hist ch c ++ [v] := by
  unfold State.writeIndex
  rw [State.hist_setFront, State.hist_appendHist_same]

theorem State.hist_writeIndex_ne (s : State) (a : Agent) (ch ch' : Chan) (c c' : IndexCell) (v : Word)
    (hl : s.cfg.legal = true) (h : ¬ (ch' = ch ∧ c' = c)) : (s.writeIndex a ch c v).hist ch' c' = s.hist ch' c' := by
  unfold State.writeIndex
  rw [State.hist_setFront, State.hist_appendHist_ne s ch ch' c c' v hl h]

/-! ### Reads of PUSH and DRAIN_BEGIN -/

theorem State.ch_pushReads (s : State) (ch ch' : Chan) :
    (s.pushReads ch).ch ch' =
      if ch' = ch then
        { s.ch ch with front := (s.ch ch).front.set (.prod ch) ⟨s.histLast ch .put, s.viewIndex (.prod ch) ch .get⟩ }
      else s.ch ch' := by
  have h : (s.readIndex (.prod ch) ch .put).viewIndex (.prod ch) ch .get = s.viewIndex (.prod ch) ch .get :=
    State.viewIndex_readIndex_ne s (.prod ch) ch (by decide)
  have ho : s.viewIndex (.prod ch) ch .put = s.histLast ch .put := State.viewIndex_owner s ch .put
  unfold State.pushReads
  rw [State.readIndex, State.ch_setFront, h, State.readIndex, ho]
  by_cases hch : ch' = ch
  · subst hch
    rw [if_pos rfl, if_pos rfl, State.ch_setFront, if_pos rfl]
    cases ch' <;> rfl
  · rw [if_neg hch, if_neg hch, State.ch_setFront, if_neg hch]

theorem State.ch_drainReads (s : State) (ch ch' : Chan) :
    (s.drainReads ch).ch ch' =
      if ch' = ch then
        { s.ch ch with front := (s.ch ch).front.set (.cons ch) ⟨s.viewIndex (.cons ch) ch .put, s.histLast ch .get⟩ }
      else s.ch ch' := by
  have h : (s.readIndex (.cons ch) ch .get).viewIndex (.cons ch) ch .put = s.viewIndex (.cons ch) ch .put :=
    State.viewIndex_readIndex_ne s (.cons ch) ch (by decide)
  have ho : s.viewIndex (.cons ch) ch .get = s.histLast ch .get := State.viewIndex_owner s ch .get
  unfold State.drainReads
  rw [State.readIndex, State.ch_setFront, h, State.readIndex, ho]
  by_cases hch : ch' = ch
  · subst hch
    rw [if_pos rfl, if_pos rfl, State.ch_setFront, if_pos rfl]
    cases ch' <;> rfl
  · rw [if_neg hch, if_neg hch, State.ch_setFront, if_neg hch]

/-! ### Slots (20_memory.md R64) -/

@[simp] theorem slotBytesOf_length (ws : List Word) : (slotBytesOf ws).length = 4 * ws.length := by
  induction ws with
  | nil => rfl
  | cons w ws ih =>
    simp only [slotBytesOf, List.flatMap_cons, List.length_append, leBytes_length, List.length_cons] at ih ⊢
    omega

theorem slotWordsOf_slotBytesOf (ws : List Word) : slotWordsOf (slotBytesOf ws) = ws := by
  induction ws with
  | nil => rfl
  | cons w ws ih =>
    have h : leNat (leBytes 4 w.toNat) = w.toNat := by
      have := w.isLt
      rw [leNat_leBytes]
      omega
    simp only [slotBytesOf, List.flatMap_cons, leBytes, List.cons_append, List.nil_append, slotWordsOf] at ih h ⊢
    rw [h, ih, BitVec.ofNat_toNat, BitVec.setWidth_eq]

theorem slotBytesOf_slotWordsOf (bs : List Byte) (n : Nat) (h : bs.length = 4 * n) : slotBytesOf (slotWordsOf bs) = bs := by
  induction n generalizing bs with
  | zero =>
    obtain rfl := List.eq_nil_of_length_eq_zero (show bs.length = 0 by omega)
    rfl
  | succ n ih =>
    match bs, h with
    | b0 :: b1 :: b2 :: b3 :: rest, h =>
      have hr := ih rest (by simp only [List.length_cons] at h; omega)
      have hb := leBytes_leNat [b0, b1, b2, b3]
      have hlt := leNat_lt [b0, b1, b2, b3]
      simp only [List.length_cons, List.length_nil] at hb hlt
      have hm : (BitVec.ofNat 32 (leNat [b0, b1, b2, b3])).toNat = leNat [b0, b1, b2, b3] := by
        rw [BitVec.toNat_ofNat]
        omega
      simp only [slotWordsOf, slotBytesOf, List.flatMap_cons, hm, hb] at hr ⊢
      rw [hr]
      rfl
    | [], h => simp at h
    | [_], h => simp at h; omega
    | [_, _], h => simp at h; omega
    | [_, _, _], h => simp at h; omega

theorem State.slotRead_length (s : State) (ch : Chan) (i : Nat) : (s.slotRead ch i).length = s.cfg.slotBytes := by
  simp [State.slotRead]

theorem State.slotRead_slotWrite_same (s : State) (ch : Chan) (i : Nat) (bs : List Byte)
    (h : bs.length = s.cfg.slotBytes) : (s.slotWrite ch i bs).slotRead ch i = bs := by
  unfold State.slotRead
  rw [State.slotWrite_mem, State.slotWrite_cfg, ← h, Memory.readBytes_writeBytes_same]

/-- A slot write leaves every other slot of either channel alone. -/
theorem State.slotRead_slotWrite_ne (s : State) (ch ch' : Chan) (i j : Nat) (bs : List Byte)
    (hl : s.cfg.legal = true) (h : bs.length = s.cfg.slotBytes) (hi : i < s.cfg.cap.val ch)
    (hj : j < s.cfg.cap.val ch') (hne : ¬ (ch' = ch ∧ j = i)) :
    (s.slotWrite ch i bs).slotRead ch' j = s.slotRead ch' j := by
  unfold State.slotRead
  rw [State.slotWrite_mem, State.slotWrite_cfg]
  refine Memory.readBytes_writeBytes_disjoint _ _ _ _ _ ?_
  rw [h]
  by_cases hch : ch' = ch
  · subst hch
    exact Config.slots_apart _ _ _ _ fun e => hne ⟨rfl, e⟩
  · have h1 := Config.segments_apart hl hch
    have h2 := Config.slot_in_segment s.cfg ch i hi
    have h3 := Config.slot_in_segment s.cfg ch' j hj
    omega

/-- A slot write leaves every index cell alone. -/
theorem State.cell_slotWrite (s : State) (ch ch' : Chan) (c : IndexCell) (i : Nat) (bs : List Byte)
    (hl : s.cfg.legal = true) (h : bs.length = s.cfg.slotBytes) (hi : i < s.cfg.cap.val ch) :
    (s.slotWrite ch i bs).cell ch' c = s.cell ch' c := by
  unfold State.cell
  rw [State.slotWrite_mem, State.slotWrite_cfg]
  refine Memory.readWord_writeBytes_disjoint _ _ _ _ ?_
  rw [h]
  have h2 := Config.slot_in_segment s.cfg ch i hi
  have h3 := Config.base_le_cellAddr s.cfg ch' c
  by_cases hch : ch' = ch
  · subst hch
    omega
  · have h1 := Config.segments_apart hl hch
    simp only [Config.segmentLength] at h1 h2
    omega

/-- A write of an index cell leaves every slot alone. -/
theorem State.slotRead_writeWord {s t : State} {ch ch' : Chan} {c : IndexCell} {v : Word} {j : Nat}
    (hl : s.cfg.legal = true) (hc : t.cfg = s.cfg) (hm : t.mem = s.mem.writeWord (s.cfg.cellAddr ch c) v)
    (hj : j < s.cfg.cap.val ch') : t.slotRead ch' j = s.slotRead ch' j := by
  unfold State.slotRead
  rw [hc, hm]
  refine Memory.readBytes_writeWord_disjoint _ _ _ _ _ ?_
  have h2 := Config.slot_in_segment s.cfg ch' j hj
  have h3 := Config.base_le_cellAddr s.cfg ch c
  by_cases hch : ch' = ch
  · subst hch
    omega
  · have h1 := Config.segments_apart hl hch
    simp only [Config.segmentLength] at h1 h2
    omega

/-! ### How a command ends -/

/-- A port may issue an operation on a channel exactly if it is the channel's port of a legal role (30_encoding.md R95). -/
theorem portFault_eq_none (q : Port) (op : Op) (ch : Chan) :
    portFault q op ch = none ↔ ch = q.chan ∧ op.legalOn q.role = true := by
  unfold portFault
  by_cases h : ch = q.chan <;> cases hr : op.legalOn q.role <;> simp [h]

theorem portFault_eq_some (q : Port) (op : Op) (ch : Chan) (code : FaultCode) :
    portFault q op ch = some code ↔ code = .wrongPort ∧ ¬ (ch = q.chan ∧ op.legalOn q.role = true) := by
  unfold portFault
  by_cases h : ch = q.chan <;> cases hr : op.legalOn q.role <;> simp [h, eq_comm]

/-- The port check: the rest of the command on a legal port, else the model fault FLT_WRONG_PORT. -/
theorem onLegalPort_cases (op : Op) (ch : Chan) (s : State) (k : Result) :
    (portFault s.port op ch = none ∧ onLegalPort op ch s k = k) ∨
    (portFault s.port op ch = some .wrongPort ∧
      onLegalPort op ch s k = .next (s.recordFault .wrongPort (commandWord op ch))) := by
  unfold onLegalPort raise
  cases h : portFault s.port op ch with
  | none => exact .inl ⟨rfl, rfl⟩
  | some code =>
    obtain rfl := ((portFault_eq_some _ _ _ _).1 h).1
    exact .inr ⟨rfl, rfl⟩

theorem onLegalPort_legal {op : Op} {ch : Chan} {s : State} {k : Result} (h : portFault s.port op ch = none) :
    onLegalPort op ch s k = k := by
  rw [onLegalPort, h]

@[simp] theorem faultIf_true (code : FaultCode) (op : Op) (ch : Chan) (s : State) (k : Result) :
    faultIf true code op ch s k = .next (s.recordFault code (commandWord op ch)) := rfl

@[simp] theorem faultIf_false (code : FaultCode) (op : Op) (ch : Chan) (s : State) (k : Result) :
    faultIf false code op ch s k = k := rfl

theorem faultIf_cases (cond : Bool) (code : FaultCode) (op : Op) (ch : Chan) (s : State) (k : Result) :
    (cond = false ∧ faultIf cond code op ch s k = k) ∨
    (cond = true ∧ faultIf cond code op ch s k = .next (s.recordFault code (commandWord op ch))) := by
  cases cond
  · exact .inl ⟨rfl, rfl⟩
  · exact .inr ⟨rfl, rfl⟩

theorem respond_eq (st : Status) (data : List Word) (s : State) :
    respond st data s = .next { s with response := some ⟨s.port, st, data⟩ } := rfl

end Sys2Proof.Machine
end

