-- ==== Sys2Proof/Laws/Meanings.lean ====
section
/-! SUPPORT. One inversion lemma per command: everything it can do, with the condition of each outcome, in the order of
60_exceptions.md R214. Every meaning answers a next state. -/

namespace Sys2Proof.Machine

/-- PUSH (R140). -/
theorem execPush_cases (ch : Chan) (slot : List Word) (s : State) :
    (portFault s.port .push ch = some .wrongPort ∧
      execPush ch slot s = .next (s.recordFault .wrongPort (commandWord .push ch))) ∨
    (portFault s.port .push ch = none ∧
      ((s.isUninit ch = true ∧
        execPush ch slot s = .next (s.recordFault .useBeforeInit (commandWord .push ch))) ∨
      (s.isUninit ch = false ∧ (s.ch ch).pFault = true ∧ execPush ch slot s = respond .corrupt [] s) ∨
      (s.isUninit ch = false ∧ (s.ch ch).pFault = false ∧
        overCapacity s.cfg ch (s.cell ch .put - s.view (.prod ch) ch .get) = true ∧
        execPush ch slot s = respond .corrupt [] ((s.pushReads ch).setPFault ch)) ∨
      (s.isUninit ch = false ∧ (s.ch ch).pFault = false ∧
        overCapacity s.cfg ch (s.cell ch .put - s.view (.prod ch) ch .get) = false ∧
        atCapacity s.cfg ch (s.cell ch .put - s.view (.prod ch) ch .get) = true ∧
        execPush ch slot s = respond .full [] (s.pushReads ch)) ∨
      (s.isUninit ch = false ∧ (s.ch ch).pFault = false ∧
        overCapacity s.cfg ch (s.cell ch .put - s.view (.prod ch) ch .get) = false ∧
        atCapacity s.cfg ch (s.cell ch .put - s.view (.prod ch) ch .get) = false ∧
        s.overwrites ch (s.cell ch .put) = true ∧
        execPush ch slot s = .next (s.recordFault .slotOverwrite (commandWord .push ch))) ∨
      (s.isUninit ch = false ∧ (s.ch ch).pFault = false ∧
        overCapacity s.cfg ch (s.cell ch .put - s.view (.prod ch) ch .get) = false ∧
        atCapacity s.cfg ch (s.cell ch .put - s.view (.prod ch) ch .get) = false ∧
        s.overwrites ch (s.cell ch .put) = false ∧
        execPush ch slot s =
          respond .ok [] ((s.pushReads ch).pushPublish ch (s.cell ch .put) (slotBytesOf slot))))) := by
  have hg : (s.readIndex (.prod ch) ch .put).view (.prod ch) ch .get = s.view (.prod ch) ch .get :=
    State.view_readIndex_ne s (.prod ch) ch (by decide)
  unfold execPush
  simp only [State.view_prod_put, hg, occupancy]
  rcases onLegalPort_cases .push ch s _ with ⟨h, e⟩ | ⟨h, e⟩ <;> rw [e]
  · refine .inr ⟨h, ?_⟩
    cases s.isUninit ch <;> cases (s.ch ch).pFault <;>
      cases overCapacity s.cfg ch (s.cell ch .put - s.view (.prod ch) ch .get) <;>
      cases atCapacity s.cfg ch (s.cell ch .put - s.view (.prod ch) ch .get) <;>
      cases s.overwrites ch (s.cell ch .put) <;> simp
  · exact .inl ⟨h, rfl⟩

/-- DRAIN_BEGIN (R160). -/
theorem execDrainBegin_cases (ch : Chan) (s : State) :
    (portFault s.port .drainBegin ch = some .wrongPort ∧
      execDrainBegin ch s = .next (s.recordFault .wrongPort (commandWord .drainBegin ch))) ∨
    (portFault s.port .drainBegin ch = none ∧
      ((s.isUninit ch = true ∧
        execDrainBegin ch s = .next (s.recordFault .useBeforeInit (commandWord .drainBegin ch))) ∨
      (s.isUninit ch = false ∧ (s.ch ch).cDrain = true ∧
        execDrainBegin ch s = .next (s.recordFault .drainSequence (commandWord .drainBegin ch))) ∨
      (s.isUninit ch = false ∧ (s.ch ch).cDrain = false ∧ (s.ch ch).cFault = true ∧
        execDrainBegin ch s = respond .corrupt [] s) ∨
      (s.isUninit ch = false ∧ (s.ch ch).cDrain = false ∧ (s.ch ch).cFault = false ∧
        overCapacity s.cfg ch (s.view (.cons ch) ch .put - s.cell ch .get) = true ∧
        execDrainBegin ch s = respond .corrupt [] ((s.drainReads ch).setCFault ch)) ∨
      (s.isUninit ch = false ∧ (s.ch ch).cDrain = false ∧ (s.ch ch).cFault = false ∧
        overCapacity s.cfg ch (s.view (.cons ch) ch .put - s.cell ch .get) = false ∧
        execDrainBegin ch s = respond .ok [s.view (.cons ch) ch .put - s.cell ch .get]
          ((s.drainReads ch).openDrain ch (s.cell ch .get) (s.view (.cons ch) ch .put))))) := by
  have hp : (s.readIndex (.cons ch) ch .get).view (.cons ch) ch .put = s.view (.cons ch) ch .put :=
    State.view_readIndex_ne s (.cons ch) ch (by decide)
  unfold execDrainBegin
  simp only [State.view_cons_get, hp, occupancy]
  rcases onLegalPort_cases .drainBegin ch s _ with ⟨h, e⟩ | ⟨h, e⟩ <;> rw [e]
  · refine .inr ⟨h, ?_⟩
    cases s.isUninit ch <;> cases (s.ch ch).cDrain <;> cases (s.ch ch).cFault <;>
      cases overCapacity s.cfg ch (s.view (.cons ch) ch .put - s.cell ch .get) <;> simp
  · exact .inl ⟨h, rfl⟩

/-- POP (R161). -/
theorem execPop_cases (ch : Chan) (s : State) :
    (portFault s.port .pop ch = some .wrongPort ∧
      execPop ch s = .next (s.recordFault .wrongPort (commandWord .pop ch))) ∨
    (portFault s.port .pop ch = none ∧
      ((s.isUninit ch = true ∧ execPop ch s = .next (s.recordFault .useBeforeInit (commandWord .pop ch))) ∨
      (s.isUninit ch = false ∧ (s.ch ch).cDrain = false ∧
        execPop ch s = .next (s.recordFault .drainSequence (commandWord .pop ch))) ∨
      (s.isUninit ch = false ∧ (s.ch ch).cDrain = true ∧ (s.ch ch).clGet = (s.ch ch).clLimit ∧
        execPop ch s = respond .empty [] s) ∨
      (s.isUninit ch = false ∧ (s.ch ch).cDrain = true ∧ (s.ch ch).clGet ≠ (s.ch ch).clLimit ∧
        execPop ch s = respond .ok (slotWordsOf (s.nextSlot ch))
          (s.updCh ch fun x => { x with clGet := x.clGet + 1 })))) := by
  unfold execPop
  rcases onLegalPort_cases .pop ch s _ with ⟨h, e⟩ | ⟨h, e⟩ <;> rw [e]
  · refine .inr ⟨h, ?_⟩
    cases s.isUninit ch <;> cases (s.ch ch).cDrain <;>
      by_cases hc : (s.ch ch).clGet = (s.ch ch).clLimit <;> simp [hc]
  · exact .inl ⟨h, rfl⟩

/-- DRAIN_END (R162). -/
theorem execDrainEnd_cases (ch : Chan) (s : State) :
    (portFault s.port .drainEnd ch = some .wrongPort ∧
      execDrainEnd ch s = .next (s.recordFault .wrongPort (commandWord .drainEnd ch))) ∨
    (portFault s.port .drainEnd ch = none ∧
      ((s.isUninit ch = true ∧
        execDrainEnd ch s = .next (s.recordFault .useBeforeInit (commandWord .drainEnd ch))) ∨
      (s.isUninit ch = false ∧ (s.ch ch).cDrain = false ∧
        execDrainEnd ch s = .next (s.recordFault .drainSequence (commandWord .drainEnd ch))) ∨
      (s.isUninit ch = false ∧ (s.ch ch).cDrain = true ∧
        execDrainEnd ch s =
          respond .ok [] ((s.writeIndex (.cons ch) ch .get (s.ch ch).clGet).closeDrain ch)))) := by
  unfold execDrainEnd
  rcases onLegalPort_cases .drainEnd ch s _ with ⟨h, e⟩ | ⟨h, e⟩ <;> rw [e]
  · refine .inr ⟨h, ?_⟩
    cases s.isUninit ch <;> cases (s.ch ch).cDrain <;> simp
  · exact .inl ⟨h, rfl⟩

/-- INIT (R190). -/
theorem execInit_cases (ch : Chan) (s : State) :
    (portFault s.port .init ch = some .wrongPort ∧
      execInit ch s = .next (s.recordFault .wrongPort (commandWord .init ch))) ∨
    (portFault s.port .init ch = none ∧
      (((s.ch ch).cDrain = true ∧ execInit ch s = .next (s.recordFault .notQuiescent (commandWord .init ch))) ∨
      ((s.ch ch).cDrain = false ∧ execInit ch s = respond .ok [] (s.reinit ch)))) := by
  unfold execInit
  rcases onLegalPort_cases .init ch s _ with ⟨h, e⟩ | ⟨h, e⟩ <;> rw [e]
  · refine .inr ⟨h, ?_⟩
    cases (s.ch ch).cDrain <;> simp
  · exact .inl ⟨h, rfl⟩

/-- WAKE_WAIT (R191). -/
theorem execWakeWait_cases (ch : Chan) (s : State) :
    (portFault s.port .wakeWait ch = some .wrongPort ∧
      execWakeWait ch s = .next (s.recordFault .wrongPort (commandWord .wakeWait ch))) ∨
    (portFault s.port .wakeWait ch = none ∧
      ((waitChoice (s.ch ch).wake s.draw = .woken ∧ (s.ch ch).wake = true ∧
        execWakeWait ch s = respond .ok [] ((s.setWaiting s.port false).setWake ch false)) ∨
      (waitChoice (s.ch ch).wake s.draw = .timeout ∧
        execWakeWait ch s = respond .timeout [] (s.setWaiting s.port false)) ∨
      (waitChoice (s.ch ch).wake s.draw = .hold ∧ execWakeWait ch s = Sys2Proof.Machine.hold s))) := by
  have hw : ∀ w d, waitChoice w d = .woken → w = true := by
    intro w d h
    unfold waitChoice at h
    split at h <;> cases w <;> simp_all
  unfold execWakeWait
  rcases onLegalPort_cases .wakeWait ch s _ with ⟨h, e⟩ | ⟨h, e⟩ <;> rw [e]
  · refine .inr ⟨h, ?_⟩
    cases hc : waitChoice (s.ch ch).wake s.draw with
    | woken => exact .inl ⟨rfl, hw _ _ hc, rfl⟩
    | timeout => exact .inr (.inl ⟨rfl, rfl⟩)
    | hold => exact .inr (.inr ⟨rfl, rfl⟩)
  · exact .inl ⟨h, rfl⟩

/-- TRACK (R120). -/
theorem execTrack_cases (ch : Chan) (raw : Word) (s : State) :
    (portFault s.port .track ch = some .wrongPort ∧
      execTrack ch raw s = .next (s.recordFault .wrongPort (commandWord .track ch))) ∨
    (portFault s.port .track ch = none ∧
      execTrack ch raw s = respond .ok (wordsOf64 ((s.ch ch).ts.result raw))
        (s.updCh ch fun x => { x with ts := x.ts.update raw })) := by
  unfold execTrack
  rcases onLegalPort_cases .track ch s _ with ⟨h, e⟩ | ⟨h, e⟩ <;> rw [e]
  · exact .inr ⟨h, rfl⟩
  · exact .inl ⟨h, rfl⟩

/-- TS_RESET (R121). -/
theorem execTsReset_cases (ch : Chan) (s : State) :
    (portFault s.port .tsReset ch = some .wrongPort ∧
      execTsReset ch s = .next (s.recordFault .wrongPort (commandWord .tsReset ch))) ∨
    (portFault s.port .tsReset ch = none ∧
      execTsReset ch s = respond .ok [] (s.updCh ch fun x => { x with ts := x.ts.cleared })) := by
  unfold execTsReset
  rcases onLegalPort_cases .tsReset ch s _ with ⟨h, e⟩ | ⟨h, e⟩ <;> rw [e]
  · exact .inr ⟨h, rfl⟩
  · exact .inl ⟨h, rfl⟩

/-- Every command answers a next state. -/
theorem exec_answers_next (i : Instr) (s : State) : ∃ t, exec i s = .next t := by
  cases i with
  | push ch slot =>
    rcases execPush_cases ch slot s with ⟨-, h⟩ | ⟨-, ⟨-, h⟩ | ⟨-, -, h⟩ | ⟨-, -, -, h⟩ | ⟨-, -, -, -, h⟩ |
      ⟨-, -, -, -, -, h⟩ | ⟨-, -, -, -, -, h⟩⟩ <;> exact ⟨_, h⟩
  | drainBegin ch =>
    rcases execDrainBegin_cases ch s with ⟨-, h⟩ | ⟨-, ⟨-, h⟩ | ⟨-, -, h⟩ | ⟨-, -, -, h⟩ | ⟨-, -, -, -, h⟩ |
      ⟨-, -, -, -, h⟩⟩ <;> exact ⟨_, h⟩
  | pop ch =>
    rcases execPop_cases ch s with ⟨-, h⟩ | ⟨-, ⟨-, h⟩ | ⟨-, -, h⟩ | ⟨-, -, -, h⟩ | ⟨-, -, -, h⟩⟩ <;> exact ⟨_, h⟩
  | drainEnd ch =>
    rcases execDrainEnd_cases ch s with ⟨-, h⟩ | ⟨-, ⟨-, h⟩ | ⟨-, -, h⟩ | ⟨-, -, h⟩⟩ <;> exact ⟨_, h⟩
  | init ch => rcases execInit_cases ch s with ⟨-, h⟩ | ⟨-, ⟨-, h⟩ | ⟨-, h⟩⟩ <;> exact ⟨_, h⟩
  | wakeWait ch =>
    rcases execWakeWait_cases ch s with ⟨-, h⟩ | ⟨-, ⟨-, -, h⟩ | ⟨-, h⟩ | ⟨-, h⟩⟩ <;> exact ⟨_, h⟩
  | track ch raw => rcases execTrack_cases ch raw s with ⟨-, h⟩ | ⟨-, h⟩ <;> exact ⟨_, h⟩
  | tsReset ch => rcases execTsReset_cases ch s with ⟨-, h⟩ | ⟨-, h⟩ <;> exact ⟨_, h⟩

end Sys2Proof.Machine
end

