-- ==== Sys2Proof/Laws/Slots.lean ====
section
/-! SUPPORT. The bytes of a slot image by number (30_encoding.md R97), and the fields of the reference slot (20_memory.md R74). -/

namespace Sys2Proof.Machine

@[simp] theorem slotBytesOf_cons (w : Word) (ws : List Word) :
    slotBytesOf (w :: ws) = leBytes 4 w.toNat ++ slotBytesOf ws := rfl

/-- Byte `k` of a word, counted from the least significant. -/
theorem leBytes_word_getD (w : Word) (k : Nat) (h : k < 4) :
    (leBytes 4 w.toNat).getD k 0 = w.extractLsb' (8 * k) 8 := by
  obtain rfl | rfl | rfl | rfl : k = 0 ∨ k = 1 ∨ k = 2 ∨ k = 3 := by omega
  all_goals
    simp only [leBytes, List.getD_cons_zero, List.getD_cons_succ]
    apply BitVec.eq_of_toNat_eq
    simp [Nat.shiftRight_eq_div_pow, Nat.div_div_eq_div_mul]

/-- Byte `k` of a slot image is where R97 puts it. -/
theorem slotBytesOf_getD (ws : List Word) (k : Nat) (h : k < 4 * ws.length) :
    (slotBytesOf ws).getD k 0 = imageByte ws k := by
  induction ws generalizing k with
  | nil => simp at h
  | cons w ws ih =>
    rw [slotBytesOf_cons]
    by_cases hk : k < 4
    · rw [List.getD_append _ _ _ _ (by simpa using hk), leBytes_word_getD w k hk]
      simp [imageByte, Nat.div_eq_of_lt hk, Nat.mod_eq_of_lt hk]
    · rw [List.getD_append_right _ _ _ _ (by simpa using hk), leBytes_length, ih _ (by simp at h; omega)]
      obtain ⟨j, rfl⟩ := Nat.exists_eq_add_of_le (Nat.le_of_not_lt hk)
      rw [Nat.add_sub_cancel_left, imageByte, imageByte, Nat.add_mod_left,
        Nat.add_div_left _ (by decide), List.getD_cons_succ]

/-- An id read by its own form comes back (R74). -/
@[simp] theorem ArbitrationId.ofWord_word (id : ArbitrationId) : .ofWord id.isExtended id.word = id := by
  cases id <;> simp [ofWord, isExtended, word]

theorem SlotFlags.byte_getLsbD_zero (extended : Bool) (f : SlotFlags) : (f.byte extended).getLsbD 0 = extended := by
  obtain ⟨a, b, c, d, e⟩ := f
  cases extended <;> cases a <;> cases b <;> cases c <;> cases d <;> cases e <;> rfl

@[simp] theorem SlotFlags.ofByte_byte (extended : Bool) (f : SlotFlags) : .ofByte (f.byte extended) = f := by
  obtain ⟨a, b, c, d, e⟩ := f
  cases extended <;> cases a <;> cases b <;> cases c <;> cases d <;> cases e <;> rfl

/-- The agents of two ports are the same only if the ports are (30_encoding.md R90). -/
theorem agentOf_injective {q q' : Port} (h : agentOf q = agentOf q') : q = q' := by
  obtain ⟨r, c⟩ := q
  obtain ⟨r', c'⟩ := q'
  cases r <;> cases r' <;> cases h <;> rfl

/-- A move of a port's agent is a step of that port. -/
theorem Move.eq_port_of_agent {m : Move} {q : Port} (h : m.agent = agentOf q) : ∃ draw, m = .port q draw := by
  cases m with
  | port q' draw => exact ⟨draw, by rw [agentOf_injective h]⟩
  | wakeLoss ch => obtain ⟨r, c⟩ := q; cases r <;> cases h
  | corruptWrite ch addr bytes => obtain ⟨r, c⟩ := q; cases r <;> cases h

end Sys2Proof.Machine
end

