-- ==== Sys2Proof/Laws/Step.lean ====
section
/-! SUPPORT. What a step can do: one inversion lemma for the port side, one for the whole step. -/

namespace Sys2Proof.Machine

theorem decode_cons {n : Nat} {cw : Word} {ops : List Word} {op : Op} {ch : Chan}
    (h : decodeCW cw = .ok (op, ch)) : decode n (cw :: ops) = readOperands n op ch ops := by
  simp [decode, h]

/-- A legal command word is a command, or its operand words have not all arrived. -/
theorem decode_of_decodeCW {n : Nat} {cw : Word} {ops : List Word} {op : Op} {ch : Chan}
    (h : decodeCW cw = .ok (op, ch)) :
    (∃ i rest, decode n (cw :: ops) = .ok (i, rest) ∧ i.op = op ∧ i.chan = ch) ∨
    decode n (cw :: ops) = .error .missingOperands := by
  rw [decode_cons h]
  cases op with
  | push =>
    by_cases hl : ops.length < n
    · exact .inr (by simp [readOperands, hl])
    · exact .inl ⟨.push ch (ops.take n), ops.drop n, by simp [readOperands, hl], rfl, rfl⟩
  | track =>
    cases ops with
    | nil => exact .inr rfl
    | cons raw rest => exact .inl ⟨_, _, rfl, rfl, rfl⟩
  | drainBegin => exact .inl ⟨_, _, rfl, rfl, rfl⟩
  | pop => exact .inl ⟨_, _, rfl, rfl, rfl⟩
  | drainEnd => exact .inl ⟨_, _, rfl, rfl, rfl⟩
  | init => exact .inl ⟨_, _, rfl, rfl, rfl⟩
  | wakeWait => exact .inl ⟨_, _, rfl, rfl, rfl⟩
  | tsReset => exact .inl ⟨_, _, rfl, rfl, rfl⟩

/-- `decode(q, cw)` succeeds exactly on a legal command word on a legal port (30_encoding.md R96). -/
theorem decodeAt_ok (q : Port) (cw : Word) (op : Op) (ch : Chan) :
    decodeAt q cw = .ok (op, ch) ↔ decodeCW cw = .ok (op, ch) ∧ portFault q op ch = none := by
  unfold decodeAt
  cases h : decodeCW cw with
  | error r => simp
  | ok x =>
    obtain ⟨op', ch'⟩ := x
    cases hp : portFault q op' ch' with
    | none =>
      simp only [Except.ok.injEq, Prod.mk.injEq, hp]
      exact ⟨fun ⟨a, b⟩ => ⟨⟨a, b⟩, a ▸ b ▸ hp⟩, fun h => h.1⟩
    | some code =>
      simp only [Except.ok.injEq, Prod.mk.injEq, hp]
      constructor
      · intro h
        cases h
      · rintro ⟨⟨rfl, rfl⟩, h⟩
        rw [hp] at h
        cases h

/-- A step of port `q`: it goes on with its WAKE_WAIT, it has no words, its command word faults, its command runs, or operand words
are still to come. -/
theorem servePort_cases (q : Port) (s : State) :
    ((s.ports.val q).waiting = true ∧ servePort q s = exec (.wakeWait q.chan) s) ∨
    ((s.ports.val q).waiting = false ∧
      (((s.ports.val q).stream = [] ∧ servePort q s = .next s) ∨
      ∃ cw ops, (s.ports.val q).stream = cw :: ops ∧
        ((∃ code, decodeAt q cw = .error code ∧
            servePort q s = .next ((s.consume q (transactionLength s.cfg.slotWords cw)).recordFault code cw)) ∨
        (∃ i rest, decodeAt q cw = .ok (i.op, i.chan) ∧ decode s.cfg.slotWords (cw :: ops) = .ok (i, rest) ∧
            servePort q s = exec i (s.consume q (transactionLength s.cfg.slotWords cw))) ∨
        (∃ op ch, decodeAt q cw = .ok (op, ch) ∧
            decode s.cfg.slotWords (cw :: ops) = .error .missingOperands ∧ servePort q s = .next s)))) := by
  unfold servePort
  cases hw : (s.ports.val q).waiting with
  | true => exact .inl ⟨rfl, rfl⟩
  | false =>
    refine .inr ⟨rfl, ?_⟩
    cases hs : (s.ports.val q).stream with
    | nil => exact .inl ⟨rfl, rfl⟩
    | cons cw ops =>
      refine .inr ⟨cw, ops, rfl, ?_⟩
      simp only [Bool.false_eq_true, if_false, serveWords]
      cases hd : decodeAt q cw with
      | error code => exact .inl ⟨code, rfl, rfl⟩
      | ok x =>
        obtain ⟨op, ch⟩ := x
        rcases decode_of_decodeCW (n := s.cfg.slotWords) (ops := ops) ((decodeAt_ok _ _ _ _).1 hd).1 with
          ⟨i, rest, h, rfl, rfl⟩ | h
        · exact .inr (.inl ⟨i, rest, rfl, h, by rw [h]⟩)
        · exact .inr (.inr ⟨op, ch, rfl, h, by rw [h]⟩)

/-- What a step that answers a next state did. -/
theorem step_cases {s t : State} (h : step s = .next t) :
    s.cfg.legal = true ∧ s.faults = [] ∧
      ((s.schedule = [] ∧ t = s.idle) ∨
      (∃ q d rest, s.schedule = .port q d :: rest ∧
        servePort q (({ s with schedule := rest } : State).select q d) = .next t) ∨
      (∃ ch rest, s.schedule = .wakeLoss ch :: rest ∧ envWakeLoss ch { s with schedule := rest } = .next t) ∨
      (∃ ch addr bytes rest, s.schedule = .corruptWrite ch addr bytes :: rest ∧
        envCorruptWrite ch addr bytes { s with schedule := rest } = .next t)) := by
  unfold step at h
  by_cases hl : s.cfg.legal = true
  · by_cases hf : s.faults = []
    · refine ⟨hl, hf, ?_⟩
      rw [if_pos hl, if_pos hf] at h
      unfold runSchedule at h
      cases hs : s.schedule with
      | nil =>
        rw [hs] at h
        exact .inl ⟨rfl, by simpa using h.symm⟩
      | cons m rest =>
        rw [hs] at h
        cases m with
        | port q d => exact .inr (.inl ⟨q, d, rest, rfl, h⟩)
        | wakeLoss ch => exact .inr (.inr (.inl ⟨ch, rest, rfl, h⟩))
        | corruptWrite ch addr bytes => exact .inr (.inr (.inr ⟨ch, addr, bytes, rest, rfl, h⟩))
    · rw [if_pos hl, if_neg hf] at h
      cases h
  · rw [if_neg hl] at h
    cases h

end Sys2Proof.Machine
end

