-- ==== Sys2Proof/Machine/Assembler.lean ====
section
/-! DEFINITION. The command line of 30_encoding.md R101, `<port>: <MNEMONIC>.<CH> [operand] ; comment`, read from text and turned
into the words sent. TRY_PUSH and WAIT_DATA are the aliases of R102. -/

namespace Sys2Proof.Machine

/-- The operand of a line (R101). -/
inductive LineOperand where
  | none
  | slotName (name : List Char)
  | literal (v : Nat)
deriving DecidableEq, Repr

/-- A line's parts. -/
structure Line where
  port : Port
  op : Op
  chan : Chan
  operand : LineOperand
deriving DecidableEq, Repr

/-- The text before and after the first `c`; `none` if there is no `c`. -/
def cutAt (c : Char) : List Char → Option (List Char × List Char)
  | [] => .none
  | x :: xs => if x = c then some ([], xs) else (cutAt c xs).map fun (a, b) => (x :: a, b)

/-- Text without the spaces at its two ends. -/
def trimSpaces (t : List Char) : List Char :=
  ((t.dropWhile (· = ' ')).reverse.dropWhile (· = ' ')).reverse

def portOfText : List Char → Option Port
  | ['P', '_', 'R', 'X'] => some .pRX
  | ['C', '_', 'R', 'X'] => some .cRX
  | ['P', '_', 'T', 'X'] => some .pTX
  | ['C', '_', 'T', 'X'] => some .cTX
  | _ => .none

def chanOfText : List Char → Option Chan
  | ['R', 'X'] => some .rx
  | ['T', 'X'] => some .tx
  | _ => .none

/-- R92's mnemonics and R102's aliases. -/
def opOfText : List Char → Option Op
  | ['P', 'U', 'S', 'H'] => some .push
  | ['T', 'R', 'Y', '_', 'P', 'U', 'S', 'H'] => some .push
  | ['D', 'R', 'A', 'I', 'N', '_', 'B', 'E', 'G', 'I', 'N'] => some .drainBegin
  | ['P', 'O', 'P'] => some .pop
  | ['D', 'R', 'A', 'I', 'N', '_', 'E', 'N', 'D'] => some .drainEnd
  | ['I', 'N', 'I', 'T'] => some .init
  | ['W', 'A', 'K', 'E', '_', 'W', 'A', 'I', 'T'] => some .wakeWait
  | ['W', 'A', 'I', 'T', '_', 'D', 'A', 'T', 'A'] => some .wakeWait
  | ['T', 'R', 'A', 'C', 'K'] => some .track
  | ['T', 'S', '_', 'R', 'E', 'S', 'E', 'T'] => some .tsReset
  | _ => .none

/-- A digit's value. -/
def digitValue (c : Char) : Option Nat :=
  let n := c.toNat
  if 48 ≤ n ∧ n ≤ 57 then some (n - 48)
  else if 65 ≤ n ∧ n ≤ 70 then some (n - 55)
  else if 97 ≤ n ∧ n ≤ 102 then some (n - 87)
  else .none

/-- Digits in a base, after the value `acc` of the digits before them. -/
def numberFrom (base acc : Nat) : List Char → Option Nat
  | [] => some acc
  | c :: cs =>
    match digitValue c with
    | some d => if d < base then numberFrom base (acc * base + d) cs else .none
    | .none => .none

/-- A u32 literal, decimal or 0x-hex (R101). -/
def literalOfText : List Char → Option Nat
  | [] => .none
  | '0' :: 'x' :: [] => .none
  | '0' :: 'x' :: ds => numberFrom 16 0 ds
  | ds => numberFrom 10 0 ds

/-- The operand of an operation (R101): a slot name for PUSH, a u32 literal for TRACK, nothing otherwise. -/
def operandOfText (op : Op) (t : List Char) : Option LineOperand :=
  match op, t with
  | .push, [] => .none
  | .push, name => some (.slotName name)
  | .track, ds => (literalOfText ds).bind fun v => if v < 2 ^ 32 then some (.literal v) else .none
  | _, [] => some .none
  | _, _ => .none

/-- Reads a line (R101). -/
def parseLine (text : List Char) : Option Line :=
  let body := (cutAt ';' text).elim text Prod.fst
  (cutAt ':' body).bind fun (portText, afterPort) =>
  (cutAt '.' (trimSpaces afterPort)).bind fun (opText, afterOp) =>
  let (chanText, operandText) := (cutAt ' ' afterOp).getD (afterOp, [])
  (portOfText (trimSpaces portText)).bind fun port =>
  (opOfText opText).bind fun op =>
  (chanOfText chanText).bind fun ch =>
  (operandOfText op (trimSpaces operandText)).map fun operand => ⟨port, op, ch, operand⟩

/-- The image a slot name stands for. -/
def lookupImage (name : List Char) : List (List Char × List Byte) → Option (List Byte)
  | [] => .none
  | (n, image) :: rest => if n = name then some image else lookupImage name rest

/-- The port and the words a line sends (R101). A slot image must have SLOT_BYTES bytes. -/
def assemble (cfg : Config) (images : List (List Char × List Byte)) (l : Line) : Option (Port × List Word) :=
  match l.op, l.operand with
  | .push, .slotName name =>
    (lookupImage name images).bind fun image =>
      if image.length = cfg.slotBytes then some (l.port, commandWord l.op l.chan :: slotWordsOf image) else .none
  | .track, .literal v => some (l.port, [commandWord l.op l.chan, BitVec.ofNat 32 v])
  | .push, _ => .none
  | .track, _ => .none
  | op, .none => some (l.port, [commandWord op l.chan])
  | _, _ => .none

end Sys2Proof.Machine
end

