-- ==== Sys2Proof/Tests/Slice0.lean ====
section
/-! SUPPORT. Tests of the model against the spec's own words and vectors (95_test_vectors.md), the WellFormed smoke tests, and one
witness for the hypotheses of every statement. -/

namespace Sys2Proof.Tests

open Sys2Proof.Machine

/-! ### Helpers -/

/-- The state a step or a command answers, if it answers one. -/
def after : Result → Option State
  | .next t => some t
  | .fault _ => none
  | .refused _ => none

/-- Small slots: two words, timestampRaw in the second. -/
def cfg8 (cap : Nat) : Config := { Config.reference with cap := ⟨cap, cap⟩, slotBytes := 8 }

/-- A READY channel with the given indices and nothing else; both channels have `cap` slots of two words. -/
def ring (cap : Nat) (ch : Chan) (put get : Word) : State :=
  { State.reset with
    cfg := cfg8 cap
    mem := Memory.writeWord (Memory.writeWord [] ((cfg8 cap).cellAddr ch .put) put) ((cfg8 cap).cellAddr ch .get) get
    chan := State.reset.chan.set ch { State.reset.ch ch with chState := .ready } }

/-- `s` with a command running on port `q`. -/
def on (q : Port) (s : State) : State := { s with port := q }

/-- `s` with the words `ws` waiting at port `q`, and that port to step next. -/
def fed (q : Port) (ws : List Word) (s : State) : State := s.placeTransaction q ws

def cap4 : State := ring 4 .rx 0 0

/-- PU-15's state: PUT 4, HIST GET = [0, 4], the producer has seen only the first entry. -/
def stale : State :=
  { (ring 4 .rx 4 4).updCh .rx fun x =>
      { x with older := ⟨[], [0]⟩, front := { x.front with cons := ⟨⟨0, 1⟩, ⟨0, 0⟩⟩ } } with
    schedule := [.port .cRX 0] }

/-- DR-14's state: a drain open at index 2 of 3, with S2 = (1, 2) in slot 2. -/
def draining : State :=
  ((ring 4 .rx 3 0).slotWrite .rx 2 (slotBytesOf [1, 2])).updCh .rx fun x =>
    { x with cDrain := true, clGet := 2, clLimit := 3 }

/-- A PUSH of slot image (5, 6) has run on an empty ring at index 0xFFFFFFFF: PUT is 0. -/
def pushedOnce : State :=
  { ((ring 4 .rx 0 0xFFFFFFFF).slotWrite .rx 3 (slotBytesOf [5, 6])).updCh .rx fun x =>
      { x with older := ⟨[0xFFFFFFFF], []⟩, front := { x.front with cons := ⟨⟨1, 0⟩, ⟨0, 0⟩⟩ } } with
    port := .cRX
    schedule := [.port .cRX 0] }

/-- The same with a drain open on that index. -/
def pushedDraining : State :=
  pushedOnce.updCh .rx fun x => { x with cDrain := true, clGet := 0xFFFFFFFF, clLimit := 0 }

/-- A WAKE_WAIT outstanding on C_RX. -/
def waiting : State := { State.reset.setWaiting .cRX true with schedule := [.port .cRX 1] }

/-! ### WellFormed smoke: an ill-formed term for each check -/

theorem test_wellFormed_push : (Instr.push .rx [1, 2]).wellFormed 2 = true := by decide
theorem test_illFormed_push_short : (Instr.push .rx [1]).wellFormed 2 = false := by decide
theorem test_illFormed_push_long : (Instr.push .rx [1, 2, 3]).wellFormed 2 = false := by decide
theorem test_config_reference_legal : Config.reference.legal = true := by decide
theorem test_config_cap_zero : (cfg8 0).legal = false := by decide
theorem test_config_cap_too_big : { Config.reference with cap := ⟨4, 2 ^ 32⟩ }.legal = false := by decide
theorem test_config_cap_largest :
    { Config.reference with cap := ⟨1, 2 ^ 32 - 1⟩, base := ⟨0x1000, 0x2000⟩ }.legal = true := by decide
theorem test_config_slot_misaligned : { Config.reference with slotBytes := 78 }.legal = false := by decide
theorem test_config_offset_misaligned : { Config.reference with tsOffset := 6 }.legal = false := by decide
theorem test_config_offset_outside : { Config.reference with tsOffset := 76 }.legal = false := by decide
theorem test_config_base_misaligned : { Config.reference with base := ⟨0x1002, 0x2000⟩ }.legal = false := by decide
theorem test_config_overlap : { Config.reference with base := ⟨0x1000, 0x1134⟩ }.legal = false := by decide
theorem test_config_adjacent : { Config.reference with base := ⟨0x1000, 0x1138⟩ }.legal = true := by decide

/-! ### Decoding: words written out from R91 and R92 (DE-1 to DE-13) -/

theorem test_decode_push_tx : decode 2 [0b10001, 7, 8, 9] = .ok (.push .tx [7, 8], [9]) := by decide
theorem test_decode_drainBegin_rx : decode 19 [0b00010] = .ok (.drainBegin .rx, []) := by decide
theorem test_decode_pop_tx : decode 19 [0b10011] = .ok (.pop .tx, []) := by decide
theorem test_decode_drainEnd_rx : decode 19 [0b00100] = .ok (.drainEnd .rx, []) := by decide
theorem test_decode_init_rx : decode 19 [0b00101] = .ok (.init .rx, []) := by decide
theorem test_decode_wakeWait_tx : decode 19 [0b10110] = .ok (.wakeWait .tx, []) := by decide
theorem test_decode_track_rx : decode 19 [0b00111, 0x3E8, 4] = .ok (.track .rx 1000, [4]) := by decide
theorem test_decode_tsReset_rx : decode 19 [0b01000] = .ok (.tsReset .rx, []) := by decide
theorem test_decode_push_rx_table : decodeTableWord 32 0x1 = some (.push .rx (List.replicate 19 0)) := by decide
theorem test_decode_reserved_op :
    decodeAt .cRX 0 = .error .illegalCmd ∧ decodeAt .cRX 0x9 = .error .illegalCmd ∧
    decodeAt .cRX 0xF = .error .illegalCmd ∧ decodeAt .cRX 0x10 = .error .illegalCmd ∧
    decodeAt .cRX 0x19 = .error .illegalCmd ∧ decodeAt .cRX 0x1F = .error .illegalCmd := by decide
theorem test_decode_reserved_bits :
    decodeAt .pTX 0x21 = .error .illegalCmd ∧
    decodeAt .pTX 0x80000007 = .error .illegalCmd ∧
    decodeAt .pTX 0xFFFFFFFF = .error .illegalCmd := by decide
theorem test_decode_wrong_port :
    decodeAt .pRX 0x11 = .error .wrongPort ∧ decodeAt .pRX 0x02 = .error .wrongPort ∧
    decodeAt .pRX 0x12 = .error .wrongPort ∧ decodeAt .cRX 0x01 = .error .wrongPort ∧
    decodeAt .pTX 0x17 = .error .wrongPort := by decide
theorem test_decode_right_port :
    decodeAt .pTX 0x11 = .ok (.push, .tx) ∧ decodeAt .pRX 0x05 = .ok (.init, .rx) ∧
    decodeAt .cTX 0x15 = .ok (.init, .tx) ∧ decodeAt .cTX 0x18 = .ok (.tsReset, .tx) := by decide

/-! ### One step per instruction -/

/-- PU-1. -/
theorem test_push_empty :
    (after (exec (.push .rx [0xA, 0x01020304]) (on .pRX cap4))).map
      (fun t => (t.response, t.slotRead .rx 0, t.cell .rx .put, (t.ch .rx).wake)) =
    some (some ⟨.pRX, .ok, []⟩, [0xA, 0, 0, 0, 4, 3, 2, 1], 1, true) := by decide

/-- PU-14: the slot holds an unread index. -/
theorem test_push_overwrite_faults :
    (after (exec (.push .rx [1, 2]) (on .pRX (ring 6 .rx 2 0xFFFFFFFE)))).map (·.faults.map FaultRecord.triple) =
    some [(6, .pRX, 0x1)] := by decide

/-- DR-3's DRAIN_BEGIN: across the wrap. -/
theorem test_drainBegin_wrap :
    (after (exec (.drainBegin .rx) (on .cRX (ring 4 .rx 1 0xFFFFFFFE)))).map
      (fun t => (t.response, (t.ch .rx).clGet, (t.ch .rx).clLimit, (t.ch .rx).cDrain)) =
    some (some ⟨.cRX, .ok, [3]⟩, 0xFFFFFFFE, 1, true) := by decide

/-- DR-4. -/
theorem test_drainBegin_corrupt :
    (after (exec (.drainBegin .rx) (on .cRX (ring 4 .rx 10 0)))).map
      (fun t => (t.response, (t.ch .rx).cFault, (t.ch .rx).cDrain)) =
    some (some ⟨.cRX, .corrupt, []⟩, true, false) := by decide

/-- DR-14. -/
theorem test_pop_slot :
    (after (exec (.pop .rx) (on .cRX draining))).map (fun t => (t.response, (t.ch .rx).clGet, t.cell .rx .get)) =
    some (some ⟨.cRX, .ok, [1, 2]⟩, 3, 0) := by decide

/-- DR-13, 3 = FLT_USE_BEFORE_INIT. -/
theorem test_pop_uninit :
    (after (exec (.pop .rx) (on .cRX State.reset))).map (·.faults.map FaultRecord.triple) = some [(3, .cRX, 0x3)] := by decide

/-- DR-10's DRAIN_END: only what was popped is released. -/
theorem test_drainEnd :
    (after (exec (.drainEnd .rx) (on .cRX draining))).map
      (fun t => (t.response, t.cell .rx .get, t.cell .rx .put, t.hist .rx .get, (t.ch .rx).cDrain)) =
    some (some ⟨.cRX, .ok, []⟩, 2, 3, [0, 2], false) := by decide

/-- DR-7. -/
theorem test_drainEnd_no_drain :
    (after (exec (.drainEnd .rx) (on .cRX cap4))).map (·.faults.map FaultRecord.triple) = some [(4, .cRX, 0x4)] := by decide

/-- IW-3: INIT from the producer port right after power-on. -/
theorem test_init_powerOn :
    (after (exec (.init .rx) (on .pRX { State.reset with
      mem := Memory.writeWord (Memory.writeWord [] 0x1000 0x1234) 0x1004 0x9 }))).map
      (fun t => (t.cell .rx .get, t.cell .rx .put, (t.ch .rx).chState)) = some (0x1234, 0x1234, .ready) := by decide

/-- IW-2. -/
theorem test_init_in_drain :
    (after (exec (.init .rx) (on .cRX draining))).map (fun t => (t.faults.map FaultRecord.triple, (t.ch .rx).cDrain)) =
    some ([(5, .cRX, 0x5)], true) := by decide

/-- IW-6, WOKEN. -/
theorem test_wakeWait_woken :
    (after (exec (.wakeWait .rx) { on .cRX (cap4.setWake .rx true) with draw := 0 })).map
      (fun t => (t.response, (t.ch .rx).wake)) = some (some ⟨.cRX, .ok, []⟩, false) := by decide

/-- IW-7: with WAKE 0 the same draw gives TIMEOUT. -/
theorem test_wakeWait_timeout :
    (after (exec (.wakeWait .rx) { on .cRX cap4 with draw := 0 })).map (·.response) =
    some (some ⟨.cRX, .timeout, []⟩) := by decide

/-- TS-9, TS-11 and TS-13: the non-mutating branch at delta = 2^31, its high word below 0, and the wrap of TS_HIGH. -/
theorem test_track_branches :
    (let t : Tracker := ⟨true, 0x80000000, 2⟩; (t.result 0, t.update 0)) = (0x100000000, ⟨true, 0x80000000, 2⟩) ∧
    (let t : Tracker := ⟨true, 0x7FFFFFFF, 0⟩; (t.result 0xFFFFFFFF, t.update 0xFFFFFFFF)) =
      (0xFFFFFFFFFFFFFFFF, ⟨true, 0x7FFFFFFF, 0⟩) ∧
    (let t : Tracker := ⟨true, 0xFFFFFFF0, 0xFFFFFFFF⟩; (t.result 0x10, t.update 0x10)) = (0x10, ⟨true, 0x10, 0⟩) := by
  decide

/-- The example of R120: the wrap branch, low word first. -/
theorem test_track_wrap :
    (after (exec (.track .rx 0) (on .cRX (cap4.updCh .rx fun x => { x with ts := ⟨true, 0xFFFFFFFF, 0⟩ })))).map
      (fun t => (t.response.map Response.words, (t.ch .rx).ts)) = some (some [0, 0, 1], ⟨true, 0, 1⟩) := by decide

/-- TS-16's TS_RESET. -/
theorem test_tsReset :
    (after (exec (.tsReset .rx) (on .cRX (cap4.updCh .rx fun x => { x with ts := ⟨true, 0xA, 3⟩ })))).map
      (fun t => (t.response, (t.ch .rx).ts)) = some (some ⟨.cRX, .ok, []⟩, ⟨false, 0xA, 0⟩) := by decide

/-! ### Steps -/

/-- The first step after reset with INIT.TX placed. -/
theorem test_step_init_after_reset :
    (after (step (State.reset.withFetchWord 32 0x15))).map (fun t => (t.response, (t.ch .tx).chState, t.faults)) =
    some (some ⟨.cTX, .ok, []⟩, .ready, []) := by decide

/-- A PUSH placed after reset runs as PUSH, and its meaning is the fault of a channel not initialised (PU-8). -/
theorem test_step_push_after_reset :
    (after (step (State.reset.withFetchWord 32 0x1))).map
      (fun t => (t.faults.map FaultRecord.triple, (t.ports.val .pRX).stream)) = some ([(3, .pRX, 0x1)], []) := by decide

/-- IW-10: ENV writes GET. -/
theorem test_step_corruptWrite :
    (after (step { cap4 with
      cfg := { cfg8 4 with envMayCorrupt := true }
      schedule := [.corruptWrite .rx 0x1004 [5, 0, 0, 0]] })).map (fun t => (t.hist .rx .get, t.hist .rx .put)) =
    some ([0, 5], [0]) := by decide

/-- A transaction that has not wholly arrived gives its agent no step (R90, log 5). -/
theorem test_step_waits_for_operands :
    (after (step (fed .cRX [0x7] cap4))).map (fun t => (t.response, (t.ports.val .cRX).stream)) =
    some (none, [0x7]) := by decide

/-! ### Text, slots and expansions -/

theorem test_assemble_track :
    (parseLine ("C_RX: TRACK.RX 1000  ; first".toList)).bind (assemble .reference []) = some (.cRX, [0x7, 0x3E8]) := by decide
theorem test_assemble_push :
    (parseLine ("P_TX: TRY_PUSH.TX S0".toList)).bind (assemble (cfg8 4) [(['S', '0'], [1, 0, 0, 0, 2, 0, 0, 0])]) =
    some (.pTX, [0x11, 1, 2]) := by decide
/-- F(2, 3000) of 95_test_vectors.md §0. -/
theorem test_slot_pack :
    (slotWordsOf (SlotFields.pack ⟨.rx, ⟨false, false, false, false, false⟩, 8, 3000, .base 0x102,
      List.replicate 8 2⟩)).take 6 = [0x00080000, 0x00000BB8, 0x00000102, 0x02020202, 0x02020202, 0] := by decide
/-- An extended id keeps bits 28:0, a base id bits 10:0, and DLC 2 leaves two payload bytes (R74). -/
theorem test_slot_read :
    ArbitrationId.ofWord true 0xFFFFFFFF = .extended 0x1FFFFFFF ∧ ArbitrationId.ofWord false 0xFFFFFFFF = .base 0x7FF ∧
    payloadOf 2 [1, 2, 3] = [1, 2] := by decide
theorem test_dlc_length : dlcLength 8 = 8 ∧ dlcLength 9 = 12 ∧ dlcLength 15 = 64 := by decide

/-! ### Witnesses: states and operands that meet the hypotheses of each statement -/

theorem forall_chan {P : Chan → Prop} (h : P .rx ∧ P .tx) : ∀ ch, P ch := fun ch => by
  cases ch
  · exact h.1
  · exact h.2

theorem forall_port {P : Port → Prop} (h : P .pRX ∧ P .cRX ∧ P .pTX ∧ P .cTX) : ∀ q, P q := fun q => by
  obtain ⟨r, c⟩ := q
  cases r <;> cases c
  exacts [h.1, h.2.2.1, h.2.1, h.2.2.2]

theorem witness_DecodeInvertsEncode :
    (Instr.push .tx [1, 2]).wellFormed 2 = true ∧
    decode 2 (encode (.push .tx [1, 2]) ++ [3]) = .ok (.push .tx [1, 2], [3]) := by decide

theorem witness_EveryWordIsLegalOrFaults :
    (0x10 : Word).toNat % 16 = 0 ∧ 9 ≤ (0x9 : Word).toNat % 16 ∧ 9 ≤ (0xF : Word).toNat % 16 := by decide

/-- The five fields of DecodeChecksInOrder: reserved bits, reserved OP, wrong channel, wrong role, legal. -/
theorem witness_DecodeChecksInOrder :
    (0x21 : Word).toNat / 32 ≠ 0 ∧ (0x9 : Word).toNat % 16 = 9 ∧ (0x11 : Word).toNat / 16 % 2 ≠ Port.pRX.chan.bit ∧
    ((0x1 : Word).toNat % 16 = 1 ∧ Port.cRX.role = .consumer) ∧
    ((0x15 : Word).toNat / 32 = 0 ∧ (0x15 : Word).toNat % 16 = 5 ∧ (0x15 : Word).toNat / 16 % 2 = Port.pTX.chan.bit) := by
  decide

theorem witness_TransactionLengthFollowsOpcode :
    (Instr.push .rx [1, 2]).wellFormed 2 = true ∧ fieldOp 0xFFFFFFF1 = fieldOp (commandWord .push .rx) := by decide

def fedInit : State := fed .cTX [0x15, 0x6] State.reset

theorem witness_StepRunsDecodedCommand :
    fedInit.cfg.legal = true ∧ fedInit.faults = [] ∧ fedInit.schedule = [.port .cTX 0] ∧
    (fedInit.ports.val .cTX).waiting = false ∧
    decode fedInit.cfg.slotWords (fedInit.ports.val .cTX).stream = .ok (.init .tx, [0x6]) := by decide

def fedIllegal : State := fed .pTX [0x21] State.reset
def fedWrongPort : State := fed .pTX [0x17, 5] State.reset

theorem witness_StepRecordsDecodeFault :
    (fedIllegal.cfg.legal = true ∧ fedIllegal.faults = [] ∧ fedIllegal.schedule = [.port .pTX 0] ∧
      (fedIllegal.ports.val .pTX).waiting = false ∧ (fedIllegal.ports.val .pTX).stream = [0x21] ∧
      decodeAt .pTX 0x21 = .error .illegalCmd) ∧
    (fedWrongPort.cfg.legal = true ∧ fedWrongPort.faults = [] ∧ fedWrongPort.schedule = [.port .pTX 0] ∧
      (fedWrongPort.ports.val .pTX).waiting = false ∧ (fedWrongPort.ports.val .pTX).stream = [0x17, 5] ∧
      decodeAt .pTX 0x17 = .error .wrongPort) := by decide

theorem witness_OutstandingWaitHoldsItsPort :
    waiting.cfg.legal = true ∧ waiting.faults = [] ∧ waiting.schedule = [.port ⟨.consumer, .rx⟩ 1] ∧
    (waiting.ports.val ⟨.consumer, .rx⟩).waiting = true := by decide

def halted : State := { State.reset with faults := [⟨.wrongPort, .pRX, 0x2⟩] }

theorem witness_FaultRecordsItselfAndHalts :
    (∃ t, exec (.pop .rx) (on .cRX State.reset) = .next t ∧ t.faults ≠ (on .cRX State.reset).faults) ∧
    (∃ t, exec (.init .rx) (on .cRX halted) = .next t ∧ (⟨.wrongPort, .pRX, 0x2⟩ : FaultRecord) ∈ halted.faults) ∧
    (∃ t, step fedIllegal = .next t ∧ t.faults ≠ fedIllegal.faults) ∧
    (halted.cfg.legal = true ∧ halted.faults ≠ []) :=
  ⟨⟨_, rfl, by decide⟩, ⟨_, rfl, by decide⟩, ⟨_, rfl, by decide⟩, by decide⟩

/-- Each of R214's faults is the first that applies somewhere, and no fault applies somewhere. -/
theorem witness_CommandFaultsInCheckOrder :
    faultOf (.pop .tx) (on .cRX State.reset) = some .wrongPort ∧
    faultOf (.push .rx [1, 2]) (on .pRX State.reset) = some .useBeforeInit ∧
    faultOf (.drainBegin .rx) (on .cRX draining) = some .drainSequence ∧
    faultOf (.pop .rx) (on .cRX cap4) = some .drainSequence ∧
    faultOf (.init .rx) (on .pRX draining) = some .notQuiescent ∧
    faultOf (.push .rx [1, 2]) (on .pRX (ring 3 .rx 0 0xFFFFFFFF)) = some .slotOverwrite ∧
    faultOf (.push .rx [1, 2]) (on .pRX cap4) = none := by decide

theorem witness_IllegalConfigurationHasNoRun :
    step { State.reset with cfg := cfg8 0 } = .refused .illegalConfig ∧ (after (step State.reset)).isSome = true :=
  ⟨rfl, by decide⟩

/-- An empty ring, and one with CAP − 1 slots taken across the wrap. -/
theorem witness_PushStoresPublishesAndWakes :
    ∀ s ∈ [on .pRX cap4, on .pRX (ring 4 .rx 1 0xFFFFFFFE)],
      s.cfg.legal = true ∧ [(1 : Word), 2].length = s.cfg.slotWords ∧ s.port = ⟨.producer, .rx⟩ ∧
      (s.ch .rx).chState = .ready ∧ (s.ch .rx).pFault = false ∧
      (s.cell .rx .put - s.view (.prod .rx) .rx .get).toNat < s.cfg.cap.val .rx ∧
      s.overwrites .rx (s.cell .rx .put) = false := by
  simp only [List.mem_cons, List.not_mem_nil, or_false, forall_eq_or_imp, forall_eq]
  decide

def full : State := on .pRX (ring 4 .rx 4 0)

theorem witness_PushOnFullRingChangesNothing :
    (full.cfg.legal = true ∧ [(1 : Word), 2].length = full.cfg.slotWords ∧ full.port = ⟨.producer, .rx⟩ ∧
      (full.ch .rx).chState = .ready ∧ (full.ch .rx).pFault = false ∧
      (full.cell .rx .put - full.view (.prod .rx) .rx .get).toNat = full.cfg.cap.val .rx) ∧
    ∃ t, exec (.push .rx [1, 2]) (on .pRX (ring 4 .rx 3 0)) = .next t ∧ t.response = some ⟨.pRX, .ok, []⟩ :=
  ⟨by decide, ⟨_, rfl, by decide⟩⟩

/-- PU-6 (occupancy CAP + 1), and PU-7 (PFAULT set). -/
theorem witness_PushReportsCorruption :
    (let s := on .pRX (ring 4 .rx 9 4)
     s.port = ⟨.producer, .rx⟩ ∧ (s.ch .rx).chState = .ready ∧ (s.ch .rx).pFault = false ∧
      s.cfg.cap.val .rx < (s.cell .rx .put - s.view (.prod .rx) .rx .get).toNat) ∧
    (let s := on .pRX (cap4.setPFault .rx)
     s.port = ⟨.producer, .rx⟩ ∧ (s.ch .rx).chState = .ready ∧ (s.ch .rx).pFault = true) := by decide

/-- A capacity that divides 2^32, one that does not with the check silent (PU-13) and one with the check firing (PU-14). -/
theorem witness_OverwriteOnlyAcrossTheWrap :
    ((ring 4 .rx 1 0xFFFFFFFE).cfg.legal = true ∧ ((ring 4 .rx 1 0xFFFFFFFE).occupied .rx).toNat < 4 ∧ 2 ^ 32 % 4 = 0) ∧
    ((ring 6 .rx 1 0xFFFFFFFE).cfg.legal = true ∧ ((ring 6 .rx 1 0xFFFFFFFE).occupied .rx).toNat < 6) ∧
    ((ring 6 .rx 2 0xFFFFFFFE).cfg.legal = true ∧ ((ring 6 .rx 2 0xFFFFFFFE).occupied .rx).toNat < 6 ∧
      (ring 6 .rx 2 0xFFFFFFFE).overwrites .rx 2 = true) := by decide

/-- DR-2 (COUNT 0) and DR-12 (COUNT = CAP). -/
theorem witness_DrainBeginSamplesIndices :
    ∀ s ∈ [on .cRX (ring 4 .rx 7 7), on .cRX (ring 4 .rx 4 0)],
      s.port = ⟨.consumer, .rx⟩ ∧ (s.ch .rx).chState = .ready ∧ (s.ch .rx).cDrain = false ∧ (s.ch .rx).cFault = false ∧
      (s.view (.cons .rx) .rx .put - s.cell .rx .get).toNat ≤ s.cfg.cap.val .rx := by
  simp only [List.mem_cons, List.not_mem_nil, or_false, forall_eq_or_imp, forall_eq]
  decide

/-- DR-4's and DR-5's DRAIN_BEGIN. -/
theorem witness_DrainBeginReportsCorruption :
    (let s := on .cRX (cap4.setCFault .rx)
     s.port = ⟨.consumer, .rx⟩ ∧ (s.ch .rx).chState = .ready ∧ (s.ch .rx).cDrain = false ∧ (s.ch .rx).cFault = true) ∧
    (let s := on .cRX (ring 4 .rx 5 0)
     s.port = ⟨.consumer, .rx⟩ ∧ (s.ch .rx).chState = .ready ∧ (s.ch .rx).cDrain = false ∧ (s.ch .rx).cFault = false ∧
      s.cfg.cap.val .rx < (s.view (.cons .rx) .rx .put - s.cell .rx .get).toNat) := by decide

def drained : State := on .cRX (draining.updCh .rx fun x => { x with clGet := 3 })

theorem witness_PopTakesNextSlot :
    (let s := on .cRX draining
     s.cfg.legal = true ∧ s.port = ⟨.consumer, .rx⟩ ∧ (s.ch .rx).chState = .ready ∧ (s.ch .rx).cDrain = true ∧
      (s.ch .rx).clGet ≠ (s.ch .rx).clLimit) ∧
    (drained.cfg.legal = true ∧ drained.port = ⟨.consumer, .rx⟩ ∧ (drained.ch .rx).chState = .ready ∧
      (drained.ch .rx).cDrain = true ∧ (drained.ch .rx).clGet = (drained.ch .rx).clLimit) := by decide

theorem witness_DrainEndPublishesOnce :
    let s := on .cRX draining
    s.port = ⟨.consumer, .rx⟩ ∧ (s.ch .rx).chState = .ready ∧ (s.ch .rx).cDrain = true := by decide

/-- COUNT 0, and COUNT = CAP across the wrap; a DRAIN_BEGIN that returns OK at CAP (DR-12). -/
theorem witness_DrainDeliversCount :
    (∀ x ∈ [(on .cRX (ring 4 .rx 7 7), 0), (on .cRX (ring 4 .rx 2 0xFFFFFFFE), 4)],
      x.1.cfg.legal = true ∧ x.1.port = ⟨.consumer, .rx⟩ ∧ (x.1.ch .rx).chState = .ready ∧
      (x.1.ch .rx).cDrain = false ∧ (x.1.ch .rx).cFault = false ∧
      x.2 = (x.1.view (.cons .rx) .rx .put - x.1.cell .rx .get).toNat ∧ x.2 ≤ x.1.cfg.cap.val .rx) ∧
    ∃ t, exec (.drainBegin .rx) (on .cRX (ring 4 .rx 4 0)) = .next t ∧ t.response = some ⟨.cRX, .ok, [4]⟩ := by
  refine ⟨?_, _, rfl, by decide⟩
  simp only [List.mem_cons, List.not_mem_nil, or_false, forall_eq_or_imp, forall_eq]
  decide

/-- INIT from either port. -/
theorem witness_InitSynchronisesChannel :
    ((on .pTX (ring 4 .tx 2 0)).port.chan = .tx ∧ ((on .pTX (ring 4 .tx 2 0)).ch .tx).cDrain = false) ∧
    ((on .cRX (ring 4 .rx 7 5)).port.chan = .rx ∧ ((on .cRX (ring 4 .rx 7 5)).ch .rx).cDrain = false) := by decide

theorem witness_WakeWaitCompletes :
    (on .cRX cap4).port = ⟨.consumer, .rx⟩ ∧ waitChoice true 0 = .woken ∧
    (waitChoice false 0 = .timeout ∧ waitChoice true 1 = .timeout) ∧ waitChoice true 2 = .hold := by decide

theorem witness_WakeWaitChoiceIsFree : (on .cRX cap4).port = ⟨.consumer, .rx⟩ := by decide

def loss : State := { cap4 with schedule := [.wakeLoss .rx] }
def corrupting (may : Bool) (addr : Nat) (bytes : List Byte) : State :=
  { cap4 with cfg := { cfg8 4 with envMayCorrupt := may }, schedule := [.corruptWrite .rx addr bytes] }

/-- The segment of RX is [0x1000, 0x1028): the last byte is inside, the next outside. -/
theorem witness_EnvMovesTouchOnlyTheirTargets :
    (loss.cfg.legal = true ∧ loss.faults = [] ∧ loss.schedule = [.wakeLoss .rx]) ∧
    ((corrupting true 0x1026 [1, 2]).cfg.legal = true ∧ (corrupting true 0x1026 [1, 2]).faults = [] ∧
      (corrupting true 0x1026 [1, 2]).schedule = [.corruptWrite .rx 0x1026 [1, 2]] ∧
      (corrupting true 0x1026 [1, 2]).cfg.envMayCorrupt = true ∧
      ∀ a, Within a 0x1026 2 → (corrupting true 0x1026 [1, 2]).cfg.inSegment .rx a = true) ∧
    ¬ ((corrupting true 0x1027 [1, 2]).cfg.envMayCorrupt = true ∧
      ∀ a, Within a 0x1027 2 → (corrupting true 0x1027 [1, 2]).cfg.inSegment .rx a = true) := by
  refine ⟨by decide, ⟨by decide, by decide, by decide, by decide, fun a ha => ?_⟩, fun h => ?_⟩
  · have : a = 0x1026 ∨ a = 0x1027 := by unfold Within at ha; omega
    rcases this with rfl | rfl <;> decide
  · exact absurd (h.2 0x1028 (by unfold Within; omega)) (by decide)

theorem witness_TrackFirstCallTakesSample :
    (on .cRX State.reset).port = ⟨.consumer, .rx⟩ ∧ ((on .cRX State.reset).ch .rx).ts.init = false := by decide

def tracking (last high : Word) : State := on .cRX (cap4.updCh .rx fun x => { x with ts := ⟨true, last, high⟩ })

/-- The four cases of R122 at their bounds, from last = 2^31. -/
theorem witness_TrackBranchesByRelation :
    ((tracking 0x80000000 2).port = ⟨.consumer, .rx⟩ ∧ ((tracking 0x80000000 2).ch .rx).ts = ⟨true, 0x80000000, 2⟩) ∧
    (0x80000000 ≤ (0xFFFFFFFF : Word).toNat ∧ (0xFFFFFFFF : Word).toNat - 0x80000000 < 2 ^ 31) ∧
    ((0 : Word).toNat < 0x80000001 ∧ 2 ^ 31 < 0x80000001 - (0 : Word).toNat) ∧
    (0 < (0x80000000 : Word).toNat ∧ 2 ^ 31 ≤ (0x80000000 : Word).toNat - 0) ∧
    ((0 : Word).toNat < 0x80000000 ∧ 0x80000000 - (0 : Word).toNat ≤ 2 ^ 31) := by decide

theorem witness_TsResetRestartsTracker :
    (on .pRX cap4).port ≠ ⟨.consumer, .rx⟩ ∧ (on .cRX cap4).port = ⟨.consumer, .rx⟩ ∧
    ((on .cRX cap4).ch .rx).ts.init = false ∧ ((on .cRX cap4).ch .rx).ts.high = 0 := by decide

/-- E1's samples as true times. -/
theorem witness_TrackReconstructsElapsedTime :
    (on .cRX cap4).port = ⟨.consumer, .rx⟩ ∧ ((on .cRX cap4).ch .rx).ts.init = false ∧
    ((on .cRX cap4).ch .rx).ts.high = 0 ∧
    [4000000000, 4294967290, 4294967346, 4294968296].IsChain (fun a b => a ≤ b ∧ b < a + 2 ^ 31) ∧
    ∀ t ∈ [4000000000, 4294967290, 4294967346, 4294968296], t < 4000000000 / 2 ^ 32 * 2 ^ 32 + 2 ^ 64 := by
  refine ⟨by decide, by decide, by decide, by simp, by simp⟩

theorem witness_TrackerIsPrivate :
    (Instr.push .rx [1, 2]).op ≠ .track ∧ (Instr.push .rx [1, 2]).op ≠ .tsReset ∧
    ∃ t, exec (.push .rx [1, 2]) (on .pRX cap4) = .next t := ⟨by decide, by decide, _, rfl⟩

theorem witness_ChannelsAreIsolated :
    (on .pRX cap4).cfg.legal = true ∧ (Instr.push .rx [1, 2]).wellFormed (on .pRX cap4).cfg.slotWords = true ∧
    (∃ t, exec (.push .rx [1, 2]) (on .pRX cap4) = .next t) ∧ Chan.tx ≠ (Instr.push .rx [1, 2]).chan ∧
    (on .pRX cap4).cfg.inSegment .tx 0x2000 = true := ⟨by decide, by decide, ⟨_, rfl⟩, by decide, by decide⟩

theorem witness_AgentsChangeOnlyTheirState :
    ((on .pRX cap4).cfg.legal = true ∧ (Instr.push .rx [1, 2]).wellFormed (on .pRX cap4).cfg.slotWords = true ∧
      (∃ t, exec (.push .rx [1, 2]) (on .pRX cap4) = .next t) ∧ (on .pRX cap4).port = ⟨.producer, .rx⟩) ∧
    ((∃ t, exec (.drainEnd .rx) (on .cRX draining) = .next t) ∧ (on .cRX draining).port = ⟨.consumer, .rx⟩) ∧
    ((∃ t, exec (.init .rx) (on .pRX cap4) = .next t) ∧ (Instr.init .rx).op = .init) :=
  ⟨⟨by decide, by decide, ⟨_, rfl⟩, by decide⟩, ⟨⟨_, rfl⟩, by decide⟩, ⟨⟨_, rfl⟩, by decide⟩⟩

def fedPush : State := fed .pRX [0x1, 5, 6] cap4

/-- A step that pushes, and one that does not. -/
theorem witness_PutOnlyCountsUp :
    fedPush.cfg.envMayCorrupt = false ∧
    (∃ t, step fedPush = .next t ∧ fedPush.nextCommand = some (.pRX, .push .rx [5, 6]) ∧
      t.response = some ⟨.pRX, .ok, []⟩) ∧
    (∃ t, step waiting = .next t ∧ waiting.cfg.envMayCorrupt = false ∧
      ¬ ∃ q slot, waiting.nextCommand = some (q, .push .rx slot) ∧ t.response = some ⟨q, .ok, []⟩) := by
  refine ⟨by decide, ⟨_, rfl, by decide, by decide⟩, _, rfl, by decide, ?_⟩
  rintro ⟨q, slot, h, -⟩
  cases h

/-- CORRUPT returned (PU-6), and not (PU-1). -/
theorem witness_CorruptOnlyFromTheOccupancyCheck :
    (∃ t r, exec (.push .rx [1, 2]) (on .pRX (ring 4 .rx 9 4)) = .next t ∧ t.response = some r ∧ r.status = .corrupt) ∧
    (∃ t r, exec (.drainBegin .rx) (on .cRX (ring 4 .rx 5 0)) = .next t ∧ t.response = some r ∧ r.status = .corrupt) ∧
    (∃ t, exec (.push .rx [1, 2]) (on .pRX cap4) = .next t ∧ t.response = some ⟨.pRX, .ok, []⟩) :=
  ⟨⟨_, ⟨_, _, _⟩, rfl, rfl, rfl⟩, ⟨_, ⟨_, _, _⟩, rfl, rfl, rfl⟩, ⟨_, rfl, by decide⟩⟩

theorem witness_OnlyInitEndsUninitAndCorrupt :
    ((∃ t, step fedPush = .next t) ∧ ∀ q, fedPush.nextCommand ≠ some (q, .init .rx)) ∧
    (∃ t, step fedInit = .next t ∧ fedInit.nextCommand = some (.cTX, .init .tx) ∧ t.response = some ⟨.cTX, .ok, []⟩) :=
  ⟨⟨⟨_, rfl⟩, forall_port (by decide)⟩, ⟨_, rfl, by decide, by decide⟩⟩

theorem witness_ConfigurationNeverChanges : ∃ t, step fedPush = .next t := ⟨_, rfl⟩

theorem witness_ResponseFollowsStatus :
    (on .cRX draining).cfg.legal = true ∧
    ∃ t r, exec (.pop .rx) (on .cRX draining) = .next t ∧ t.response = some r ∧ r.status = .ok :=
  ⟨by decide, _, ⟨_, _, _⟩, rfl, rfl, rfl⟩

/-- The producer's own cell, and GET read from a stale frontier: two values to choose from. -/
theorem witness_IndexReadIsCoherent :
    (stale.front (.prod .rx) .rx .put ≤ stale.histLast .rx .put ∧ Agent.prod .rx = ownerOf .rx .put) ∧
    (stale.front (.prod .rx) .rx .get ≤ stale.histLast .rx .get ∧ Agent.prod .rx ≠ ownerOf .rx .get ∧
      stale.front (.prod .rx) .rx .get < stale.histLast .rx .get) := by decide

theorem witness_IndexWriteAppends : cap4.cfg.legal = true := by decide

theorem witness_LatestDrawReadsCurrentValue :
    let s := { stale with draw := 1 }
    s.draw = s.histLast .rx .get - s.front (.prod .rx) .rx .get := by decide

/-- The last slot, against the first slot of the other channel. -/
theorem witness_SlotMemoryHasOneCopy :
    cap4.cfg.legal = true ∧ 3 < cap4.cfg.cap.val .rx ∧ (slotBytesOf [1, 2]).length = cap4.cfg.slotBytes ∧
    0 < cap4.cfg.cap.val .tx ∧ ¬ (Chan.tx = Chan.rx ∧ 0 = 3) := by decide

theorem stale_frontsInHistory : FrontsInHistory stale := by
  intro a ch c
  rcases a with ch' | ch' | _
  · cases ch' <;> cases ch <;> cases c <;> decide
  · cases ch' <;> cases ch <;> cases c <;> decide
  · cases ch <;> cases c <;> decide

theorem witness_FrontiersStayInHistory :
    FrontsInHistory stale ∧ ∃ t, step stale = .next t := ⟨stale_frontsInHistory, _, rfl⟩

theorem witness_FrontiersNeverMoveBackwards :
    FrontsInHistory stale ∧ (∃ t, exec (.wakeWait .rx) stale = .next t) ∧ (Instr.wakeWait .rx).op ≠ .init :=
  ⟨stale_frontsInHistory, ⟨_, rfl⟩, by decide⟩

theorem witness_MemoryStaysCanonical : fedPush.mem.wf = true ∧ ∃ t, step fedPush = .next t := ⟨by decide, _, rfl⟩

theorem witness_CanonicalMemoryIsUnique :
    (cap4.mem.writeByte 0x1009 7).wf = true ∧ ∀ a, (cap4.mem.writeByte 0x1009 7).readByte a =
      (cap4.mem.writeByte 0x1009 7).readByte a := ⟨by decide, fun _ => rfl⟩

theorem witness_OnlyConsumersWaitIsKept : OnlyConsumersWait waiting ∧ ∃ t, step waiting = .next t :=
  ⟨forall_port (by decide), _, rfl⟩

/-- The ring of `pushedOnce`: positions from 0xFFFFFFFF, one slot published, none consumed. -/
theorem pushedOnce_ring : RingInv pushedOnce .rx 0xFFFFFFFF [0] where
  putHist := by decide
  getHist := by decide
  rising := by decide
  producerFront := by decide
  producerBound := by decide
  consumerFront := by decide
  consumerBound := by decide
  drain := fun h => absurd h (by decide)

theorem pushedOnce_disciplined : Disciplined pushedOnce where
  noForeignWrites := by decide
  channels := forall_chan
    ⟨⟨by decide, by decide, fun h => absurd h (by decide), fun _ => ⟨_, _, pushedOnce_ring⟩⟩,
      ⟨by decide, by decide, fun _ => ⟨by decide, by decide⟩, fun h => absurd h (by decide)⟩⟩

def fedDrain : State := fed .cRX [0x2] pushedOnce

theorem fedDrain_disciplined : Disciplined fedDrain where
  noForeignWrites := by decide
  channels := forall_chan
    ⟨⟨by decide, by decide, fun h => absurd h (by decide), fun _ => ⟨0xFFFFFFFF, [0],
        { putHist := by decide, getHist := by decide, rising := by decide, producerFront := by decide
          producerBound := by decide, consumerFront := by decide, consumerBound := by decide
          drain := fun h => absurd h (by decide) }⟩⟩,
      ⟨by decide, by decide, fun _ => ⟨by decide, by decide⟩, fun h => absurd h (by decide)⟩⟩

theorem witness_DisciplineIsKept : Disciplined fedDrain ∧ ∃ t, step fedDrain = .next t := ⟨fedDrain_disciplined, _, rfl⟩

theorem witness_PowerOnIsDisciplined : Config.reference.envMayCorrupt = false := by decide

theorem witness_NoCorruptionWithoutForeignWrites :
    Disciplined fedDrain ∧ ∃ t r, step fedDrain = .next t ∧ t.response = some r :=
  ⟨fedDrain_disciplined, _, ⟨_, _, _⟩, rfl, rfl⟩

theorem witness_ViewsBoundOccupancy :
    fedDrain.cfg.legal = true ∧ Disciplined fedDrain ∧ (fedDrain.ch .rx).chState = .ready :=
  ⟨by decide, fedDrain_disciplined, by decide⟩

theorem pushedDraining_contents :
    ContentsInv pushedDraining .rx [slotBytesOf [5, 6]] 0xFFFFFFFF [0] where
  ring :=
    { putHist := by decide, getHist := by decide, rising := by decide, producerFront := by decide
      producerBound := by decide, consumerFront := by decide, consumerBound := by decide
      drain := fun _ => ⟨0, 1, by decide⟩ }
  logLength := by decide
  contents := fun i _ h => by
    have : i = 0 := by simpa using h
    subst this
    decide

theorem witness_SlotsKeepWhatWasPushed :
    Disciplined pushedOnce ∧ Carries pushedOnce .rx [slotBytesOf [5, 6]] ∧ ∃ t, step pushedOnce = .next t :=
  ⟨pushedOnce_disciplined,
    fun _ => ⟨_, _, ⟨pushedOnce_ring, by decide, fun i _ h => by
      have : i = 0 := by simpa using h
      subst this
      decide⟩⟩, _, rfl⟩

theorem witness_PopDeliversWhatWasPushed :
    pushedDraining.cfg.legal = true ∧ ContentsInv pushedDraining .rx [slotBytesOf [5, 6]] 0xFFFFFFFF [0] ∧
    ∃ t r, exec (.pop .rx) pushedDraining = .next t ∧ t.response = some r ∧ r.status = .ok :=
  ⟨by decide, pushedDraining_contents, _, ⟨_, _, _⟩, rfl, rfl, rfl⟩

theorem witness_ReferenceSlotReadsBack : (List.replicate 64 (0x11 : Byte)).length = 64 := by decide

/-! ### A fair run with an outstanding WAKE_WAIT -/

/-- A consumer with nothing to do. -/
def timeoutIdle : State := { on .cRX State.reset with draw := 1, schedule := [.port .cRX 1] }

/-- The states of the run: the wait, its TIMEOUT, and then idle ports and ENV. -/
def timeoutRunState : Nat → State
  | 0 => waiting
  | 1 => { timeoutIdle with response := some ⟨.cRX, .timeout, []⟩ }
  | _ + 2 => timeoutIdle

/-- The TIMEOUT, and then ENV's WAKE_LOSS again and again. -/
def timeoutRunMove : Nat → Move
  | 0 => .port .cRX 1
  | _ + 1 => .wakeLoss .rx

def noWords : PerPort (List Word) := ⟨⟨[], []⟩, ⟨[], []⟩⟩

theorem timeoutIdle_good : timeoutIdle.cfg.legal = true ∧ timeoutIdle.good = true := by decide

def timeoutRun : Run where
  state := timeoutRunState
  move := timeoutRunMove
  legal
    | 0 => by decide
    | 1 => by decide
    | _ + 2 => timeoutIdle_good.1
  good
    | 0 => by decide
    | 1 => by decide
    | _ + 2 => timeoutIdle_good.2
  takes
    | 0 => ⟨noWords, _, rfl, rfl⟩
    | 1 => ⟨noWords, _, rfl, rfl⟩
    | _ + 2 => ⟨noWords, _, rfl, rfl⟩

theorem timeoutIdle_disabled : ∀ q, timeoutIdle.enabled (.port q 0) = false := forall_port (by decide)

theorem timeoutRun_fair : timeoutRun.weaklyFair := by
  intro a n h
  obtain ⟨mv, ha, hd⟩ := h (n + 2) (Nat.le_add_right _ _)
  cases mv with
  | port q d =>
    change timeoutIdle.enabled (.port q 0) = true at hd
    rw [timeoutIdle_disabled] at hd
    cases hd
  | wakeLoss ch => exact ⟨n + 2, Nat.le_add_right _ _, ha, hd, fun h => h⟩
  | corruptWrite ch addr bytes => exact ⟨n + 2, Nat.le_add_right _ _, ha, by exact (by decide : timeoutIdle.enabled (.wakeLoss .rx) = true), fun h => h⟩

theorem witness_FairWaitCompletes :
    timeoutRun.weaklyFair ∧ ((timeoutRun.state 0).ports.val .cRX).waiting = true := ⟨timeoutRun_fair, by decide⟩

/-! ### A fair run of a producer that retries PUSH on a full ring -/

/-- A full ring whose GET the consumer has published twice; the producer has observed both writes and a PUSH waits at its port.
`pushed` says whether the last step was a PUSH, which returned FULL. -/
def retrying (pushed : Bool) : State :=
  { (fed .pRX [0x1, 5, 6] (ring 4 .rx 4 0)).updCh .rx fun x =>
      { x with older := ⟨[], [0]⟩, front := { x.front with prod := ⟨⟨0, 1⟩, ⟨0, 0⟩⟩ } } with
    port := .pRX
    response := if pushed then some ⟨.pRX, .full, []⟩ else none
    schedule := [] }

/-- After a PUSH, ENV loses a wake; after that, the next PUSH. -/
def retryMove (pushed : Bool) : Move := if pushed then .wakeLoss .rx else .port .pRX 0

/-- Whether the step before moment `n` was a PUSH. -/
def pushedBefore : Nat → Bool
  | 0 => false
  | n + 1 => !pushedBefore n

theorem exists_pushedBefore (b : Bool) (n : Nat) : ∃ m, n ≤ m ∧ pushedBefore m = b := by
  by_cases h : pushedBefore n = b
  · exact ⟨n, le_rfl, h⟩
  · exact ⟨n + 1, Nat.le_succ n, by
      revert h
      rw [pushedBefore]
      cases pushedBefore n <;> cases b <;> decide⟩

/-- The words that arrive after a step: the next PUSH after a PUSH. -/
def nextWords (pushed : Bool) : PerPort (List Word) := ⟨⟨if pushed then [] else [0x1, 5, 6], []⟩, ⟨[], []⟩⟩

theorem retrying_takes (b : Bool) :
    ∃ words t, takeMove (retryMove b) (retrying b) = .next t ∧ retrying (!b) = t.arrive words := by
  cases b
  · exact ⟨nextWords false, _, rfl, rfl⟩
  · exact ⟨nextWords true, _, rfl, rfl⟩

def retryRun : Run where
  state := fun n => retrying (pushedBefore n)
  move := fun n => retryMove (pushedBefore n)
  legal := fun n => by cases pushedBefore n <;> decide
  good := fun n => by cases pushedBefore n <;> decide
  takes := fun n => retrying_takes (pushedBefore n)

/-- The one command of the run. -/
theorem retrying_command (b : Bool) :
    (retrying b).commandOf (retryMove b) = if b then none else some (.pRX, .push .rx [5, 6]) := by
  cases b <;> decide

theorem retrying_enabled (b : Bool) : ∀ q, (retrying b).enabled (.port q 0) = decide (q = .pRX) := by
  cases b <;> exact forall_port (by decide)

theorem retryRun_fair : retryRun.weaklyFair := by
  intro a n h
  have env : a = .env → ∃ m, n ≤ m ∧ retryRun.stepsAt a m := by
    rintro rfl
    obtain ⟨m, hm, hb⟩ := exists_pushedBefore true n
    refine ⟨m, hm, ?_⟩
    simp only [Run.stepsAt, retryRun, hb]
    exact ⟨rfl, by decide, fun h => h⟩
  obtain ⟨mv, ha, he⟩ := h n le_rfl
  cases mv with
  | wakeLoss ch => exact env ha.symm
  | corruptWrite ch addr bytes => exact env ha.symm
  | port q d =>
    change (retrying (pushedBefore n)).enabled (.port q 0) = true at he
    rw [retrying_enabled, decide_eq_true_eq] at he
    subst he ha
    obtain ⟨m, hm, hb⟩ := exists_pushedBefore false n
    refine ⟨m, hm, ?_⟩
    simp only [Run.stepsAt, retryRun, hb]
    exact ⟨rfl, by decide, fun h => absurd h.1 (by decide)⟩

theorem retryRun_visible : retryRun.eventuallyVisible := by
  intro ch c n
  refine ⟨0, fun m _ _ hr => ?_⟩
  obtain ⟨q, i, hc, hr⟩ := hr
  replace hc := (retrying_command (pushedBefore m)).symm.trans hc
  simp only [retryRun] at hr ⊢
  cases hb : pushedBefore m with
  | true => rw [hb] at hc; cases hc
  | false =>
    rw [hb] at hc
    cases hc
    cases c with
    | put => exact absurd hr.1 (by cases ch <;> decide)
    | get =>
      cases ch with
      | rx => cases pushedBefore n <;> decide
      | tx => exact absurd hr.1 (by decide)

theorem witness_VisibleWritesAreObserved :
    retryRun.eventuallyVisible ∧ (∀ m, retryRun.noInitBetween .rx 0 m) ∧
    (∀ k, ∃ m, k ≤ m ∧ retryRun.peerReadsAt .rx .get m) ∧ 0 < (retryRun.state 0).histLast .rx .get := by
  refine ⟨retryRun_visible, fun m j _ _ q h => ?_, fun k => ?_, by decide⟩
  · replace h := (retrying_command (pushedBefore j)).symm.trans h
    cases hb : pushedBefore j <;> rw [hb] at h <;> cases h
  · obtain ⟨m, hm, hb⟩ := exists_pushedBefore false k
    refine ⟨m, hm, .pRX, .push .rx [5, 6], ?_, ?_⟩ <;> simp only [retryRun, hb]
    · decide
    · exact ⟨rfl, ⟨_, rfl⟩, by decide, by decide⟩

theorem witness_FairRunServesEveryAgent :
    retryRun.weaklyFair ∧
    ∀ m, 0 ≤ m → ((retryRun.state m).ports.val .pRX).waiting = true ∨
      wordsReady (retryRun.state m).cfg .pRX ((retryRun.state m).ports.val .pRX).stream = true := by
  refine ⟨retryRun_fair, fun m _ => .inr ?_⟩
  simp only [retryRun]
  cases pushedBefore m <;> decide

end Sys2Proof.Tests
end

section
/-! PROOFS. What a step does to the block, said once: its parameters, its segment memory and its channels (10_state.md R21 to R36).
The inversion lemmas `exec_effect` and `step_effect` serve every statement about what steps keep. -/

namespace Sys2Proof.Machine

/-! ### Index cells and histories under the memory effects -/

/-- A write of one index cell, however it is made, gives that cell the value and leaves every other index cell alone (R51, R56). -/
theorem State.cell_of_mem_writeWord {s t : State} {ch : Chan} {c : IndexCell} {v : Word} (hl : s.cfg.legal = true)
    (hc : t.cfg = s.cfg) (hm : t.mem = s.mem.writeWord (s.cfg.cellAddr ch c) v) (ch' : Chan) (c' : IndexCell) :
    t.cell ch' c' = if ch' = ch ∧ c' = c then v else s.cell ch' c' := by
  by_cases h : ch' = ch ∧ c' = c
  · obtain ⟨rfl, rfl⟩ := h
    rw [if_pos ⟨rfl, rfl⟩, State.cell, hc, hm, Memory.readWord_writeWord_same]
  · rw [if_neg h, State.cell_writeWord_ne hl hc hm h]

/-- INIT stores only GET (43_channel_control.md R190). -/
theorem State.cell_reinit {s : State} (hl : s.cfg.legal = true) (ch ch' : Chan) (c : IndexCell) :
    (s.reinit ch).cell ch' c = if ch' = ch ∧ c = .get then s.cell ch .put else s.cell ch' c :=
  State.cell_of_mem_writeWord (t := s.reinit ch) hl rfl (State.reinit_mem ..) ch' c

/-- DRAIN_END stores only GET (42_ring_consumer.md R162). -/
theorem State.cell_drainEnd {s : State} (hl : s.cfg.legal = true) (ch ch' : Chan) (c : IndexCell) (v : Word) :
    ((s.writeIndex (.cons ch) ch .get v).closeDrain ch).cell ch' c =
      if ch' = ch ∧ c = .get then v else s.cell ch' c :=
  State.cell_of_mem_writeWord (t := (s.writeIndex (.cons ch) ch .get v).closeDrain ch) hl rfl rfl ch' c

/-- PUSH stores a slot and PUT, so of the index cells only PUT (41_ring_producer.md R140). -/
theorem State.cell_pushPublish {s : State} {bytes : List Byte} (hl : s.cfg.legal = true)
    (hb : bytes.length = s.cfg.slotBytes) (ch ch' : Chan) (c : IndexCell) (p : Word) :
    (s.pushPublish ch p bytes).cell ch' c = if ch' = ch ∧ c = .put then p + 1 else s.cell ch' c := by
  have hslot := State.cell_slotWrite s ch ch' c _ bytes hl hb (Config.slotOf_lt hl ch p)
  rw [← hslot]
  exact State.cell_of_mem_writeWord (s := s.slotWrite ch (s.cfg.slotOf ch p) bytes)
    (t := s.pushPublish ch p bytes) hl rfl rfl ch' c

/-- What PUSH's publish leaves in the channels: one more old PUT, the producer's frontier on the new one, and WAKE set (R140). -/
theorem State.ch_pushPublish {s : State} {bytes : List Byte} (hl : s.cfg.legal = true)
    (hb : bytes.length = s.cfg.slotBytes) (ch ch' : Chan) (p : Word) :
    (s.pushPublish ch p bytes).ch ch' =
      if ch' = ch then
        { s.ch ch with
          older := (s.ch ch).older.set .put ((s.ch ch).older.put ++ [s.cell ch .put])
          front := (s.ch ch).front.set (.prod ch) (((s.ch ch).front.val (.prod ch)).set .put (s.histLast ch .put + 1))
          wake := true }
      else s.ch ch' := by
  have hcell := State.cell_slotWrite s ch ch .put _ bytes hl hb (Config.slotOf_lt hl ch p)
  by_cases h : ch' = ch
  · subst h
    simp [State.pushPublish, State.ch_writeIndex, hcell, State.histLast_eq, PerCell.val]
  · simp [State.pushPublish, State.ch_writeIndex, h]

/-- What DRAIN_END leaves in the channels: one more old GET, the consumer's frontier on the new one, and the drain closed (R162). -/
theorem State.ch_drainEnd (s : State) (ch ch' : Chan) (v : Word) :
    ((s.writeIndex (.cons ch) ch .get v).closeDrain ch).ch ch' =
      if ch' = ch then
        { s.ch ch with
          older := (s.ch ch).older.set .get ((s.ch ch).older.get ++ [s.cell ch .get])
          front := (s.ch ch).front.set (.cons ch) (((s.ch ch).front.val (.cons ch)).set .get (s.histLast ch .get + 1))
          cDrain := false }
      else s.ch ch' := by
  by_cases h : ch' = ch
  · subst h
    simp [State.ch_writeIndex, PerCell.val]
  · simp [State.ch_writeIndex, h]

/-! ### The effect of a command -/

/-- The block is the same: parameters, segment memory and channels. Ports, faults, schedule and response may differ. -/
structure SameBlock (s t : State) : Prop where
  cfg : t.cfg = s.cfg
  mem : t.mem = s.mem
  chan : t.chan = s.chan

theorem SameBlock.ch {s t : State} (h : SameBlock s t) (ch : Chan) : t.ch ch = s.ch ch := by
  rw [State.ch, h.chan, State.ch]

theorem SameBlock.cell {s t : State} (h : SameBlock s t) (ch : Chan) (c : IndexCell) : t.cell ch c = s.cell ch c :=
  State.cell_congr h.cfg h.mem ch c

theorem SameBlock.hist {s t : State} (h : SameBlock s t) (ch : Chan) (c : IndexCell) : t.hist ch c = s.hist ch c :=
  State.hist_congr ch c (by rw [h.ch]) (h.cell ch c)

theorem SameBlock.histLast {s t : State} (h : SameBlock s t) (ch : Chan) (c : IndexCell) :
    t.histLast ch c = s.histLast ch c := by
  rw [State.histLast, h.hist, State.histLast]

theorem SameBlock.front {s t : State} (h : SameBlock s t) (a : Agent) (ch : Chan) (c : IndexCell) :
    t.front a ch c = s.front a ch c := by
  rw [State.front, h.ch, State.front]

theorem SameBlock.refl (s : State) : SameBlock s s := ⟨rfl, rfl, rfl⟩

/-- `CommandEffect s i r u`: command `i`, run in `s`, answers with response `r` and leaves the block as it is in `u`. One
constructor for each way a command can change the block, with the conditions under which it does (R140, R160 to R162, R190, R191,
R120, R121); `nothing` is every outcome that changes none of it. -/
inductive CommandEffect (s : State) : Instr → Option Response → State → Prop
  | nothing (i : Instr) (r : Option Response) (notOk : r.map (·.status) ≠ some .ok) : CommandEffect s i r s
  | pushCorrupt (ch : Chan) (slot : List Word) (ready : s.isUninit ch = false) (noFault : (s.ch ch).pFault = false)
      (tooFull : overCapacity s.cfg ch (s.cell ch .put - s.view (.prod ch) ch .get) = true) :
      CommandEffect s (.push ch slot) (some ⟨s.port, .corrupt, []⟩) ((s.pushReads ch).setPFault ch)
  | pushFull (ch : Chan) (slot : List Word) (ready : s.isUninit ch = false) (noFault : (s.ch ch).pFault = false)
      (full : atCapacity s.cfg ch (s.cell ch .put - s.view (.prod ch) ch .get) = true) :
      CommandEffect s (.push ch slot) (some ⟨s.port, .full, []⟩) (s.pushReads ch)
  | pushOk (ch : Chan) (slot : List Word) (ready : s.isUninit ch = false) (noFault : (s.ch ch).pFault = false)
      (notOver : overCapacity s.cfg ch (s.cell ch .put - s.view (.prod ch) ch .get) = false)
      (notFull : atCapacity s.cfg ch (s.cell ch .put - s.view (.prod ch) ch .get) = false)
      (free : s.overwrites ch (s.cell ch .put) = false) :
      CommandEffect s (.push ch slot) (some ⟨s.port, .ok, []⟩)
        ((s.pushReads ch).pushPublish ch (s.cell ch .put) (slotBytesOf slot))
  | drainCorrupt (ch : Chan) (ready : s.isUninit ch = false) (closed : (s.ch ch).cDrain = false)
      (noFault : (s.ch ch).cFault = false)
      (tooFull : overCapacity s.cfg ch (s.view (.cons ch) ch .put - s.cell ch .get) = true) :
      CommandEffect s (.drainBegin ch) (some ⟨s.port, .corrupt, []⟩) ((s.drainReads ch).setCFault ch)
  | drainOpened (ch : Chan) (ready : s.isUninit ch = false) (closed : (s.ch ch).cDrain = false)
      (noFault : (s.ch ch).cFault = false)
      (notOver : overCapacity s.cfg ch (s.view (.cons ch) ch .put - s.cell ch .get) = false) :
      CommandEffect s (.drainBegin ch) (some ⟨s.port, .ok, [s.view (.cons ch) ch .put - s.cell ch .get]⟩)
        ((s.drainReads ch).openDrain ch (s.cell ch .get) (s.view (.cons ch) ch .put))
  | popped (ch : Chan) (ready : s.isUninit ch = false) (opened : (s.ch ch).cDrain = true)
      (more : (s.ch ch).clGet ≠ (s.ch ch).clLimit) :
      CommandEffect s (.pop ch) (some ⟨s.port, .ok, slotWordsOf (s.nextSlot ch)⟩)
        (s.updCh ch fun x => { x with clGet := x.clGet + 1 })
  | drainEnded (ch : Chan) (ready : s.isUninit ch = false) (opened : (s.ch ch).cDrain = true) :
      CommandEffect s (.drainEnd ch) (some ⟨s.port, .ok, []⟩)
        ((s.writeIndex (.cons ch) ch .get (s.ch ch).clGet).closeDrain ch)
  | initialised (ch : Chan) (closed : (s.ch ch).cDrain = false) :
      CommandEffect s (.init ch) (some ⟨s.port, .ok, []⟩) (s.reinit ch)
  | woken (ch : Chan) (wake : (s.ch ch).wake = true) :
      CommandEffect s (.wakeWait ch) (some ⟨s.port, .ok, []⟩) (s.setWake ch false)
  | tracked (ch : Chan) (raw : Word) :
      CommandEffect s (.track ch raw) (some ⟨s.port, .ok, wordsOf64 ((s.ch ch).ts.result raw)⟩)
        (s.updCh ch fun x => { x with ts := x.ts.update raw })
  | trackerCleared (ch : Chan) :
      CommandEffect s (.tsReset ch) (some ⟨s.port, .ok, []⟩) (s.updCh ch fun x => { x with ts := x.ts.cleared })

/-- A command that ends with a model fault changes nothing of the block. -/
theorem effect_of_fault {s t : State} {i : Instr} {code : FaultCode} {cw : Word} {res : Result}
    (h : res = .next (s.recordFault code cw)) (ht : res = .next t) :
    ∃ u, CommandEffect s i t.response u ∧ SameBlock u t := by
  obtain rfl : s.recordFault code cw = t := by simpa using h.symm.trans ht
  exact ⟨s, .nothing i none (by simp), rfl, rfl, rfl⟩

/-- A command that responds leaves the block as it is in the state it responds from. -/
theorem effect_of_respond {s t u v : State} {i : Instr} {st : Status} {data : List Word} {res : Result}
    (h : res = respond st data v) (ht : res = .next t)
    (he : CommandEffect s i (some ⟨v.port, st, data⟩) u) (hv : SameBlock u v) : ∃ u, CommandEffect s i t.response u ∧ SameBlock u t := by
  obtain rfl : { v with response := some ⟨v.port, st, data⟩ } = t := by
    simpa [respond] using h.symm.trans ht
  exact ⟨u, he, hv.cfg, hv.mem, hv.chan⟩

/-- What a command that answers a next state did to the block. -/
theorem exec_effect {i : Instr} {s t : State} (ht : exec i s = .next t) :
    ∃ u, CommandEffect s i t.response u ∧ SameBlock u t := by
  cases i with
  | push ch slot =>
    rcases execPush_cases ch slot s with ⟨-, h⟩ | ⟨-, ⟨-, h⟩ | ⟨-, -, h⟩ | ⟨hu, hp, ho, h⟩ | ⟨hu, hp, -, hc, h⟩ |
      ⟨-, -, -, -, -, h⟩ | ⟨hu, hp, ho, hc, hw, h⟩⟩
    · exact effect_of_fault h ht
    · exact effect_of_fault h ht
    · exact effect_of_respond h ht (.nothing _ _ (by simp)) (.refl _)
    · exact effect_of_respond h ht (.pushCorrupt ch slot hu hp ho) (.refl _)
    · exact effect_of_respond h ht (.pushFull ch slot hu hp hc) (.refl _)
    · exact effect_of_fault h ht
    · exact effect_of_respond h ht (.pushOk ch slot hu hp ho hc hw) (.refl _)
  | drainBegin ch =>
    rcases execDrainBegin_cases ch s with ⟨-, h⟩ | ⟨-, ⟨-, h⟩ | ⟨-, -, h⟩ | ⟨-, -, -, h⟩ | ⟨hu, hd, hf, ho, h⟩ |
      ⟨hu, hd, hf, ho, h⟩⟩
    · exact effect_of_fault h ht
    · exact effect_of_fault h ht
    · exact effect_of_fault h ht
    · exact effect_of_respond h ht (.nothing _ _ (by simp)) (.refl _)
    · exact effect_of_respond h ht (.drainCorrupt ch hu hd hf ho) (.refl _)
    · exact effect_of_respond h ht (.drainOpened ch hu hd hf ho) (.refl _)
  | pop ch =>
    rcases execPop_cases ch s with ⟨-, h⟩ | ⟨-, ⟨-, h⟩ | ⟨-, -, h⟩ | ⟨-, -, -, h⟩ | ⟨hu, hd, hm, h⟩⟩
    · exact effect_of_fault h ht
    · exact effect_of_fault h ht
    · exact effect_of_fault h ht
    · exact effect_of_respond h ht (.nothing _ _ (by simp)) (.refl _)
    · exact effect_of_respond h ht (.popped ch hu hd hm) (.refl _)
  | drainEnd ch =>
    rcases execDrainEnd_cases ch s with ⟨-, h⟩ | ⟨-, ⟨-, h⟩ | ⟨-, -, h⟩ | ⟨hu, hd, h⟩⟩
    · exact effect_of_fault h ht
    · exact effect_of_fault h ht
    · exact effect_of_fault h ht
    · exact effect_of_respond h ht (.drainEnded ch hu hd) (.refl _)
  | init ch =>
    rcases execInit_cases ch s with ⟨-, h⟩ | ⟨-, ⟨-, h⟩ | ⟨hd, h⟩⟩
    · exact effect_of_fault h ht
    · exact effect_of_fault h ht
    · exact effect_of_respond h ht (.initialised ch hd) (.refl _)
  | wakeWait ch =>
    rcases execWakeWait_cases ch s with ⟨-, h⟩ | ⟨-, ⟨-, hw, h⟩ | ⟨-, h⟩ | ⟨-, h⟩⟩
    · exact effect_of_fault h ht
    · exact effect_of_respond h ht (u := s.setWake ch false) (.woken ch hw) ⟨rfl, rfl, rfl⟩
    · exact effect_of_respond h ht (u := s) (.nothing _ _ (by simp)) ⟨rfl, rfl, rfl⟩
    · obtain rfl : { s.setWaiting s.port true with response := none } = t := by
        simpa [Sys2Proof.Machine.hold] using h.symm.trans ht
      exact ⟨s, .nothing _ _ (by simp), rfl, rfl, rfl⟩
  | track ch raw =>
    rcases execTrack_cases ch raw s with ⟨-, h⟩ | ⟨-, h⟩
    · exact effect_of_fault h ht
    · exact effect_of_respond h ht (.tracked ch raw) (.refl _)
  | tsReset ch =>
    rcases execTsReset_cases ch s with ⟨-, h⟩ | ⟨-, h⟩
    · exact effect_of_fault h ht
    · exact effect_of_respond h ht (.trackerCleared ch) (.refl _)

/-! ### The effect of a step -/

/-- The decoder gives well-formed commands only (30_encoding.md R97). -/
theorem decode_wellFormed {n : Nat} {ws rest : List Word} {i : Instr} (h : decode n ws = .ok (i, rest)) :
    i.wellFormed n = true := by
  cases ws with
  | nil => cases h
  | cons cw ops =>
    rw [decode] at h
    cases hcw : decodeCW cw with
    | error r => rw [hcw] at h; cases h
    | ok x =>
      obtain ⟨op, ch⟩ := x
      rw [hcw] at h
      cases op with
      | push =>
        by_cases hl : ops.length < n
        · simp [readOperands, hl] at h
        · obtain ⟨rfl, -⟩ : Instr.push ch (ops.take n) = i ∧ ops.drop n = rest := by
            simpa [readOperands, hl] using h
          simp [Instr.wellFormed]
          omega
      | track =>
        cases ops with
        | nil => cases h
        | cons raw ops => cases h; rfl
      | drainBegin => cases h; rfl
      | pop => cases h; rfl
      | drainEnd => cases h; rfl
      | init => cases h; rfl
      | wakeWait => cases h; rfl
      | tsReset => cases h; rfl

/-- `StepEffect s t`: what a step from `s` to `t` does to the block (60_exceptions.md R220). -/
inductive StepEffect (s t : State) : Prop
  /-- No agent has a step, or the command word raised a decode fault. -/
  | quiet (same : SameBlock s t) (silent : t.response = none)
  /-- Command `i` ran on port `q`, in the state `v` whose block is that of `s`. -/
  | command (q : Port) (i : Instr) (v u : State) (next : s.nextCommand = some (q, i)) (port : v.port = q)
      (wf : i.wellFormed s.cfg.slotWords = true) (before : SameBlock s v) (effect : CommandEffect v i t.response u)
      (after : SameBlock u t)
  /-- WAKE_LOSS (43_channel_control.md R192). -/
  | wakeLoss (ch : Chan) (same : SameBlock (s.setWake ch false) t) (silent : t.response = none)
  /-- CORRUPT_WRITE (R192). -/
  | corruptWrite (ch : Chan) (addr : Nat) (bytes : List Byte) (enabled : s.cfg.envMayCorrupt = true)
      (same : SameBlock (s.foreignWrite ch addr bytes) t) (silent : t.response = none)

/-- A command that runs on a port in a state with the block of `s` is a step effect of `s`. -/
theorem StepEffect.of_exec {s v t : State} {q : Port} {i : Instr} (ht : exec i v = .next t) (hv : SameBlock s v)
    (hq : v.port = q) (hw : i.wellFormed s.cfg.slotWords = true) (hn : s.nextCommand = some (q, i)) : StepEffect s t := by
  obtain ⟨u, he, hu⟩ := exec_effect ht
  exact .command q i v u hn hq hw hv he hu

/-- A step of a port that answers a next state. -/
theorem servePort_effect {s t : State} {q : Port} {d : Nat} {rest : List Move} (hs : s.schedule = .port q d :: rest)
    (ht : servePort q (({ s with schedule := rest } : State).select q d) = .next t) : StepEffect s t := by
  have hnext : s.nextCommand = s.commandOf (.port q d) := by simp [State.nextCommand, hs]
  rcases servePort_cases q (({ s with schedule := rest } : State).select q d) with
    ⟨hw, h⟩ | ⟨hw, ⟨-, h⟩ | ⟨cw, ops, hst, ⟨code, -, h⟩ | ⟨i, ops', -, hd, h⟩ | ⟨op, ch, -, -, h⟩⟩⟩ <;> rw [h] at ht
  · refine .of_exec ht ⟨rfl, rfl, rfl⟩ rfl rfl ?_
    rw [hnext]
    exact if_pos hw
  · cases ht
    exact .quiet ⟨rfl, rfl, rfl⟩ rfl
  · cases ht
    exact .quiet ⟨rfl, rfl, rfl⟩ rfl
  · refine .of_exec ht ⟨rfl, rfl, rfl⟩ rfl (decode_wellFormed hd) ?_
    have hw : (s.ports.val q).waiting = false := hw
    have hst : (s.ports.val q).stream = cw :: ops := hst
    have hd : decode s.cfg.slotWords (cw :: ops) = .ok (i, ops') := hd
    simp [hnext, State.commandOf, hw, hst, hd]
  · cases ht
    exact .quiet ⟨rfl, rfl, rfl⟩ rfl

/-- Taking moves off the schedule does not change what a CORRUPT_WRITE does to the block. -/
theorem foreignWrite_schedule (s : State) (moves : List Move) (ch : Chan) (addr : Nat) (bytes : List Byte) :
    SameBlock (s.foreignWrite ch addr bytes) (({ s with schedule := moves } : State).foreignWrite ch addr bytes) := by
  unfold State.foreignWrite
  dsimp only
  cases touchesCell s.cfg ch .put addr bytes.length <;> cases touchesCell s.cfg ch .get addr bytes.length <;>
    exact ⟨rfl, rfl, rfl⟩

/-- What a step that answers a next state did to the block. -/
theorem step_effect {s t : State} (h : step s = .next t) : s.cfg.legal = true ∧ StepEffect s t := by
  obtain ⟨hl, -, ⟨-, rfl⟩ | ⟨q, d, rest, hs, ht⟩ | ⟨ch, rest, -, ht⟩ | ⟨ch, addr, bytes, rest, -, ht⟩⟩ := step_cases h
  · exact ⟨hl, .quiet ⟨rfl, rfl, rfl⟩ rfl⟩
  · exact ⟨hl, servePort_effect hs ht⟩
  · cases ht
    exact ⟨hl, .wakeLoss ch ⟨rfl, rfl, rfl⟩ rfl⟩
  · unfold envCorruptWrite at ht
    split at ht
    · next hen =>
      cases ht
      obtain ⟨hcfg, hmem, hchan⟩ := foreignWrite_schedule s rest ch addr bytes
      simp only [corruptEnabled, Bool.and_eq_true] at hen
      exact ⟨hl, .corruptWrite ch addr bytes hen.1 ⟨hcfg, hmem, hchan⟩ rfl⟩
    · cases ht

end Sys2Proof.Machine
end

section
/-! PROOFS. The statements about the state's fields: the parameters (10_state.md R21), PUT (R22), CHSTATE and the sticky bits
(R25 to R27) and the frontiers (R36, 20_memory.md R60 to R62). -/

namespace Sys2Proof.Machine

/-! ### Parameters (R21) -/

theorem CommandEffect.cfg {s u : State} {i : Instr} {r : Option Response} (h : CommandEffect s i r u) :
    u.cfg = s.cfg := by
  cases h <;> rfl

theorem foreignWrite_cfg (s : State) (ch : Chan) (addr : Nat) (bytes : List Byte) :
    (s.foreignWrite ch addr bytes).cfg = s.cfg := by
  unfold State.foreignWrite
  dsimp only
  cases touchesCell s.cfg ch .put addr bytes.length <;> cases touchesCell s.cfg ch .get addr bytes.length <;> rfl

/-- Settles O36: every effect of a step leaves the parameters alone. -/
theorem configurationNeverChanges : Obligations.ConfigurationNeverChanges := by
  intro s t h
  obtain ⟨-, he⟩ := step_effect h
  cases he with
  | quiet same => exact same.cfg
  | command q i v u _ _ _ before effect after => rw [after.cfg, effect.cfg, before.cfg]
  | wakeLoss ch same => exact same.cfg
  | corruptWrite ch addr bytes _ same => rw [same.cfg, foreignWrite_cfg]

/-! ### PUT (R22) -/

/-- A well-formed PUSH stores exactly one slot (30_encoding.md R97). -/
theorem slotBytesOf_length_of_wellFormed {cfg : Config} (hl : cfg.legal = true) {ch : Chan} {slot : List Word}
    (hw : (Instr.push ch slot).wellFormed cfg.slotWords = true) : (slotBytesOf slot).length = cfg.slotBytes := by
  have hlen : slot.length = cfg.slotWords := by simpa [Instr.wellFormed] using hw
  rw [slotBytesOf_length, hlen, Config.slotWords_mul hl]

/-- The command is a PUSH of channel `ch` that returned OK. -/
def PushedOk (s : State) (i : Instr) (r : Option Response) (ch : Chan) : Prop :=
  ∃ slot, i = .push ch slot ∧ r = some ⟨s.port, .ok, []⟩

/-- The effect of a command on PUT: one more after a PUSH that returned OK, and none otherwise. -/
theorem CommandEffect.cell_put {s u : State} {i : Instr} {r : Option Response} (h : CommandEffect s i r u)
    (hl : s.cfg.legal = true) (hw : i.wellFormed s.cfg.slotWords = true) (ch : Chan) :
    (PushedOk s i r ch → u.cell ch .put = s.cell ch .put + 1) ∧
    (¬ PushedOk s i r ch → u.cell ch .put = s.cell ch .put) := by
  cases h with
  | nothing _ _ notOk => exact ⟨fun ⟨_, _, hr⟩ => absurd (by rw [hr]; rfl) notOk, fun _ => rfl⟩
  | pushOk ch' slot =>
    have hcell := State.cell_pushPublish (s := s.pushReads ch') hl (slotBytesOf_length_of_wellFormed hl hw) ch' ch .put
      (s.cell ch' .put)
    rw [hcell]
    constructor
    · rintro ⟨_, hi, -⟩
      obtain ⟨rfl, -⟩ : ch' = ch ∧ _ := by simpa using hi
      rw [if_pos ⟨rfl, rfl⟩]
    · intro hn
      rw [if_neg (fun he => hn ⟨slot, by rw [he.1], rfl⟩)]
      rfl
  | drainEnded ch' => exact ⟨fun ⟨_, hi, _⟩ => (by cases hi), fun _ => by rw [State.cell_drainEnd hl, if_neg (by simp)]⟩
  | initialised ch' => exact ⟨fun ⟨_, hi, _⟩ => (by cases hi), fun _ => by rw [State.cell_reinit hl, if_neg (by simp)]⟩
  | _ => exact ⟨fun ⟨_, hi, hr⟩ => by simp at hi hr, fun _ => rfl⟩

/-- Settles O33: of the effects of a step only the PUSH that returned OK stores PUT, and it stores `PUT +₃₂ 1`. -/
theorem putOnlyCountsUp : Obligations.PutOnlyCountsUp := by
  intro s t ch henv h pushed
  obtain ⟨hl, he⟩ := step_effect h
  have silent_case (hs : t.response = none) (hc : t.cell ch .put = s.cell ch .put) :
      (pushed → t.cell ch .put = s.cell ch .put + 1) ∧ (¬ pushed → t.cell ch .put = s.cell ch .put) :=
    ⟨fun ⟨_, _, _, hr⟩ => by simp [hs] at hr, fun _ => hc⟩
  cases he with
  | quiet same silent => exact silent_case silent (same.cell ch .put)
  | command q i v u next port wf before effect after =>
    have hpushed : pushed ↔ PushedOk v i t.response ch := by
      subst port
      constructor
      · rintro ⟨q', slot, hq, hr⟩
        obtain ⟨rfl, rfl⟩ : v.port = q' ∧ i = .push ch slot := by simpa using next.symm.trans hq
        exact ⟨slot, rfl, hr⟩
      · rintro ⟨slot, rfl, hr⟩
        exact ⟨v.port, slot, next, hr⟩
    simp only [hpushed, after.cell, ← before.cell]
    exact effect.cell_put (by rw [before.cfg, hl]) (by rw [before.cfg, wf]) ch
  | wakeLoss ch' same silent => exact silent_case silent (same.cell ch .put)
  | corruptWrite ch' addr bytes enabled => rw [henv] at enabled; cases enabled

/-! ### CHSTATE and the sticky bits (R25 to R27) -/

/-- A command touches the block's own state of its channel only (60_exceptions.md R220). -/
theorem CommandEffect.ch_other {s u : State} {i : Instr} {r : Option Response} (h : CommandEffect s i r u) {ch : Chan}
    (hch : ch ≠ i.chan) : u.ch ch = s.ch ch := by
  cases h with
  | nothing => rfl
  | _ =>
    simp only [Instr.chan] at hch
    simp [hch, State.pushPublish, State.ch_writeIndex, State.ch_pushReads, State.ch_drainReads]

/-- A command other than INIT keeps its channel's CHSTATE, and every sticky bit that is set. -/
theorem CommandEffect.keeps_flags {s u : State} {i : Instr} {r : Option Response} (h : CommandEffect s i r u)
    {ch : Chan} (hi : i ≠ .init ch) :
    (u.ch ch).chState = (s.ch ch).chState ∧ ((s.ch ch).pFault = true → (u.ch ch).pFault = true) ∧
      ((s.ch ch).cFault = true → (u.ch ch).cFault = true) := by
  by_cases hch : ch = i.chan
  · subst hch
    cases h with
    | nothing => exact ⟨rfl, id, id⟩
    | initialised ch => exact absurd rfl hi
    | _ => simp [Instr.chan, State.pushPublish, State.ch_writeIndex, State.ch_pushReads, State.ch_drainReads]
  · rw [h.ch_other hch]
    exact ⟨rfl, id, id⟩

/-- An INIT that returned OK is INIT's effect on the channel (R190). -/
theorem CommandEffect.init_flags {s u : State} {ch : Chan} {r : Option Response} (h : CommandEffect s (.init ch) r u)
    (hr : r.map (·.status) = some .ok) :
    (u.ch ch).chState = .ready ∧ (u.ch ch).pFault = false ∧ (u.ch ch).cFault = false := by
  cases h with
  | nothing _ _ notOk => exact absurd hr notOk
  | initialised => simp

theorem foreignWrite_ch (s : State) (ch ch' : Chan) (addr : Nat) (bytes : List Byte) :
    (s.foreignWrite ch addr bytes).ch ch' =
      { s.ch ch' with older := ((s.foreignWrite ch addr bytes).ch ch').older } := by
  unfold State.foreignWrite
  dsimp only
  by_cases h : ch' = ch <;> cases touchesCell s.cfg ch .put addr bytes.length <;>
    cases touchesCell s.cfg ch .get addr bytes.length <;> simp [State.keepOld, h]

/-- A step that ran no INIT of the channel keeps its CHSTATE and its sticky bits. -/
theorem StepEffect.keeps_flags {s t : State} (h : StepEffect s t) {ch : Chan}
    (hno : ∀ q, s.nextCommand ≠ some (q, .init ch)) :
    (t.ch ch).chState = (s.ch ch).chState ∧ ((s.ch ch).pFault = true → (t.ch ch).pFault = true) ∧
      ((s.ch ch).cFault = true → (t.ch ch).cFault = true) := by
  cases h with
  | quiet same =>
    rw [same.ch]
    exact ⟨rfl, id, id⟩
  | command q i v u next _ _ before effect after =>
    rw [after.ch, ← before.ch]
    exact effect.keeps_flags fun hi => hno q (hi ▸ next)
  | wakeLoss ch' same =>
    rw [same.ch, State.ch_setWake]
    by_cases hch : ch = ch' <;> simp [hch]
  | corruptWrite ch' addr bytes _ same =>
    rw [same.ch, foreignWrite_ch]
    exact ⟨rfl, id, id⟩

/-- Settles O35: no effect of a step but INIT's ends UNINIT or a sticky bit, and INIT's ends all three. -/
theorem onlyInitEndsUninitAndCorrupt : Obligations.OnlyInitEndsUninitAndCorrupt := by
  intro s t ch h
  obtain ⟨-, he⟩ := step_effect h
  refine ⟨he.keeps_flags, fun q hq hr => ?_⟩
  cases he with
  | command q' i v u next _ _ _ effect after =>
    obtain ⟨-, rfl⟩ : q' = q ∧ i = .init ch := by simpa using next.symm.trans hq
    rw [after.ch]
    exact effect.init_flags (by simp [hr])
  | quiet _ silent => simp [silent] at hr
  | wakeLoss _ _ silent => simp [silent] at hr
  | corruptWrite _ _ _ _ _ silent => simp [silent] at hr

/-! ### Frontiers (R36, 20_memory.md R60 to R62) -/

/-- An IndexRead moves no frontier back and none past the newest entry (R60, R61). -/
theorem State.front_readIndex_bounds (s : State) (a a' : Agent) (ch ch' : Chan) (c c' : IndexCell)
    (h : s.front a' ch' c' ≤ s.histLast ch' c') :
    s.front a' ch' c' ≤ (s.readIndex a ch c).front a' ch' c' ∧
      (s.readIndex a ch c).front a' ch' c' ≤ s.histLast ch' c' := by
  rw [State.readIndex, State.front_setFront]
  split
  · next he =>
    obtain ⟨rfl, rfl, rfl⟩ := he
    exact ⟨s.front_le_viewIndex a' ch' c' h, s.viewIndex_le a' ch' c'⟩
  · exact ⟨Nat.le_refl _, h⟩

theorem SameBlock.frontsInHistory {s t : State} (hb : SameBlock s t) (h : FrontsInHistory s) : FrontsInHistory t := by
  intro a ch c
  rw [hb.front, hb.histLast]
  exact h a ch c

/-- An update that leaves frontiers and histories of the channel alone. -/
theorem FrontsInHistory.updCh {s : State} (h : FrontsInHistory s) (ch : Chan) (f : Channel → Channel)
    (hf : ∀ x, (f x).front = x.front ∧ (f x).older = x.older) : FrontsInHistory (s.updCh ch f) := by
  intro a ch' c
  have := h a ch' c
  rw [State.histLast_eq, State.front] at this ⊢
  rw [State.ch_updCh]
  split
  · next e => rwa [(hf _).1, (hf _).2, ← e]
  · exact this

theorem FrontsInHistory.setMem {s : State} (h : FrontsInHistory s) (m : Memory) : FrontsInHistory (s.setMem m) := by
  intro a ch c
  have := h a ch c
  rwa [State.histLast_eq] at this ⊢

/-- A frontier may move to any position of its history. -/
theorem FrontsInHistory.setFront {s : State} (h : FrontsInHistory s) (a : Agent) (ch : Chan) (c : IndexCell) {k : Nat}
    (hk : k ≤ s.histLast ch c) : FrontsInHistory (s.setFront a ch c k) := by
  intro a' ch' c'
  rw [State.histLast_setFront, State.front_setFront]
  split
  · next he => rwa [he.2.1, he.2.2]
  · exact h a' ch' c'

theorem FrontsInHistory.readIndex {s : State} (h : FrontsInHistory s) (a : Agent) (ch : Chan) (c : IndexCell) :
    FrontsInHistory (s.readIndex a ch c) :=
  h.setFront a ch c (s.viewIndex_le a ch c)

/-- A history that grows keeps its frontiers inside. -/
theorem FrontsInHistory.keepOld {s : State} (h : FrontsInHistory s) (ch : Chan) (c : IndexCell) :
    FrontsInHistory (s.keepOld ch c) := by
  intro a ch' c'
  have := h a ch' c'
  rw [State.histLast_eq, State.front] at this ⊢
  rw [State.keepOld, State.ch_updCh]
  by_cases hch : ch' = ch
  · subst hch
    by_cases hc : c' = c
    · subst hc
      simp only [if_true, PerCell.val_set, List.length_append]
      omega
    · simpa [hc] using this
  · simpa [hch] using this

theorem FrontsInHistory.writeIndex {s : State} (h : FrontsInHistory s) (a : Agent) (ch : Chan) (c : IndexCell)
    (v : Word) : FrontsInHistory (s.writeIndex a ch c v) :=
  ((h.keepOld ch c).setMem _).setFront a ch c (Nat.le_refl _)

theorem FrontsInHistory.reinit {s : State} (h : FrontsInHistory s) (ch : Chan) : FrontsInHistory (s.reinit ch) := by
  intro a ch' c
  by_cases hch : ch' = ch
  · have hzero : (s.reinit ch).front a ch' c = 0 := by
      rw [State.front, State.ch_reinit, if_pos hch]
      rcases a with (_ | _) | (_ | _) | _ <;> cases c <;> rfl
    rw [hzero]
    exact Nat.zero_le _
  · have := h a ch' c
    rw [State.histLast_eq, State.front] at this ⊢
    rwa [State.ch_reinit, if_neg hch]

theorem FrontsInHistory.foreignWrite {s : State} (h : FrontsInHistory s) (ch : Chan) (addr : Nat)
    (bytes : List Byte) : FrontsInHistory (s.foreignWrite ch addr bytes) := by
  unfold State.foreignWrite
  dsimp only
  refine FrontsInHistory.setMem ?_ _
  cases touchesCell s.cfg ch .put addr bytes.length <;> cases touchesCell s.cfg ch .get addr bytes.length
  · exact h
  · exact h.keepOld ch .get
  · exact h.keepOld ch .put
  · exact (h.keepOld ch .put).keepOld ch .get

theorem CommandEffect.frontsInHistory {s u : State} {i : Instr} {r : Option Response} (he : CommandEffect s i r u)
    (h : FrontsInHistory s) : FrontsInHistory u := by
  have pushReads (ch : Chan) : FrontsInHistory (s.pushReads ch) := (h.readIndex _ ch .put).readIndex _ ch .get
  have drainReads (ch : Chan) : FrontsInHistory (s.drainReads ch) := (h.readIndex _ ch .get).readIndex _ ch .put
  cases he with
  | nothing => exact h
  | pushCorrupt ch slot => exact (pushReads ch).updCh ch _ fun _ => ⟨rfl, rfl⟩
  | pushFull ch slot => exact pushReads ch
  | pushOk ch slot =>
    exact (((pushReads ch).setMem _).writeIndex _ ch .put _).updCh ch _ fun _ => ⟨rfl, rfl⟩
  | drainCorrupt ch => exact (drainReads ch).updCh ch _ fun _ => ⟨rfl, rfl⟩
  | drainOpened ch => exact (drainReads ch).updCh ch _ fun _ => ⟨rfl, rfl⟩
  | popped ch => exact h.updCh ch _ fun _ => ⟨rfl, rfl⟩
  | drainEnded ch => exact (h.writeIndex _ ch .get _).updCh ch _ fun _ => ⟨rfl, rfl⟩
  | initialised ch => exact h.reinit ch
  | woken ch => exact h.updCh ch _ fun _ => ⟨rfl, rfl⟩
  | tracked ch raw => exact h.updCh ch _ fun _ => ⟨rfl, rfl⟩
  | trackerCleared ch => exact h.updCh ch _ fun _ => ⟨rfl, rfl⟩

/-- Settles O42: every effect of a step keeps the frontiers inside their histories. -/
theorem frontiersStayInHistory : Obligations.FrontiersStayInHistory := by
  intro s t h hstep
  obtain ⟨-, he⟩ := step_effect hstep
  cases he with
  | quiet same => exact same.frontsInHistory h
  | command q i v u _ _ _ before effect after =>
    exact after.frontsInHistory (effect.frontsInHistory (before.frontsInHistory h))
  | wakeLoss ch same => exact same.frontsInHistory (h.updCh ch _ fun _ => ⟨rfl, rfl⟩)
  | corruptWrite ch addr bytes _ same => exact same.frontsInHistory (h.foreignWrite ch addr bytes)

end Sys2Proof.Machine
end

section
/-! PROOFS. The protocol invariant (10_state.md R41, 20_memory.md R67, R68): what each side reads under it, and that every effect of a
step keeps it while ENV may not write the segments. -/

namespace Sys2Proof.Machine

/-! ### Positions -/

/-- The occupancy between two positions of a ring, while it fits a word (R41). -/
theorem toNat_position_sub (p0 : Word) {a b : Nat} (hab : a ≤ b) (hlt : b - a < 2 ^ 32) :
    (p0 + BitVec.ofNat 32 b - (p0 + BitVec.ofNat 32 a)).toNat = b - a := by
  have := p0.isLt
  simp only [BitVec.toNat_sub, BitVec.toNat_add, BitVec.toNat_ofNat]
  omega

theorem position_succ (p0 : Word) (n : Nat) : p0 + BitVec.ofNat 32 n + 1 = p0 + BitVec.ofNat 32 (n + 1) := by
  rw [BitVec.add_assoc, BitVec.ofNat_add]
  rfl

theorem getD_le_getD_of_rising {ds : List Nat} (h : ds.Pairwise (· ≤ ·)) {i j : Nat} (hij : i ≤ j) (hj : j < ds.length) :
    ds.getD i 0 ≤ ds.getD j 0 := by
  rw [List.getD_eq_getElem _ _ (by omega), List.getD_eq_getElem _ _ hj]
  rcases Nat.lt_or_eq_of_le hij with hlt | rfl
  · exact List.pairwise_iff_getElem.1 h i j _ _ hlt
  · exact Nat.le_refl _

theorem getD_length_sub_one (ds : List Nat) : ds.getD (ds.length - 1) 0 = ds.getLastD 0 := by
  rw [List.getLastD_eq_getLast?, List.getLast?_eq_getElem?, List.getD_eq_getElem?_getD]

/-! ### What the ring invariant says of reads -/

namespace RingInv

variable {s t : State} {ch : Chan} {p0 : Word} {ds : List Nat}

theorem length_positions (h : RingInv s ch p0 ds) : ds.length = s.histLast ch .get + 1 := by
  rw [← s.hist_length, h.getHist, List.length_map]

theorem getLastD_eq (h : RingInv s ch p0 ds) : ds.getLastD 0 = ds.getD (s.histLast ch .get) 0 := by
  rw [← getD_length_sub_one, h.length_positions, Nat.add_sub_cancel]

theorem getD_le_getLastD (h : RingInv s ch p0 ds) {k : Nat} (hk : k ≤ s.histLast ch .get) :
    ds.getD k 0 ≤ ds.getLastD 0 := by
  rw [h.getLastD_eq]
  exact getD_le_getD_of_rising h.rising hk (by rw [h.length_positions]; omega)

/-- The GET published last is not past the PUT published last. -/
theorem getLastD_le_put (h : RingInv s ch p0 ds) : ds.getLastD 0 ≤ s.histLast ch .put :=
  Nat.le_trans h.consumerBound h.consumerFront

theorem producerFront_le (h : RingInv s ch p0 ds) : s.front (.prod ch) ch .get ≤ s.histLast ch .get := by
  have := h.producerFront
  rw [h.length_positions] at this
  omega

/-- The true occupancy is at most CAP (R68). -/
theorem put_le_getLastD_add_cap (h : RingInv s ch p0 ds) :
    s.histLast ch .put ≤ ds.getLastD 0 + s.cfg.cap.val ch := by
  have h1 := h.producerBound
  have h2 := h.getD_le_getLastD h.producerFront_le
  omega

theorem put_entry (h : RingInv s ch p0 ds) {k : Nat} (hk : k ≤ s.histLast ch .put) (d : Word) :
    (s.hist ch .put).getD k d = p0 + BitVec.ofNat 32 k := by
  rw [h.putHist]
  simp [List.getD_eq_getElem?_getD, Nat.lt_succ_of_le hk]

theorem get_entry (h : RingInv s ch p0 ds) {k : Nat} (hk : k ≤ s.histLast ch .get) (d : Word) :
    (s.hist ch .get).getD k d = p0 + BitVec.ofNat 32 (ds.getD k 0) := by
  have hk : k < ds.length := by rw [h.length_positions]; omega
  rw [h.getHist]
  simp [List.getD_eq_getElem?_getD, hk]

theorem cell_put (h : RingInv s ch p0 ds) : s.cell ch .put = p0 + BitVec.ofNat 32 (s.histLast ch .put) := by
  rw [← s.hist_last ch .put 0, h.put_entry (Nat.le_refl _)]

theorem cell_get (h : RingInv s ch p0 ds) : s.cell ch .get = p0 + BitVec.ofNat 32 (ds.getLastD 0) := by
  rw [← s.hist_last ch .get 0, h.get_entry (Nat.le_refl _), h.getLastD_eq]

theorem view_put (h : RingInv s ch p0 ds) (a : Agent) :
    s.view a ch .put = p0 + BitVec.ofNat 32 (s.viewIndex a ch .put) :=
  h.put_entry (s.viewIndex_le a ch .put) _

theorem view_get (h : RingInv s ch p0 ds) (a : Agent) :
    s.view a ch .get = p0 + BitVec.ofNat 32 (ds.getD (s.viewIndex a ch .get) 0) :=
  h.get_entry (s.viewIndex_le a ch .get) _

/-- The position the producer reads in GET is at most CAP behind PUT, and not past it. -/
theorem producer_view_bounds (h : RingInv s ch p0 ds) :
    ds.getD (s.viewIndex (.prod ch) ch .get) 0 ≤ s.histLast ch .put ∧
    s.histLast ch .put ≤ ds.getD (s.viewIndex (.prod ch) ch .get) 0 + s.cfg.cap.val ch := by
  have hle := s.viewIndex_le (.prod ch) ch .get
  have hfront := s.front_le_viewIndex _ _ _ h.producerFront_le
  have h1 := h.getD_le_getLastD hle
  have h2 := h.getLastD_le_put
  have h3 := getD_le_getD_of_rising h.rising hfront (by rw [h.length_positions]; omega)
  have h4 := h.producerBound
  omega

/-- The occupancy PUSH computes (41_ring_producer.md R140). -/
theorem producer_occupancy (h : RingInv s ch p0 ds) (hl : s.cfg.legal = true) :
    (s.cell ch .put - s.view (.prod ch) ch .get).toNat =
      s.histLast ch .put - ds.getD (s.viewIndex (.prod ch) ch .get) 0 := by
  have hcap := Config.cap_lt hl ch
  obtain ⟨hle, hge⟩ := h.producer_view_bounds
  rw [h.cell_put, h.view_get, toNat_position_sub _ hle (by omega)]

/-- The position the consumer reads in PUT is at most CAP past GET, and not behind it. -/
theorem consumer_view_bounds (h : RingInv s ch p0 ds) :
    ds.getLastD 0 ≤ s.viewIndex (.cons ch) ch .put ∧
    s.viewIndex (.cons ch) ch .put ≤ ds.getLastD 0 + s.cfg.cap.val ch := by
  have h1 := s.front_le_viewIndex _ _ _ h.consumerFront
  have h2 := s.viewIndex_le (.cons ch) ch .put
  have h3 := h.consumerBound
  have h4 := h.put_le_getLastD_add_cap
  omega

/-- The occupancy DRAIN_BEGIN computes (42_ring_consumer.md R160). -/
theorem consumer_occupancy (h : RingInv s ch p0 ds) (hl : s.cfg.legal = true) :
    (s.view (.cons ch) ch .put - s.cell ch .get).toNat = s.viewIndex (.cons ch) ch .put - ds.getLastD 0 := by
  have hcap := Config.cap_lt hl ch
  obtain ⟨hle, hge⟩ := h.consumer_view_bounds
  rw [h.view_put, h.cell_get, toNat_position_sub _ hle (by omega)]

/-- Under the invariant PUSH finds no ProtocolCorruption (20_memory.md R68). -/
theorem producer_not_overCapacity (h : RingInv s ch p0 ds) (hl : s.cfg.legal = true) :
    overCapacity s.cfg ch (s.cell ch .put - s.view (.prod ch) ch .get) = false := by
  have := h.producer_view_bounds
  rw [overCapacity, h.producer_occupancy hl, decide_eq_false_iff_not]
  omega

/-- Under the invariant DRAIN_BEGIN finds no ProtocolCorruption (R68). -/
theorem consumer_not_overCapacity (h : RingInv s ch p0 ds) (hl : s.cfg.legal = true) :
    overCapacity s.cfg ch (s.view (.cons ch) ch .put - s.cell ch .get) = false := by
  have := h.consumer_view_bounds
  rw [overCapacity, h.consumer_occupancy hl, decide_eq_false_iff_not]
  omega

/-! ### What keeps the ring invariant -/

/-- The histories stay, the frontiers of the two sides may move forward inside them, and the drain of `t` is in its place. -/
theorem advance (h : RingInv s ch p0 ds) (hcfg : t.cfg = s.cfg) (hhist : ∀ c, t.hist ch c = s.hist ch c)
    (hprod : s.front (.prod ch) ch .get ≤ t.front (.prod ch) ch .get ∧ t.front (.prod ch) ch .get ≤ s.histLast ch .get)
    (hcons : s.front (.cons ch) ch .put ≤ t.front (.cons ch) ch .put ∧ t.front (.cons ch) ch .put ≤ s.histLast ch .put)
    (hdrain : (t.ch ch).cDrain = true → ∃ c l, ds.getLastD 0 ≤ c ∧ c ≤ l ∧ l ≤ t.front (.cons ch) ch .put ∧
      (t.ch ch).clGet = p0 + BitVec.ofNat 32 c ∧ (t.ch ch).clLimit = p0 + BitVec.ofNat 32 l) :
    RingInv t ch p0 ds := by
  have hlast : ∀ c, t.histLast ch c = s.histLast ch c := fun c => by rw [State.histLast, hhist, State.histLast]
  have hlen := h.length_positions
  have hmono := getD_le_getD_of_rising h.rising hprod.1 (by omega)
  have hbound := h.producerBound
  constructor
  case putHist => rw [hlast, hhist, h.putHist]
  case getHist => rw [hhist, h.getHist]
  case rising => exact h.rising
  case producerFront => omega
  case producerBound => rw [hlast, hcfg]; omega
  case consumerFront => rw [hlast]; exact hcons.2
  case consumerBound => exact Nat.le_trans h.consumerBound hcons.1
  case drain => exact hdrain

/-- An IndexRead of any agent keeps the ring (20_memory.md R61). -/
theorem readIndex (h : RingInv s ch p0 ds) (a : Agent) (ch' : Chan) (c : IndexCell) :
    RingInv (s.readIndex a ch' c) ch p0 ds := by
  have hdrain : ((s.readIndex a ch' c).ch ch).cDrain = (s.ch ch).cDrain ∧
      ((s.readIndex a ch' c).ch ch).clGet = (s.ch ch).clGet ∧
      ((s.readIndex a ch' c).ch ch).clLimit = (s.ch ch).clLimit := by
    rw [State.readIndex, State.ch_setFront]
    split
    · next e => subst e; exact ⟨rfl, rfl, rfl⟩
    · exact ⟨rfl, rfl, rfl⟩
  have hcons := s.front_readIndex_bounds a (.cons ch) ch' ch c .put h.consumerFront
  refine h.advance rfl (fun _ => State.hist_readIndex ..)
    (s.front_readIndex_bounds a (.prod ch) ch' ch c .get h.producerFront_le) hcons fun hd => ?_
  rw [hdrain.1] at hd
  obtain ⟨p, l, hp, hpl, hl, hg, hlim⟩ := h.drain hd
  exact ⟨p, l, hp, hpl, Nat.le_trans hl hcons.1, hdrain.2.1.trans hg, hdrain.2.2.trans hlim⟩

theorem pushReads (h : RingInv s ch p0 ds) : RingInv (s.pushReads ch) ch p0 ds :=
  (h.readIndex _ ch .put).readIndex _ ch .get

theorem drainReads (h : RingInv s ch p0 ds) : RingInv (s.drainReads ch) ch p0 ds :=
  (h.readIndex _ ch .get).readIndex _ ch .put

end RingInv

/-! ### Histories and frontiers after the effects that write an index -/

theorem State.hist_pushPublish {s : State} {bytes : List Byte} (hl : s.cfg.legal = true)
    (hb : bytes.length = s.cfg.slotBytes) (ch : Chan) (c : IndexCell) (p : Word) :
    (s.pushPublish ch p bytes).hist ch c = if c = .put then s.hist ch .put ++ [p + 1] else s.hist ch c := by
  cases c <;> simp [State.hist, State.ch_pushPublish hl hb, State.cell_pushPublish hl hb, PerCell.val, PerCell.set]

theorem State.front_pushPublish {s : State} {bytes : List Byte} (hl : s.cfg.legal = true)
    (hb : bytes.length = s.cfg.slotBytes) (a : Agent) (ch : Chan) (c : IndexCell) (p : Word) (h : c ≠ .put ∨ a ≠ .prod ch) :
    (s.pushPublish ch p bytes).front a ch c = s.front a ch c := by
  rw [State.front, State.ch_pushPublish hl hb, if_pos rfl, PerAgent.val_set]
  by_cases ha : a = .prod ch
  · simp [ha, h.resolve_right (not_not.2 ha), State.front]
  · simp [ha, State.front]

theorem State.hist_drainEnd {s : State} (hl : s.cfg.legal = true) (ch : Chan) (c : IndexCell) (v : Word) :
    ((s.writeIndex (.cons ch) ch .get v).closeDrain ch).hist ch c =
      if c = .get then s.hist ch .get ++ [v] else s.hist ch c := by
  cases c <;> simp [State.hist, State.ch_drainEnd, State.cell_drainEnd hl, PerCell.val, PerCell.set, -State.ch_closeDrain]

theorem State.front_drainEnd (s : State) (a : Agent) (ch : Chan) (c : IndexCell) (v : Word)
    (h : c ≠ .get ∨ a ≠ .cons ch) :
    ((s.writeIndex (.cons ch) ch .get v).closeDrain ch).front a ch c = s.front a ch c := by
  rw [State.front, State.ch_drainEnd, if_pos rfl, PerAgent.val_set]
  by_cases ha : a = .cons ch
  · simp [ha, h.resolve_right (not_not.2 ha), State.front]
  · simp [ha, State.front]

theorem State.histLast_of_hist {s t : State} {ch ch' : Chan} {c c' : IndexCell} {n : Nat}
    (h : (t.hist ch c).length = (s.hist ch' c').length + n) : t.histLast ch c = s.histLast ch' c' + n := by
  rw [State.hist_length, State.hist_length] at h
  omega

/-- After INIT both histories have their one entry, the current PUT (43_channel_control.md R190). -/
theorem State.hist_reinit {s : State} (hl : s.cfg.legal = true) (ch : Chan) (c : IndexCell) :
    (s.reinit ch).hist ch c = [s.cell ch .put] := by
  cases c <;> simp [State.hist, State.cell_reinit hl, PerCell.val]

theorem State.front_reinit (s : State) (a : Agent) (ch : Chan) (c : IndexCell) : (s.reinit ch).front a ch c = 0 := by
  rw [State.front, State.ch_reinit, if_pos rfl]
  rcases a with (_ | _) | (_ | _) | _ <;> cases c <;> rfl

namespace RingInv

variable {s t : State} {ch : Chan} {p0 : Word} {ds : List Nat}

/-- PUSH's publish keeps the ring while the producer's frontier shows space (R140). -/
theorem pushPublish (h : RingInv s ch p0 ds) (hl : s.cfg.legal = true) {bytes : List Byte}
    (hb : bytes.length = s.cfg.slotBytes)
    (hspace : s.histLast ch .put < ds.getD (s.front (.prod ch) ch .get) 0 + s.cfg.cap.val ch) :
    RingInv (s.pushPublish ch (s.cell ch .put) bytes) ch p0 ds := by
  have hhist := State.hist_pushPublish hl hb ch .put (s.cell ch .put)
  have hlast : (s.pushPublish ch (s.cell ch .put) bytes).histLast ch .put = s.histLast ch .put + 1 :=
    State.histLast_of_hist (by simp [hhist])
  have hprod := State.front_pushPublish hl hb (.prod ch) ch .get (s.cell ch .put) (.inl (by simp))
  have hcons := State.front_pushPublish hl hb (.cons ch) ch .put (s.cell ch .put) (.inr (by simp))
  constructor
  case putHist =>
    rw [hlast, hhist, if_pos rfl, h.putHist, h.cell_put, position_succ, List.range_succ (n := _ + 1), List.map_append]
    rfl
  case getHist => rw [State.hist_pushPublish hl hb, if_neg (by simp), h.getHist]
  case rising => exact h.rising
  case producerFront => rw [hprod]; exact h.producerFront
  case producerBound => rw [hprod, hlast]; exact hspace
  case consumerFront => rw [hcons, hlast]; exact Nat.le_succ_of_le h.consumerFront
  case consumerBound => rw [hcons]; exact h.consumerBound
  case drain =>
    rw [hcons, State.ch_pushPublish hl hb, if_pos rfl]
    exact h.drain

/-- DRAIN_BEGIN opens the drain between the published GET and the PUT it read (R160). -/
theorem openDrain (h : RingInv s ch p0 ds) {g p : Word} (hg : g = p0 + BitVec.ofNat 32 (ds.getLastD 0))
    (hp : p = p0 + BitVec.ofNat 32 (s.front (.cons ch) ch .put)) : RingInv (s.openDrain ch g p) ch p0 ds := by
  have hfront (a : Agent) (c : IndexCell) : (s.openDrain ch g p).front a ch c = s.front a ch c := by
    simp [State.front]
  refine h.advance rfl (fun c => State.hist_congr ch c (by simp) rfl) ?_ ?_ fun _ =>
    ⟨ds.getLastD 0, s.front (.cons ch) ch .put, Nat.le_refl _, h.consumerBound, ?_, by simpa using hg, by simpa using hp⟩
  · exact ⟨(hfront ..).ge, (hfront ..).trans_le h.producerFront_le⟩
  · exact ⟨(hfront ..).ge, (hfront ..).trans_le h.consumerFront⟩
  · exact (hfront ..).ge

/-- POP before the limit moves CLGET one position on, still not past CLIMIT (R161). -/
theorem popNext (h : RingInv s ch p0 ds) (hopen : (s.ch ch).cDrain = true) (hmore : (s.ch ch).clGet ≠ (s.ch ch).clLimit) :
    RingInv (s.updCh ch fun x => { x with clGet := x.clGet + 1 }) ch p0 ds := by
  obtain ⟨c, l, hc, hcl, hl, hg, hlim⟩ := h.drain hopen
  have hlt : c < l := Nat.lt_of_le_of_ne hcl fun e => hmore (by rw [hg, hlim, e])
  have hfront (a : Agent) (c : IndexCell) :
      (s.updCh ch fun x => { x with clGet := x.clGet + 1 }).front a ch c = s.front a ch c := by
    simp [State.front]
  refine h.advance rfl (fun c => State.hist_congr ch c (by simp) rfl) ?_ ?_ fun _ =>
    ⟨c + 1, l, Nat.le_succ_of_le hc, hlt, ?_, ?_, by simpa using hlim⟩
  · exact ⟨(hfront ..).ge, (hfront ..).trans_le h.producerFront_le⟩
  · exact ⟨(hfront ..).ge, (hfront ..).trans_le h.consumerFront⟩
  · rwa [hfront]
  · rw [State.ch_updCh, if_pos rfl, hg, position_succ]

/-- DRAIN_END publishes the position of CLGET, which the drain keeps between the last GET and the consumer's PUT (R162). -/
theorem drainEnd (h : RingInv s ch p0 ds) (hl : s.cfg.legal = true) (hopen : (s.ch ch).cDrain = true) :
    ∃ c, RingInv ((s.writeIndex (.cons ch) ch .get (s.ch ch).clGet).closeDrain ch) ch p0 (ds ++ [c]) := by
  obtain ⟨c, l, hc, hcl, hlf, hg, -⟩ := h.drain hopen
  have hhist := State.hist_drainEnd hl ch .get (s.ch ch).clGet
  have hput := State.hist_drainEnd hl ch .put (s.ch ch).clGet
  have hlast : ((s.writeIndex (.cons ch) ch .get (s.ch ch).clGet).closeDrain ch).histLast ch .put = s.histLast ch .put :=
    State.histLast_of_hist (n := 0) (by simp [hput])
  have hprod := s.front_drainEnd (.prod ch) ch .get (s.ch ch).clGet (.inr (by simp))
  have hcons := s.front_drainEnd (.cons ch) ch .put (s.ch ch).clGet (.inl (by simp))
  refine ⟨c, ?_⟩
  constructor
  case putHist => rw [hlast, hput, if_neg (by simp), h.putHist]
  case getHist => rw [hhist, if_pos rfl, h.getHist, hg, List.map_append]; rfl
  case rising =>
    refine List.pairwise_append.2 ⟨h.rising, List.pairwise_singleton _ _, fun d hd e he => ?_⟩
    obtain rfl : e = c := by simpa using he
    obtain ⟨k, hk, rfl⟩ := List.getElem_of_mem hd
    rw [← List.getD_eq_getElem _ 0 hk]
    exact Nat.le_trans (h.getD_le_getLastD (by rw [h.length_positions] at hk; omega)) hc
  case producerFront =>
    rw [hprod, List.length_append]
    exact Nat.lt_add_right _ h.producerFront
  case producerBound =>
    rw [hprod, hlast, List.getD_append _ _ _ _ h.producerFront]
    exact h.producerBound
  case consumerFront => rw [hcons, hlast]; exact h.consumerFront
  case consumerBound =>
    rw [hcons, List.getLastD_concat]
    exact Nat.le_trans hcl hlf
  case drain => simp

end RingInv

/-- INIT puts a new ring in order: both indices at the current PUT (R190). -/
theorem ringInv_reinit {s : State} (hl : s.cfg.legal = true) {ch : Chan} (hclosed : (s.ch ch).cDrain = false) :
    RingInv (s.reinit ch) ch (s.cell ch .put) [0] := by
  have hlast (c : IndexCell) : (s.reinit ch).histLast ch c = 0 := by simp [State.histLast, State.hist_reinit hl]
  constructor
  case putHist => simp [hlast, State.hist_reinit hl]
  case getHist => simp [State.hist_reinit hl]
  case rising => exact List.pairwise_singleton _ _
  case producerFront => simp [State.front_reinit]
  case producerBound => simp [hlast]
  case consumerFront => simp [State.front_reinit]
  case consumerBound => simp
  case drain => simp [hclosed]

/-! ### The channel invariant -/

/-- Nothing that the protocol invariant of channel `ch` speaks of differs: at most WAKE and the tracker do. -/
structure SameRing (s t : State) (ch : Chan) : Prop where
  cfg : t.cfg = s.cfg
  cell : ∀ c, t.cell ch c = s.cell ch c
  ch : t.ch ch = { s.ch ch with wake := (t.ch ch).wake, ts := (t.ch ch).ts }

theorem SameBlock.sameRing {s t : State} (h : SameBlock s t) (ch : Chan) : SameRing s t ch :=
  ⟨h.cfg, h.cell ch, by rw [h.ch]⟩

/-- An update of WAKE or the tracker. -/
theorem sameRing_updCh (s : State) (ch ch' : Chan) (f : Channel → Channel)
    (hf : ∀ x, f x = { x with wake := (f x).wake, ts := (f x).ts }) : SameRing s (s.updCh ch' f) ch := by
  refine ⟨rfl, fun _ => rfl, ?_⟩
  rw [State.ch_updCh]
  split
  · next e => rw [e, ← hf]
  · rfl

theorem SameRing.channelInv {s t : State} {ch : Chan} (h : SameRing s t ch) (hi : ChannelInv s ch) :
    ChannelInv t ch := by
  obtain ⟨hcfg, hcell, hch⟩ := h
  have hfront (a : Agent) (c : IndexCell) : t.front a ch c = s.front a ch c := by rw [State.front, hch, State.front]
  constructor
  · rw [hch]; exact hi.pFault
  · rw [hch]; exact hi.cFault
  · intro hu
    rw [hch] at hu
    obtain ⟨holder, hnd⟩ := hi.fresh hu
    exact ⟨by rw [hch]; exact holder, by rw [hch]; exact hnd⟩
  · intro hr
    rw [hch] at hr
    obtain ⟨p0, ds, ring⟩ := hi.ring hr
    refine ⟨p0, ds, ring.advance hcfg (fun c => State.hist_congr ch c (by rw [hch]) (hcell c)) ?_ ?_ ?_⟩
    · exact ⟨(hfront ..).ge, (hfront ..).trans_le ring.producerFront_le⟩
    · exact ⟨(hfront ..).ge, (hfront ..).trans_le ring.consumerFront⟩
    · rw [hfront, hch]
      exact ring.drain

/-- A READY channel whose flags did not change, with its ring in order. -/
theorem ChannelInv.of_ring {s u : State} {ch : Chan} (hi : ChannelInv s ch) (hready : (s.ch ch).chState = .ready)
    (hflags : (u.ch ch).chState = (s.ch ch).chState ∧ (u.ch ch).pFault = (s.ch ch).pFault ∧
      (u.ch ch).cFault = (s.ch ch).cFault) {p0 : Word} {ds : List Nat} (ring : RingInv u ch p0 ds) : ChannelInv u ch := by
  obtain ⟨hs, hp, hc⟩ := hflags
  refine ⟨hp.trans hi.pFault, hc.trans hi.cFault, fun hu => ?_, fun _ => ⟨p0, ds, ring⟩⟩
  rw [hs, hready] at hu
  cases hu

theorem State.isUninit_eq_false {s : State} {ch : Chan} : s.isUninit ch = false ↔ (s.ch ch).chState = .ready := by
  unfold State.isUninit
  cases (s.ch ch).chState <;> simp

/-- A command stores to the index cells of its own channel only (60_exceptions.md R220). -/
theorem CommandEffect.cell_other {s u : State} {i : Instr} {r : Option Response} (h : CommandEffect s i r u)
    (hl : s.cfg.legal = true) (hw : i.wellFormed s.cfg.slotWords = true) {ch : Chan} (hch : ch ≠ i.chan)
    (c : IndexCell) : u.cell ch c = s.cell ch c := by
  cases h with
  | pushOk ch' slot =>
    rw [State.cell_pushPublish (s := s.pushReads ch') hl (slotBytesOf_length_of_wellFormed hl hw),
      if_neg fun e => hch e.1]
    rfl
  | drainEnded ch' => rw [State.cell_drainEnd hl, if_neg fun e => hch e.1]
  | initialised ch' => rw [State.cell_reinit hl, if_neg fun e => hch e.1]
  | _ => rfl

/-- After PUSH's reads the producer's frontier is on the GET entry it read (20_memory.md R61). -/
theorem State.front_pushReads_get (s : State) (ch : Chan) :
    (s.pushReads ch).front (.prod ch) ch .get = s.viewIndex (.prod ch) ch .get := by
  simp [State.front, State.ch_pushReads, PerCell.val]

/-- After DRAIN_BEGIN's reads the consumer's frontier is on the PUT entry it read (R61). -/
theorem State.front_drainReads_put (s : State) (ch : Chan) :
    (s.drainReads ch).front (.cons ch) ch .put = s.viewIndex (.cons ch) ch .put := by
  simp [State.front, State.ch_drainReads, PerCell.val]

/-- A command keeps the protocol invariant of its own channel. -/
theorem CommandEffect.channelInv_own {s u : State} {i : Instr} {r : Option Response} (h : CommandEffect s i r u)
    (hl : s.cfg.legal = true) (hw : i.wellFormed s.cfg.slotWords = true) (hi : ChannelInv s i.chan) :
    ChannelInv u i.chan := by
  have ready_ring {ch : Chan} (ready : s.isUninit ch = false) (hch : ch = i.chan) :
      (s.ch ch).chState = .ready ∧ ∃ p0 ds, RingInv s ch p0 ds := by
    subst hch
    exact ⟨State.isUninit_eq_false.1 ready, hi.ring (State.isUninit_eq_false.1 ready)⟩
  cases h with
  | nothing => exact hi
  | pushCorrupt ch slot ready _ tooFull =>
    obtain ⟨-, p0, ds, ring⟩ := ready_ring ready rfl
    exact absurd tooFull (by simp [ring.producer_not_overCapacity hl])
  | pushFull ch slot ready =>
    obtain ⟨hr, p0, ds, ring⟩ := ready_ring ready rfl
    exact hi.of_ring hr (by simp [Instr.chan, State.ch_pushReads]) ring.pushReads
  | pushOk ch slot ready _ _ notFull =>
    obtain ⟨hr, p0, ds, ring⟩ := ready_ring ready rfl
    have hb : (slotBytesOf slot).length = (s.pushReads ch).cfg.slotBytes := slotBytesOf_length_of_wellFormed hl hw
    have hspace : (s.pushReads ch).histLast ch .put <
        ds.getD ((s.pushReads ch).front (.prod ch) ch .get) 0 + s.cfg.cap.val ch := by
      have hocc := ring.producer_occupancy hl
      have hbounds := ring.producer_view_bounds
      have hlast : (s.pushReads ch).histLast ch .put = s.histLast ch .put := by simp [State.pushReads, State.readIndex]
      rw [atCapacity, beq_eq_false_iff_ne] at notFull
      rw [State.front_pushReads_get, hlast]
      omega
    refine hi.of_ring hr ?_ (ring.pushReads.pushPublish hl hb hspace)
    simp [Instr.chan, State.ch_pushPublish (s := s.pushReads ch) hl hb, State.ch_pushReads]
  | drainCorrupt ch ready _ _ tooFull =>
    obtain ⟨-, p0, ds, ring⟩ := ready_ring ready rfl
    exact absurd tooFull (by simp [ring.consumer_not_overCapacity hl])
  | drainOpened ch ready =>
    obtain ⟨hr, p0, ds, ring⟩ := ready_ring ready rfl
    refine hi.of_ring hr (by simp [Instr.chan, State.ch_drainReads]) (ring.drainReads.openDrain ring.cell_get ?_)
    rw [ring.view_put, State.front_drainReads_put]
  | popped ch ready opened more =>
    obtain ⟨hr, p0, ds, ring⟩ := ready_ring ready rfl
    exact hi.of_ring hr (by simp [Instr.chan]) (ring.popNext opened more)
  | drainEnded ch ready opened =>
    obtain ⟨hr, p0, ds, ring⟩ := ready_ring ready rfl
    obtain ⟨c, ring⟩ := ring.drainEnd hl opened
    exact hi.of_ring hr (by simp [Instr.chan, State.ch_writeIndex]) ring
  | initialised ch closed =>
    exact ⟨by simp [Instr.chan], by simp [Instr.chan], fun hu => by simp [Instr.chan] at hu,
      fun _ => ⟨_, _, ringInv_reinit hl closed⟩⟩
  | woken ch => exact (sameRing_updCh s ch ch _ fun _ => rfl).channelInv hi
  | tracked ch raw => exact (sameRing_updCh s ch ch _ fun _ => rfl).channelInv hi
  | trackerCleared ch => exact (sameRing_updCh s ch ch _ fun _ => rfl).channelInv hi

/-- A command keeps the protocol invariant of both channels. -/
theorem CommandEffect.channelInv {s u : State} {i : Instr} {r : Option Response} (h : CommandEffect s i r u)
    (hl : s.cfg.legal = true) (hw : i.wellFormed s.cfg.slotWords = true) (hi : ∀ ch, ChannelInv s ch) (ch : Chan) :
    ChannelInv u ch := by
  by_cases hch : ch = i.chan
  · subst hch
    exact h.channelInv_own hl hw (hi _)
  · exact SameRing.channelInv ⟨h.cfg, h.cell_other hl hw hch, by rw [h.ch_other hch]⟩ (hi ch)

/-- Settles O49: every effect of a step but CORRUPT_WRITE keeps the invariant of each channel. -/
theorem disciplineIsKept : Obligations.DisciplineIsKept := by
  intro s t hd hstep
  obtain ⟨henv, hch⟩ := hd
  obtain ⟨hl, he⟩ := step_effect hstep
  refine ⟨by rw [configurationNeverChanges s t hstep, henv], fun ch => ?_⟩
  cases he with
  | quiet same => exact (same.sameRing ch).channelInv (hch ch)
  | command q i v u _ _ wf before effect after =>
    have hv (ch : Chan) : ChannelInv v ch := (before.sameRing ch).channelInv (hch ch)
    rw [← before.cfg] at hl wf
    exact (after.sameRing ch).channelInv (effect.channelInv hl wf hv ch)
  | wakeLoss ch' same =>
    exact (same.sameRing ch).channelInv ((sameRing_updCh s ch ch' _ fun _ => rfl).channelInv (hch ch))
  | corruptWrite ch' addr bytes enabled =>
    rw [henv] at enabled
    cases enabled

end Sys2Proof.Machine
end

section
/-! PROOFS. The tracker belongs to TRACK and TS_RESET alone (10_state.md R35): replacing its registers commutes with every other
command. -/

namespace Sys2Proof.Machine

/-- The state with channel `ch`'s tracker registers replaced (R32 to R34). -/
def State.withTracker (s : State) (ch : Chan) (ts : Tracker) : State := s.updCh ch fun x => { x with ts := ts }

/-- Applies `f` to the next state of a result. -/
def mapNext (f : State → State) : Result → Result
  | .next s => .next (f s)
  | .fault r => .fault r
  | .refused r => .refused r

namespace State

variable (s : State) (ch : Chan) (ts : Tracker)

/-! ### What a command reads -/

theorem ch_withTracker (ch' : Chan) :
    (s.withTracker ch ts).ch ch' = if ch' = ch then { s.ch ch with ts := ts } else s.ch ch' :=
  s.ch_updCh ch ch' _

/-- Every register of a channel but the tracker reads the same. -/
theorem ch_withTracker_eq (ch' : Chan) :
    (s.withTracker ch ts).ch ch' = { s.ch ch' with ts := ((s.withTracker ch ts).ch ch').ts } := by
  rw [ch_withTracker]
  split
  · next h => rw [h]
  · rfl

@[simp] theorem withTracker_cfg : (s.withTracker ch ts).cfg = s.cfg := rfl
@[simp] theorem withTracker_mem : (s.withTracker ch ts).mem = s.mem := rfl
@[simp] theorem withTracker_port : (s.withTracker ch ts).port = s.port := rfl
@[simp] theorem withTracker_draw : (s.withTracker ch ts).draw = s.draw := rfl
@[simp] theorem withTracker_cell (ch' : Chan) (c : IndexCell) : (s.withTracker ch ts).cell ch' c = s.cell ch' c := rfl

@[simp] theorem withTracker_pFault (ch' : Chan) : ((s.withTracker ch ts).ch ch').pFault = (s.ch ch').pFault := by
  rw [ch_withTracker_eq]
@[simp] theorem withTracker_cFault (ch' : Chan) : ((s.withTracker ch ts).ch ch').cFault = (s.ch ch').cFault := by
  rw [ch_withTracker_eq]
@[simp] theorem withTracker_cDrain (ch' : Chan) : ((s.withTracker ch ts).ch ch').cDrain = (s.ch ch').cDrain := by
  rw [ch_withTracker_eq]
@[simp] theorem withTracker_clGet (ch' : Chan) : ((s.withTracker ch ts).ch ch').clGet = (s.ch ch').clGet := by
  rw [ch_withTracker_eq]
@[simp] theorem withTracker_clLimit (ch' : Chan) : ((s.withTracker ch ts).ch ch').clLimit = (s.ch ch').clLimit := by
  rw [ch_withTracker_eq]
@[simp] theorem withTracker_wake (ch' : Chan) : ((s.withTracker ch ts).ch ch').wake = (s.ch ch').wake := by
  rw [ch_withTracker_eq]

@[simp] theorem withTracker_isUninit (ch' : Chan) : (s.withTracker ch ts).isUninit ch' = s.isUninit ch' := by
  rw [isUninit, ch_withTracker_eq, isUninit]

@[simp] theorem withTracker_hist (ch' : Chan) (c : IndexCell) : (s.withTracker ch ts).hist ch' c = s.hist ch' c :=
  hist_congr ch' c (by rw [ch_withTracker_eq]) rfl

@[simp] theorem withTracker_histLast (ch' : Chan) (c : IndexCell) :
    (s.withTracker ch ts).histLast ch' c = s.histLast ch' c := by
  rw [histLast, withTracker_hist, histLast]

@[simp] theorem withTracker_front (a : Agent) (ch' : Chan) (c : IndexCell) :
    (s.withTracker ch ts).front a ch' c = s.front a ch' c := by
  rw [front, ch_withTracker_eq, front]

@[simp] theorem withTracker_viewIndex (a : Agent) (ch' : Chan) (c : IndexCell) :
    (s.withTracker ch ts).viewIndex a ch' c = s.viewIndex a ch' c := by
  simp [viewIndex]

@[simp] theorem withTracker_view (a : Agent) (ch' : Chan) (c : IndexCell) :
    (s.withTracker ch ts).view a ch' c = s.view a ch' c := by
  simp [view]

@[simp] theorem withTracker_overwrites (ch' : Chan) (p : Word) :
    (s.withTracker ch ts).overwrites ch' p = s.overwrites ch' p := rfl

@[simp] theorem withTracker_nextSlot (ch' : Chan) : (s.withTracker ch ts).nextSlot ch' = s.nextSlot ch' := by
  simp [nextSlot, slotRead]

/-! ### What a command writes -/

/-- An update of a channel that neither reads nor writes its tracker commutes with the replacement. -/
theorem updCh_withTracker (ch' : Chan) (f : Channel → Channel)
    (hf : ∀ x : Channel, f { x with ts := ts } = { f x with ts := ts }) :
    (s.withTracker ch ts).updCh ch' f = (s.updCh ch' f).withTracker ch ts := by
  cases ch <;> cases ch' <;> simp [withTracker, updCh, PerChan.set, PerChan.val, hf]

@[simp] theorem setFront_withTracker (a : Agent) (ch' : Chan) (c : IndexCell) (k : Nat) :
    (s.withTracker ch ts).setFront a ch' c k = (s.setFront a ch' c k).withTracker ch ts :=
  s.updCh_withTracker ch ts ch' _ fun _ => rfl

@[simp] theorem readIndex_withTracker (a : Agent) (ch' : Chan) (c : IndexCell) :
    (s.withTracker ch ts).readIndex a ch' c = (s.readIndex a ch' c).withTracker ch ts := by
  simp [readIndex]

@[simp] theorem setMem_withTracker (m : Memory) :
    (s.withTracker ch ts).setMem m = (s.setMem m).withTracker ch ts := rfl

@[simp] theorem appendHist_withTracker (ch' : Chan) (c : IndexCell) (v : Word) :
    (s.withTracker ch ts).appendHist ch' c v = (s.appendHist ch' c v).withTracker ch ts :=
  congrArg (setMem · _) (s.updCh_withTracker ch ts ch' _ fun _ => rfl)

@[simp] theorem writeIndex_withTracker (a : Agent) (ch' : Chan) (c : IndexCell) (v : Word) :
    (s.withTracker ch ts).writeIndex a ch' c v = (s.writeIndex a ch' c v).withTracker ch ts := by
  simp [writeIndex]

@[simp] theorem setWake_withTracker (ch' : Chan) (b : Bool) :
    (s.withTracker ch ts).setWake ch' b = (s.setWake ch' b).withTracker ch ts :=
  s.updCh_withTracker ch ts ch' _ fun _ => rfl

@[simp] theorem setPFault_withTracker (ch' : Chan) :
    (s.withTracker ch ts).setPFault ch' = (s.setPFault ch').withTracker ch ts :=
  s.updCh_withTracker ch ts ch' _ fun _ => rfl

@[simp] theorem setCFault_withTracker (ch' : Chan) :
    (s.withTracker ch ts).setCFault ch' = (s.setCFault ch').withTracker ch ts :=
  s.updCh_withTracker ch ts ch' _ fun _ => rfl

@[simp] theorem pushReads_withTracker (ch' : Chan) :
    (s.withTracker ch ts).pushReads ch' = (s.pushReads ch').withTracker ch ts := by
  simp [pushReads]

@[simp] theorem drainReads_withTracker (ch' : Chan) :
    (s.withTracker ch ts).drainReads ch' = (s.drainReads ch').withTracker ch ts := by
  simp [drainReads]

@[simp] theorem pushPublish_withTracker (ch' : Chan) (p : Word) (bytes : List Byte) :
    (s.withTracker ch ts).pushPublish ch' p bytes = (s.pushPublish ch' p bytes).withTracker ch ts := by
  simp [pushPublish, slotWrite]

@[simp] theorem openDrain_withTracker (ch' : Chan) (g p : Word) :
    (s.withTracker ch ts).openDrain ch' g p = (s.openDrain ch' g p).withTracker ch ts :=
  s.updCh_withTracker ch ts ch' _ fun _ => rfl

@[simp] theorem closeDrain_withTracker (ch' : Chan) :
    (s.withTracker ch ts).closeDrain ch' = (s.closeDrain ch').withTracker ch ts :=
  s.updCh_withTracker ch ts ch' _ fun _ => rfl

@[simp] theorem reinit_withTracker (ch' : Chan) :
    (s.withTracker ch ts).reinit ch' = (s.reinit ch').withTracker ch ts :=
  congrArg (setMem · _) (s.updCh_withTracker ch ts ch' _ fun _ => rfl)

@[simp] theorem setWaiting_withTracker (q : Port) (b : Bool) :
    (s.withTracker ch ts).setWaiting q b = (s.setWaiting q b).withTracker ch ts := rfl

end State

/-! ### How a command ends -/

variable (s : State) (ch : Chan) (ts : Tracker)

@[simp] theorem mapNext_withTracker_respond (st : Status) (data : List Word) :
    mapNext (·.withTracker ch ts) (respond st data s) = respond st data (s.withTracker ch ts) := rfl

@[simp] theorem mapNext_withTracker_hold :
    mapNext (·.withTracker ch ts) (Sys2Proof.Machine.hold s) = Sys2Proof.Machine.hold (s.withTracker ch ts) := rfl

@[simp] theorem mapNext_withTracker_onLegalPort (op : Op) (ch' : Chan) (k : Result) :
    mapNext (·.withTracker ch ts) (onLegalPort op ch' s k) =
      onLegalPort op ch' (s.withTracker ch ts) (mapNext (·.withTracker ch ts) k) := by
  unfold onLegalPort
  rw [State.withTracker_port]
  cases portFault s.port op ch' <;> rfl

@[simp] theorem mapNext_withTracker_faultIf (cond : Bool) (code : FaultCode) (op : Op) (ch' : Chan) (k : Result) :
    mapNext (·.withTracker ch ts) (faultIf cond code op ch' s k) =
      faultIf cond code op ch' (s.withTracker ch ts) (mapNext (·.withTracker ch ts) k) := by
  cases cond <;> rfl

/-- Replacing the tracker before a command other than TRACK and TS_RESET is replacing it after the command (R35). -/
theorem exec_withTracker (i : Instr) (hi : i.op ≠ .track) (hi' : i.op ≠ .tsReset) :
    exec i (s.withTracker ch ts) = mapNext (·.withTracker ch ts) (exec i s) := by
  cases i with
  | push ch' slot => simp [exec, execPush, apply_ite (mapNext _)]
  | drainBegin ch' => simp [exec, execDrainBegin, apply_ite (mapNext _)]
  | pop ch' =>
    have hnext := s.updCh_withTracker ch ts ch' (fun x => { x with clGet := x.clGet + 1#32 }) fun _ => rfl
    simp [exec, execPop, apply_ite (mapNext _), hnext]
  | drainEnd ch' => simp [exec, execDrainEnd]
  | init ch' => simp [exec, execInit]
  | wakeWait ch' =>
    simp only [exec, execWakeWait, mapNext_withTracker_onLegalPort, State.withTracker_wake, State.withTracker_draw,
      State.withTracker_port]
    cases waitChoice (s.ch ch').wake s.draw <;> simp
  | track => exact absurd rfl hi
  | tsReset => exact absurd rfl hi'

/-- Writing a tracker's own value back changes nothing. -/
theorem State.withTracker_self : s.withTracker ch (s.ch ch).ts = s := by
  cases ch <;> rfl

/-- Settles O30: replacing the tracker commutes with the command; for the tracker's own value this says the command keeps it. -/
theorem trackerIsPrivate : Obligations.TrackerIsPrivate := by
  intro s t i ch ts hi hi' h
  have hcommutes (ts : Tracker) : exec i (s.withTracker ch ts) = .next (t.withTracker ch ts) := by
    rw [exec_withTracker s ch ts i hi hi', h, mapNext]
  have hself : t = t.withTracker ch (s.ch ch).ts := by
    simpa [State.withTracker_self, h] using hcommutes (s.ch ch).ts
  refine ⟨?_, hcommutes ts⟩
  calc
    (t.ch ch).ts = ((t.withTracker ch (s.ch ch).ts).ch ch).ts := by rw [← hself]
    _ = (s.ch ch).ts := by rw [State.ch_withTracker, if_pos rfl]

end Sys2Proof.Machine
end

section
/-! PROOFS. The segment memory under a step: its canonical form (20_memory.md R50, log 3), and the slots in flight, which hold what was
pushed (R67). -/

namespace Sys2Proof.Machine

/-! ### The canonical form -/

theorem CommandEffect.wf_mem {s u : State} {i : Instr} {r : Option Response} (h : CommandEffect s i r u)
    (hm : s.mem.wf = true) : u.mem.wf = true := by
  cases h with
  | pushOk => exact Memory.wf_writeWord _ _ _ (Memory.wf_writeBytes _ _ _ hm)
  | drainEnded => exact Memory.wf_writeWord _ _ _ hm
  | initialised => exact Memory.wf_writeWord _ _ _ hm
  | _ => exact hm

/-- Settles O45: of the effects of a step PUSH, DRAIN_END, INIT and CORRUPT_WRITE store bytes, and a store keeps the form. -/
theorem memoryStaysCanonical : Obligations.MemoryStaysCanonical := by
  intro s t hm hstep
  obtain ⟨-, he⟩ := step_effect hstep
  cases he with
  | quiet same => rwa [same.mem]
  | command q i v u _ _ _ before effect after =>
    rw [after.mem]
    exact effect.wf_mem (by rwa [before.mem])
  | wakeLoss ch same => rwa [same.mem]
  | corruptWrite ch addr bytes _ same =>
    rw [same.mem]
    exact Memory.wf_writeBytes _ _ _ hm

/-! ### The slots a command leaves alone -/

/-- PUSH's publish stores one slot (41_ring_producer.md R140). -/
theorem State.slotRead_pushPublish {s : State} {bytes : List Byte} (hl : s.cfg.legal = true)
    (hb : bytes.length = s.cfg.slotBytes) (ch ch' : Chan) (p : Word) {j : Nat} (hj : j < s.cfg.cap.val ch') :
    (s.pushPublish ch p bytes).slotRead ch' j =
      if ch' = ch ∧ j = s.cfg.slotOf ch p then bytes else s.slotRead ch' j := by
  rw [State.slotRead_writeWord (s := s.slotWrite ch (s.cfg.slotOf ch p) bytes) (t := s.pushPublish ch p bytes)
    hl rfl rfl hj]
  split
  · next e =>
    obtain ⟨rfl, rfl⟩ := e
    exact State.slotRead_slotWrite_same s ch' _ bytes hb
  · next e => exact State.slotRead_slotWrite_ne s ch ch' _ j bytes hl hb (Config.slotOf_lt hl ch p) hj e

/-- Only a PUSH of the channel that returned OK stores to the channel's slots. -/
theorem CommandEffect.slotRead_of_not_pushedOk {s u : State} {i : Instr} {r : Option Response} (h : CommandEffect s i r u)
    (hl : s.cfg.legal = true) (hw : i.wellFormed s.cfg.slotWords = true) {ch : Chan} (hn : ¬ PushedOk s i r ch)
    {j : Nat} (hj : j < s.cfg.cap.val ch) : u.slotRead ch j = s.slotRead ch j := by
  cases h with
  | pushOk ch' slot =>
    rw [State.slotRead_pushPublish (s := s.pushReads ch') hl (slotBytesOf_length_of_wellFormed hl hw) ch' ch _ hj,
      if_neg fun e => hn ⟨slot, by rw [e.1], rfl⟩]
    rfl
  | drainEnded ch' => exact State.slotRead_writeWord hl rfl rfl hj
  | initialised ch' => exact State.slotRead_writeWord hl rfl rfl hj
  | _ => rfl

/-- A PUSH that passed the overwrite check stores to no slot of an unread index (R141). -/
theorem State.slotOf_ne_of_overwrites {s : State} {ch : Chan} {p : Word} (h : s.overwrites ch p = false) {k : Nat}
    (hk : k < (p - s.cell ch .get).toNat) :
    s.cfg.slotOf ch (s.cell ch .get + BitVec.ofNat 32 k) ≠ s.cfg.slotOf ch p := by
  have hall : ∀ k < (p - s.cell ch .get).toNat,
      s.cfg.slotOf ch (s.cell ch .get + BitVec.ofNat 32 k) ≠ s.cfg.slotOf ch p := by
    simpa [State.overwrites] using (Bool.or_eq_false_iff.1 h).2
  exact hall k hk

/-! ### The contents invariant -/

theorem SameRing.ringInv {s t : State} {ch : Chan} (h : SameRing s t ch) {p0 : Word} {ds : List Nat}
    (ring : RingInv s ch p0 ds) : RingInv t ch p0 ds := by
  obtain ⟨hcfg, hcell, hch⟩ := h
  have hfront (a : Agent) (c : IndexCell) : t.front a ch c = s.front a ch c := by rw [State.front, hch, State.front]
  refine ring.advance hcfg (fun c => State.hist_congr ch c (by rw [hch]) (hcell c)) ?_ ?_ ?_
  · exact ⟨(hfront ..).ge, (hfront ..).trans_le ring.producerFront_le⟩
  · exact ⟨(hfront ..).ge, (hfront ..).trans_le ring.consumerFront⟩
  · rw [hfront, hch]
    exact ring.drain

theorem SameRing.histLast {s t : State} {ch : Chan} (h : SameRing s t ch) (c : IndexCell) :
    t.histLast ch c = s.histLast ch c := by
  rw [State.histLast_eq, State.histLast_eq, h.ch]

/-! ### What keeps the contents -/

theorem State.histLast_pushReads (s : State) (ch : Chan) (c : IndexCell) :
    (s.pushReads ch).histLast ch c = s.histLast ch c := by
  simp [State.pushReads, State.readIndex]

theorem State.histLast_drainReads (s : State) (ch : Chan) (c : IndexCell) :
    (s.drainReads ch).histLast ch c = s.histLast ch c := by
  simp [State.drainReads, State.readIndex]

namespace ContentsInv

variable {s t : State} {ch : Chan} {log : List (List Byte)} {p0 : Word} {ds ds' : List Nat}

/-- The ring is in order again, PUT is where it was, GET is not behind where it was, and no slot changed. -/
theorem of_ring (h : ContentsInv s ch log p0 ds) (hl : s.cfg.legal = true) (ring : RingInv t ch p0 ds')
    (hcfg : t.cfg = s.cfg) (hput : t.histLast ch .put = s.histLast ch .put) (hget : ds.getLastD 0 ≤ ds'.getLastD 0)
    (hslots : ∀ j, j < s.cfg.cap.val ch → t.slotRead ch j = s.slotRead ch j) : ContentsInv t ch log p0 ds' where
  ring := ring
  logLength := by rw [hput, h.logLength]
  contents i hi hlog := by
    rw [hcfg, hslots _ (Config.slotOf_lt hl ch _)]
    exact h.contents i (Nat.le_trans hget hi) hlog

theorem of_sameRing (h : ContentsInv s ch log p0 ds) (hl : s.cfg.legal = true) (same : SameRing s t ch)
    (hslots : ∀ j, j < s.cfg.cap.val ch → t.slotRead ch j = s.slotRead ch j) : ContentsInv t ch log p0 ds :=
  h.of_ring hl (same.ringInv h.ring) same.cfg (same.histLast .put) (Nat.le_refl _) hslots

theorem pushReads (h : ContentsInv s ch log p0 ds) (hl : s.cfg.legal = true) : ContentsInv (s.pushReads ch) ch log p0 ds :=
  h.of_ring hl h.ring.pushReads rfl (s.histLast_pushReads ch .put) (Nat.le_refl _) fun _ _ => rfl

/-- An unread index is one of the OverwriteCheck's, counted from GET (41_ring_producer.md R141). -/
theorem slotOf_ne (h : ContentsInv s ch log p0 ds) (hl : s.cfg.legal = true)
    (free : s.overwrites ch (s.cell ch .put) = false) {i : Nat} (hi : ds.getLastD 0 ≤ i) (hlog : i < log.length) :
    s.cfg.slotOf ch (p0 + BitVec.ofNat 32 i) ≠ s.cfg.slotOf ch (s.cell ch .put) := by
  have hcap := Config.cap_lt hl ch
  have hbound := h.ring.put_le_getLastD_add_cap
  have hput := h.logLength
  have hocc : (s.cell ch .put - s.cell ch .get).toNat = s.histLast ch .put - ds.getLastD 0 := by
    rw [h.ring.cell_put, h.ring.cell_get, toNat_position_sub _ h.ring.getLastD_le_put (by omega)]
  have hne := State.slotOf_ne_of_overwrites free (k := i - ds.getLastD 0) (by omega)
  rwa [h.ring.cell_get, BitVec.add_assoc, ← BitVec.ofNat_add, Nat.add_sub_cancel' hi] at hne

/-- PUSH's publish keeps the unread slots and adds the new one (R140, R141). -/
theorem pushPublish (h : ContentsInv s ch log p0 ds) (hl : s.cfg.legal = true) {bytes : List Byte}
    (hb : bytes.length = s.cfg.slotBytes) (free : s.overwrites ch (s.cell ch .put) = false)
    (hspace : s.histLast ch .put < ds.getD (s.front (.prod ch) ch .get) 0 + s.cfg.cap.val ch) :
    ContentsInv (s.pushPublish ch (s.cell ch .put) bytes) ch (log ++ [bytes]) p0 ds where
  ring := h.ring.pushPublish hl hb hspace
  logLength := by
    have hhist := State.hist_pushPublish hl hb ch .put (s.cell ch .put)
    rw [List.length_append, h.logLength, List.length_singleton]
    exact (State.histLast_of_hist (by simp [hhist])).symm
  contents i hi hlog := by
    rw [State.pushPublish_cfg, State.slotRead_pushPublish hl hb _ _ _ (Config.slotOf_lt hl ch _)]
    rw [List.length_append, List.length_singleton] at hlog
    rcases Nat.lt_or_eq_of_le (Nat.le_of_lt_succ hlog) with hold | rfl
    · rw [if_neg fun e => h.slotOf_ne hl free hi hold e.2, List.getD_append _ _ _ _ hold]
      exact h.contents i hi hold
    · rw [if_pos ⟨rfl, by rw [h.ring.cell_put, h.logLength]⟩]
      simp

/-- A PUSH that reads space and passes the overwrite check appends its image (R140, R141). -/
theorem pushOk (h : ContentsInv s ch log p0 ds) (hl : s.cfg.legal = true) {bytes : List Byte}
    (hb : bytes.length = s.cfg.slotBytes)
    (notFull : atCapacity s.cfg ch (s.cell ch .put - s.view (.prod ch) ch .get) = false)
    (free : s.overwrites ch (s.cell ch .put) = false) :
    ContentsInv ((s.pushReads ch).pushPublish ch (s.cell ch .put) bytes) ch (log ++ [bytes]) p0 ds := by
  refine (h.pushReads hl).pushPublish (s := s.pushReads ch) hl hb free ?_
  have hocc := h.ring.producer_occupancy hl
  have hbounds := h.ring.producer_view_bounds
  rw [atCapacity, beq_eq_false_iff_ne] at notFull
  rw [State.front_pushReads_get, State.histLast_pushReads, State.pushReads_cfg]
  omega

/-- DRAIN_BEGIN moves neither index (42_ring_consumer.md R160). -/
theorem openDrain (h : ContentsInv s ch log p0 ds) (hl : s.cfg.legal = true) :
    ContentsInv ((s.drainReads ch).openDrain ch (s.cell ch .get) (s.view (.cons ch) ch .put)) ch log p0 ds := by
  have ring := h.ring.drainReads.openDrain h.ring.cell_get
    (by rw [h.ring.view_put, State.front_drainReads_put] : s.view (.cons ch) ch .put = _)
  refine h.of_ring hl ring rfl ?_ (Nat.le_refl _) fun _ _ => rfl
  rw [← s.histLast_drainReads, State.histLast_eq, State.histLast_eq, State.ch_openDrain, if_pos rfl]

/-- POP moves neither index (R161). -/
theorem popNext (h : ContentsInv s ch log p0 ds) (hl : s.cfg.legal = true) (opened : (s.ch ch).cDrain = true)
    (more : (s.ch ch).clGet ≠ (s.ch ch).clLimit) :
    ContentsInv (s.updCh ch fun x => { x with clGet := x.clGet + 1 }) ch log p0 ds :=
  h.of_ring hl (h.ring.popNext opened more) rfl (by simp [State.histLast_eq]) (Nat.le_refl _) fun _ _ => rfl

/-- DRAIN_END publishes a GET that is not behind the last one, and leaves PUT and the slots alone (R162). -/
theorem drainEnd (h : ContentsInv s ch log p0 ds) (hl : s.cfg.legal = true) (opened : (s.ch ch).cDrain = true) :
    ∃ c, ContentsInv ((s.writeIndex (.cons ch) ch .get (s.ch ch).clGet).closeDrain ch) ch log p0 (ds ++ [c]) := by
  obtain ⟨c, ring⟩ := h.ring.drainEnd hl opened
  have hlen := h.ring.length_positions
  have hput := State.hist_drainEnd hl ch .put (s.ch ch).clGet
  have hget := getD_le_getD_of_rising ring.rising (i := ds.length - 1) (j := ds.length) (by omega) (by simp)
  rw [List.getD_append _ _ _ _ (by omega), getD_length_sub_one, List.getD_append_right _ _ _ _ (Nat.le_refl _),
    Nat.sub_self, List.getD_cons_zero] at hget
  exact ⟨c, h.of_ring hl ring rfl (State.histLast_of_hist (n := 0) (by simp [hput])) (by rwa [List.getLastD_concat])
    fun j hj => State.slotRead_writeWord hl rfl rfl hj⟩

end ContentsInv

/-- INIT begins an empty log (43_channel_control.md R190). -/
theorem contentsInv_reinit {s : State} (hl : s.cfg.legal = true) {ch : Chan} (closed : (s.ch ch).cDrain = false) :
    ContentsInv (s.reinit ch) ch [] (s.cell ch .put) [0] where
  ring := ringInv_reinit hl closed
  logLength := by simp [State.histLast, State.hist_reinit hl]
  contents i _ hlog := absurd hlog (Nat.not_lt_zero i)

/-! ### What a command leaves of the log -/

/-- The log after command `i` answered with `r`: `nextLog`, said of the command (R67). -/
def logAfter (i : Instr) (r : Option Response) (ch : Chan) (log : List (List Byte)) : List (List Byte) :=
  if r.map (·.status) = some .ok then
    match i with
    | .push ch' slot => if ch' = ch then log ++ [slotBytesOf slot] else log
    | .init ch' => if ch' = ch then [] else log
    | _ => log
  else log

theorem nextLog_of_command {s t : State} {q : Port} {i : Instr} (h : s.nextCommand = some (q, i)) (ch : Chan)
    (log : List (List Byte)) : nextLog s t ch log = logAfter i t.response ch log := by
  unfold nextLog logAfter
  rw [h]
  cases i <;> rfl

theorem nextLog_of_silent {s t : State} (h : t.response = none) (ch : Chan) (log : List (List Byte)) :
    nextLog s t ch log = log := by
  simp [nextLog, h]

theorem logAfter_of_not_ok {r : Option Response} (h : r.map (·.status) ≠ some .ok) (i : Instr) (ch : Chan)
    (log : List (List Byte)) : logAfter i r ch log = log := by
  unfold logAfter
  exact if_neg h

theorem logAfter_of_ne {i : Instr} {ch : Chan} (h : ch ≠ i.chan) (r : Option Response) (log : List (List Byte)) :
    logAfter i r ch log = log := by
  cases i with
  | push ch' slot => simp [logAfter, show ch' ≠ ch from Ne.symm h]
  | init ch' => simp [logAfter, show ch' ≠ ch from Ne.symm h]
  | _ => exact ite_self _

/-! ### Every step carries the log -/

theorem SameRing.carries {s t : State} {ch : Chan} {log : List (List Byte)} (same : SameRing s t ch)
    (hl : s.cfg.legal = true) (hslots : ∀ j, j < s.cfg.cap.val ch → t.slotRead ch j = s.slotRead ch j)
    (hc : Carries s ch log) : Carries t ch log := by
  intro hready
  rw [same.ch] at hready
  obtain ⟨p0, ds, inv⟩ := hc hready
  exact ⟨p0, ds, inv.of_sameRing hl same hslots⟩

theorem SameBlock.carries {s t : State} {ch : Chan} {log : List (List Byte)} (same : SameBlock s t)
    (hl : s.cfg.legal = true) (hc : Carries s ch log) : Carries t ch log :=
  (same.sameRing ch).carries hl (fun j _ => State.slotRead_congr same.cfg same.mem ch j) hc

/-- An update of WAKE or the tracker. -/
theorem Carries.updCh {s : State} {ch : Chan} {log : List (List Byte)} (hc : Carries s ch log) (hl : s.cfg.legal = true)
    (ch' : Chan) (f : Channel → Channel) (hf : ∀ x, f x = { x with wake := (f x).wake, ts := (f x).ts }) :
    Carries (s.updCh ch' f) ch log :=
  (sameRing_updCh s ch ch' f hf).carries hl (fun _ _ => rfl) hc

/-- A command carries the log of its own channel. -/
theorem CommandEffect.carries_own {s u : State} {i : Instr} {r : Option Response} (h : CommandEffect s i r u)
    (hl : s.cfg.legal = true) (hw : i.wellFormed s.cfg.slotWords = true) {log : List (List Byte)}
    (hc : Carries s i.chan log) : Carries u i.chan (logAfter i r i.chan log) := by
  have contents {ch : Chan} (ready : s.isUninit ch = false) (hch : ch = i.chan) : ∃ p0 ds, ContentsInv s ch log p0 ds := by
    subst hch
    exact hc (State.isUninit_eq_false.1 ready)
  cases h with
  | nothing _ _ notOk =>
    rw [logAfter_of_not_ok notOk]
    exact hc
  | pushCorrupt ch slot ready _ tooFull =>
    obtain ⟨p0, ds, inv⟩ := contents ready rfl
    exact absurd tooFull (by simp [inv.ring.producer_not_overCapacity hl])
  | pushFull ch slot ready =>
    obtain ⟨p0, ds, inv⟩ := contents ready rfl
    exact fun _ => ⟨p0, ds, inv.pushReads hl⟩
  | pushOk ch slot ready _ _ notFull free =>
    obtain ⟨p0, ds, inv⟩ := contents ready rfl
    have hlog : logAfter (.push ch slot) (some ⟨s.port, .ok, []⟩) ch log = log ++ [slotBytesOf slot] := by
      simp [logAfter]
    rw [Instr.chan, hlog]
    exact fun _ => ⟨p0, ds, inv.pushOk hl (slotBytesOf_length_of_wellFormed hl hw) notFull free⟩
  | drainCorrupt ch ready _ _ tooFull =>
    obtain ⟨p0, ds, inv⟩ := contents ready rfl
    exact absurd tooFull (by simp [inv.ring.consumer_not_overCapacity hl])
  | drainOpened ch ready =>
    obtain ⟨p0, ds, inv⟩ := contents ready rfl
    exact fun _ => ⟨p0, ds, inv.openDrain hl⟩
  | popped ch ready opened more =>
    obtain ⟨p0, ds, inv⟩ := contents ready rfl
    exact fun _ => ⟨p0, ds, inv.popNext hl opened more⟩
  | drainEnded ch ready opened =>
    obtain ⟨p0, ds, inv⟩ := contents ready rfl
    obtain ⟨c, ended⟩ := inv.drainEnd hl opened
    exact fun _ => ⟨p0, ds ++ [c], ended⟩
  | initialised ch closed =>
    have hlog : logAfter (.init ch) (some ⟨s.port, .ok, []⟩) ch log = [] := by simp [logAfter]
    rw [Instr.chan, hlog]
    exact fun _ => ⟨_, _, contentsInv_reinit hl closed⟩
  | woken ch => exact hc.updCh hl ch _ fun _ => rfl
  | tracked ch raw => exact hc.updCh hl ch _ fun _ => rfl
  | trackerCleared ch => exact hc.updCh hl ch _ fun _ => rfl

/-- A command carries the logs of both channels. -/
theorem CommandEffect.carries {s u : State} {i : Instr} {r : Option Response} (h : CommandEffect s i r u)
    (hl : s.cfg.legal = true) (hw : i.wellFormed s.cfg.slotWords = true) {ch : Chan} {log : List (List Byte)}
    (hc : Carries s ch log) : Carries u ch (logAfter i r ch log) := by
  by_cases hch : ch = i.chan
  · subst hch
    exact h.carries_own hl hw hc
  · rw [logAfter_of_ne hch]
    have same : SameRing s u ch := ⟨h.cfg, h.cell_other hl hw hch, by rw [h.ch_other hch]⟩
    have notPushed : ¬ PushedOk s i r ch := fun ⟨slot, hi, _⟩ => hch (by rw [hi]; rfl)
    exact same.carries hl (fun j hj => h.slotRead_of_not_pushedOk hl hw notPushed hj) hc

/-- Settles O53: every effect of a step but CORRUPT_WRITE carries the log, which the step's command grows or empties. -/
theorem slotsKeepWhatWasPushed : Obligations.SlotsKeepWhatWasPushed := by
  intro s t ch log hd hc hstep
  obtain ⟨hl, he⟩ := step_effect hstep
  cases he with
  | quiet same silent =>
    rw [nextLog_of_silent silent]
    exact same.carries hl hc
  | command q i v u next _ wf before effect after =>
    rw [nextLog_of_command next]
    have hlv : v.cfg.legal = true := by rwa [before.cfg]
    have carried := effect.carries hlv (by rwa [before.cfg]) (before.carries hl hc)
    exact after.carries (by rwa [effect.cfg]) carried
  | wakeLoss ch' same silent =>
    rw [nextLog_of_silent silent]
    exact same.carries hl (hc.updCh hl ch' _ fun _ => rfl)
  | corruptWrite ch' addr bytes enabled =>
    rw [hd.noForeignWrites] at enabled
    cases enabled

end Sys2Proof.Machine
end

section
/-! PROOFS. The shared segments: which configurations have a run (20_memory.md R55), byte order (R54, R51), the one copy of a slot
(R64), and that equal bytes are one canonical memory (R50, log 3). -/

namespace Sys2Proof.Machine

/-! ### Configurations (R55, 00_scope.md R8) -/

theorem exec_ne_refused (i : Instr) (s : State) (r : Refusal) : exec i s ≠ .refused r := by
  obtain ⟨t, h⟩ := exec_answers_next i s
  rw [h]
  exact fun e => by cases e

theorem servePort_ne_refused (q : Port) (s : State) (r : Refusal) : servePort q s ≠ .refused r := by
  rcases servePort_cases q s with ⟨-, h⟩ | ⟨-, ⟨-, h⟩ | ⟨cw, ops, -, ⟨code, -, h⟩ | ⟨i, rest, -, -, h⟩ | ⟨op, ch, -, -, h⟩⟩⟩ <;>
    rw [h]
  · exact exec_ne_refused _ _ r
  · exact fun e => by cases e
  · exact fun e => by cases e
  · exact exec_ne_refused _ _ r
  · exact fun e => by cases e

/-- Once its configuration is accepted, the machine is refused at most a move of ENV (43_channel_control.md R192, log 13). -/
theorem runSchedule_ne_illegalConfig (s : State) : runSchedule s ≠ .refused .illegalConfig := by
  unfold runSchedule
  cases s.schedule with
  | nil => exact fun e => by cases e
  | cons m rest =>
    cases m with
    | port q d => exact servePort_ne_refused q _ _
    | wakeLoss ch => exact fun e => by cases e
    | corruptWrite ch addr bytes =>
      dsimp only [takeMove, envCorruptWrite]
      split <;> exact fun e => by cases e

/-- Exactly an illegal configuration is refused as one. -/
theorem step_illegalConfig_iff (s : State) : step s = .refused .illegalConfig ↔ ¬ s.cfg.legal = true := by
  unfold step
  by_cases hl : s.cfg.legal = true
  · by_cases hf : s.faults = []
    · simp [hl, hf, runSchedule_ne_illegalConfig]
    · simp [hl, hf]
  · simp [hl]

/-- Two segments that share no byte lie one after the other, since each has its header. -/
theorem segments_apart_iff (cfg : Config) :
    (cfg.base.rx + cfg.segmentLength .rx ≤ cfg.base.tx ∨ cfg.base.tx + cfg.segmentLength .tx ≤ cfg.base.rx) ↔
      ∀ a, ¬ (cfg.inSegment .rx a = true ∧ cfg.inSegment .tx a = true) := by
  have hrx : 8 ≤ cfg.segmentLength .rx := Nat.le_add_right ..
  have htx : 8 ≤ cfg.segmentLength .tx := Nat.le_add_right ..
  simp only [Config.inSegment, Bool.and_eq_true, decide_eq_true_eq]
  simp only [PerChan.val]
  constructor
  · intro _ a
    omega
  · intro hall
    have := hall (max cfg.base.rx cfg.base.tx)
    omega

/-- Settles O12: `Config.legal` is R8's and R55's conditions, with the overlap said by end addresses. -/
theorem illegalConfigurationHasNoRun : Obligations.IllegalConfigurationHasNoRun := by
  intro s
  rw [step_illegalConfig_iff, Config.legal_iff, segments_apart_iff]

/-! ### Byte order (R54, R51) -/

theorem Memory.memRead_eq_sum (m : Memory) (addr n : Nat) :
    m.memRead addr n = ((List.range n).map fun k => (m.readByte (addr + k)).toNat * 2 ^ (8 * k)).sum := by
  induction n generalizing addr with
  | zero => rfl
  | succ n ih =>
    have hshift : ∀ k, (m.readByte (addr + (k + 1))).toNat * 2 ^ (8 * (k + 1)) =
        256 * ((m.readByte (addr + 1 + k)).toNat * 2 ^ (8 * k)) := by
      intro k
      rw [Nat.add_comm k 1, ← Nat.add_assoc, Nat.mul_add 8 1 k, Nat.pow_add]
      ring
    rw [List.range_succ_eq_map, List.map_cons, List.map_map, List.sum_cons]
    simp only [Function.comp_def, Nat.succ_eq_add_one, hshift, List.sum_map_mul_left]
    rw [← ih]
    simp [Memory.memRead, Memory.readBytes, leNat]

/-- Byte `k` of a number, least significant first. -/
theorem leBytes_getD_toNat (n v k : Nat) (h : k < n) : ((leBytes n v).getD k 0).toNat = v / 2 ^ (8 * k) % 256 := by
  induction n generalizing v k with
  | zero => omega
  | succ n ih =>
    cases k with
    | zero => simp [leBytes]
    | succ k =>
      rw [leBytes, List.getD_cons_succ, ih _ _ (by omega), Nat.div_div_eq_div_mul, Nat.mul_add, Nat.pow_add, Nat.mul_comm]

theorem Memory.readByte_memWrite (m : Memory) (addr n v k : Nat) (h : k < n) :
    ((m.memWrite addr n v).readByte (addr + k)).toNat = v / 2 ^ (8 * k) % 256 := by
  rw [Memory.memWrite, Memory.readByte_writeBytes, leBytes_length, if_pos (by omega), Nat.add_sub_cancel_left,
    leBytes_getD_toNat n v k h]

theorem Memory.readByte_memWrite_outside (m : Memory) (addr n v a : Nat) (h : ¬ Within a addr n) :
    (m.memWrite addr n v).readByte a = m.readByte a := by
  unfold Within at h
  exact Memory.readByte_writeBytes_outside _ _ _ _ (by rw [leBytes_length]; omega)

/-- A u32 cell holds the number its four bytes make, none lost (R56). -/
theorem Memory.readWord_toNat (m : Memory) (a : Nat) : (m.readWord a).toNat = m.memRead a 4 := by
  have hlt := leNat_lt (m.readBytes a 4)
  rw [Memory.readBytes_length] at hlt
  rw [Memory.readWord, BitVec.toNat_ofNat, Memory.memRead]
  omega

/-- Settles O37: byte k of a number is its k-th digit to the base 256, and an index cell is a MemRead of four bytes. -/
theorem memoryIsLittleEndian : Obligations.MemoryIsLittleEndian := fun m addr n v =>
  ⟨m.memRead_eq_sum addr n, m.readByte_memWrite addr n v, m.readByte_memWrite_outside addr n v, fun s ch =>
    ⟨by rw [State.cell, Memory.readWord_toNat, Memory.memRead_eq_sum]; rfl,
      by rw [State.cell, Memory.readWord_toNat, Memory.memRead_eq_sum]; rfl⟩⟩

/-! ### Slots (R64) -/

/-- Settles O41: slots and index cells lie apart (R52), so a store to one slot is read back from it alone. -/
theorem slotMemoryHasOneCopy : Obligations.SlotMemoryHasOneCopy := by
  intro s ch i bytes hl hi hb
  exact ⟨s.slotRead_slotWrite_same ch i bytes hb,
    fun ch' j hj hne => s.slotRead_slotWrite_ne ch ch' i j bytes hl hb hi hj hne,
    fun ch' c => s.cell_slotWrite ch ch' c i bytes hl hb hi⟩

/-! ### Equal bytes are one canonical memory (log 3) -/

theorem Memory.mem_of_readByte_ne (m : Memory) (a : Nat) (h : m.readByte a ≠ Memory.unlisted) :
    (a, m.readByte a) ∈ m := by
  induction m with
  | nil => exact absurd rfl h
  | cons cell m ih =>
    obtain ⟨b, w⟩ := cell
    rw [Memory.readByte] at h ⊢
    split
    · next e => rw [e]; exact List.mem_cons_self
    · next e =>
      rw [if_neg e] at h
      exact List.mem_cons_of_mem _ (ih h)

/-- A canonical memory lists exactly the bytes that do not read as unlisted. -/
theorem Memory.mem_iff_of_wf {m : Memory} (h : m.wf = true) (cell : Host.Cell) :
    cell ∈ m ↔ m.readByte cell.1 = cell.2 ∧ cell.2 ≠ Memory.unlisted := by
  obtain ⟨hp, hne⟩ := (Memory.wf_iff m).1 h
  constructor
  · exact fun hc => ⟨m.readByte_of_mem hp cell hc, hne cell hc⟩
  · rintro ⟨hr, hu⟩
    have hmem := m.mem_of_readByte_ne cell.1 (by rwa [hr])
    rwa [hr] at hmem

theorem Memory.eq_of_readByte_eq {m m' : Memory} (h : m.wf = true) (h' : m'.wf = true)
    (hr : ∀ a, m.readByte a = m'.readByte a) : m = m' := by
  have : Std.Irrefl fun c d : Host.Cell => c.1 < d.1 := ⟨fun _ => Nat.lt_irrefl _⟩
  have : Std.Antisymm fun c d : Host.Cell => c.1 < d.1 := ⟨fun _ _ hcd hdc => absurd hcd (Nat.lt_asymm hdc)⟩
  refine List.Pairwise.eq_of_mem_iff ((Memory.wf_iff m).1 h).1 ((Memory.wf_iff m').1 h').1 fun cell => ?_
  rw [Memory.mem_iff_of_wf h, Memory.mem_iff_of_wf h', hr]

/-- Settles O46: a canonical memory is the sorted list of the bytes that do not read as unlisted, so its bytes determine it. -/
theorem canonicalMemoryIsUnique : Obligations.CanonicalMemoryIsUnique :=
  ⟨rfl, fun _ _ => Memory.eq_of_readByte_eq⟩

end Sys2Proof.Machine
end

section
/-! PROOFS. IndexRead and IndexWrite (20_memory.md R60 to R62, R66): what they return, and what they leave unchanged. -/

namespace Sys2Proof.Machine

/-! ### IndexRead (R61) -/

/-- The value read is the history's entry at the position read. -/
theorem State.hist_getElem?_viewIndex (s : State) (a : Agent) (ch : Chan) (c : IndexCell) :
    (s.hist ch c)[s.viewIndex a ch c]? = some (s.view a ch c) := by
  have hlt : s.viewIndex a ch c < (s.hist ch c).length := by
    have := s.viewIndex_le a ch c
    rw [s.hist_length]
    omega
  rw [State.view, List.getD_eq_getElem _ _ hlt, List.getElem?_eq_getElem hlt]

/-- A non-owner may read any entry from its frontier on. -/
theorem State.exists_draw_viewIndex {s : State} {a : Agent} {ch : Chan} {c : IndexCell} (ha : a ≠ ownerOf ch c) {j : Nat}
    (hlo : s.front a ch c ≤ j) (hhi : j ≤ s.histLast ch c) :
    ∃ d, ({ s with draw := d } : State).viewIndex a ch c = j :=
  ⟨j - s.front a ch c, by
    rw [State.viewIndex, if_neg ha]
    exact pick_surjective _ _ _ hlo hhi⟩

/-- Settles O38: an IndexRead takes an entry from the reader's frontier on and moves that frontier to it. -/
theorem indexReadIsCoherent : Obligations.IndexReadIsCoherent := by
  intro s a ch c hfront k
  refine ⟨?owner, ?peer, s.hist_getElem?_viewIndex a ch c, ?front, ?otherFronts, ?channels, rfl⟩
  case owner =>
    rintro rfl
    exact ⟨s.viewIndex_owner ch c, s.view_owner ch c⟩
  case peer =>
    exact fun ha => ⟨s.front_le_viewIndex a ch c hfront, s.viewIndex_le a ch c, fun j => State.exists_draw_viewIndex ha⟩
  case front => rw [State.readIndex, State.front_setFront, if_pos ⟨rfl, rfl, rfl⟩]
  case otherFronts =>
    intro a' ch' c' hne
    rw [State.readIndex, State.front_setFront, if_neg hne]
  case channels =>
    intro ch'
    rw [State.readIndex, State.ch_setFront]
    split
    · next e => rw [e]
    · rfl

/-! ### The latest draw (R66) -/

/-- The draw that codes the distance from the frontier to the latest entry picks that entry (log 7). -/
theorem pick_latest (lo hi : Nat) : pick lo hi (hi - lo) = hi := by
  rcases Nat.le_total lo hi with h | h
  · exact pick_surjective lo hi hi h (Nat.le_refl _)
  · rw [pick, if_pos h]

/-- Settles O40: the owner reads the latest entry always, a non-owner under this draw. -/
theorem latestDrawReadsCurrentValue : Obligations.LatestDrawReadsCurrentValue := by
  intro s a ch c hdraw
  have hlatest : s.viewIndex a ch c = s.histLast ch c := by
    unfold State.viewIndex
    split
    · rfl
    · rw [hdraw, pick_latest]
  rw [State.view, hlatest, State.hist_last]

/-! ### IndexWrite (R62) -/

/-- IndexWrite puts the writer's frontier on the new entry and moves no other. -/
theorem State.front_writeIndex (s : State) (a a' : Agent) (ch ch' : Chan) (c c' : IndexCell) (v : Word) :
    (s.writeIndex a ch c v).front a' ch' c' =
      if a' = a ∧ ch' = ch ∧ c' = c then s.histLast ch c + 1 else s.front a' ch' c' := by
  have happend : (s.appendHist ch c v).front a' ch' c' = s.front a' ch' c' := by
    rw [State.front, State.ch_appendHist, State.front]
    split
    · next e => rw [e]
    · rfl
  rw [State.writeIndex, State.front_setFront, State.histLast_appendHist_same, happend]

/-- Settles O39: the cell, history and frontier it writes are the ones named, and the index cells lie apart (R51, R55). -/
theorem indexWriteAppends : Obligations.IndexWriteAppends := by
  intro s a ch c v hl t
  refine ⟨s.hist_writeIndex_same a ch c v, s.cell_writeIndex_same a ch c v, ?front, ?otherFronts,
    fun ch' c' hne => s.hist_writeIndex_ne a ch ch' c c' v hl hne, ?bytes⟩
  case front =>
    rw [State.front_writeIndex, if_pos ⟨rfl, rfl, rfl⟩, State.hist_writeIndex_same, List.length_append, s.hist_length]
    rfl
  case otherFronts =>
    intro a' ch' c' hne
    rw [State.front_writeIndex, if_neg hne]
  case bytes =>
    intro x hx
    rw [Within] at hx
    exact Memory.readByte_writeWord_outside _ _ _ _ (by omega)

/-! ### Frontiers never move backwards (R60) -/

/-- No frontier of `t` is behind where it is in `s`. -/
def FrontsAdvance (s t : State) : Prop := ∀ a ch c, s.front a ch c ≤ t.front a ch c

theorem FrontsAdvance.trans {s t u : State} (h : FrontsAdvance s t) (h' : FrontsAdvance t u) : FrontsAdvance s u :=
  fun a ch c => Nat.le_trans (h a ch c) (h' a ch c)

/-- An update that keeps the frontiers of the channel. -/
theorem frontsAdvance_updCh (s : State) (ch : Chan) (f : Channel → Channel) (hf : ∀ x, (f x).front = x.front) :
    FrontsAdvance s (s.updCh ch f) := by
  intro a ch' c
  rw [State.front, State.front, State.ch_updCh]
  split
  · next e => rw [hf, e]
  · exact Nat.le_refl _

theorem FrontsInHistory.frontsAdvance_readIndex {s : State} (h : FrontsInHistory s) (a : Agent) (ch : Chan)
    (c : IndexCell) : FrontsAdvance s (s.readIndex a ch c) :=
  fun a' ch' c' => (s.front_readIndex_bounds a a' ch ch' c c' (h a' ch' c')).1

theorem FrontsInHistory.frontsAdvance_writeIndex {s : State} (h : FrontsInHistory s) (a : Agent) (ch : Chan)
    (c : IndexCell) (v : Word) : FrontsAdvance s (s.writeIndex a ch c v) := by
  intro a' ch' c'
  rw [State.front_writeIndex]
  split
  · next e =>
    obtain ⟨rfl, rfl, rfl⟩ := e
    exact Nat.le_succ_of_le (h a' ch' c')
  · exact Nat.le_refl _

theorem FrontsInHistory.pushReads {s : State} (h : FrontsInHistory s) (ch : Chan) : FrontsInHistory (s.pushReads ch) :=
  (h.readIndex _ ch .put).readIndex _ ch .get

theorem FrontsInHistory.frontsAdvance_pushReads {s : State} (h : FrontsInHistory s) (ch : Chan) :
    FrontsAdvance s (s.pushReads ch) :=
  (h.frontsAdvance_readIndex _ ch .put).trans ((h.readIndex _ ch .put).frontsAdvance_readIndex _ ch .get)

theorem FrontsInHistory.frontsAdvance_drainReads {s : State} (h : FrontsInHistory s) (ch : Chan) :
    FrontsAdvance s (s.drainReads ch) :=
  (h.frontsAdvance_readIndex _ ch .get).trans ((h.readIndex _ ch .get).frontsAdvance_readIndex _ ch .put)

theorem FrontsInHistory.frontsAdvance_pushPublish {s : State} (h : FrontsInHistory s) (ch : Chan) (p : Word)
    (bytes : List Byte) : FrontsAdvance s (s.pushPublish ch p bytes) := by
  have stored : FrontsInHistory (s.slotWrite ch (s.cfg.slotOf ch p) bytes) := h.setMem _
  have written : FrontsAdvance s _ := stored.frontsAdvance_writeIndex (.prod ch) ch .put (p + 1)
  exact written.trans (frontsAdvance_updCh _ ch _ fun _ => rfl)

/-- A command other than INIT moves no frontier backwards. -/
theorem CommandEffect.frontsAdvance {s u : State} {i : Instr} {r : Option Response} (he : CommandEffect s i r u)
    (h : FrontsInHistory s) (hi : i.op ≠ .init) : FrontsAdvance s u := by
  cases he with
  | nothing => exact fun _ _ _ => Nat.le_refl _
  | pushCorrupt ch slot => exact (h.frontsAdvance_pushReads ch).trans (frontsAdvance_updCh _ ch _ fun _ => rfl)
  | pushFull ch slot => exact h.frontsAdvance_pushReads ch
  | pushOk ch slot =>
    exact (h.frontsAdvance_pushReads ch).trans ((h.pushReads ch).frontsAdvance_pushPublish ch _ _)
  | drainCorrupt ch => exact (h.frontsAdvance_drainReads ch).trans (frontsAdvance_updCh _ ch _ fun _ => rfl)
  | drainOpened ch => exact (h.frontsAdvance_drainReads ch).trans (frontsAdvance_updCh _ ch _ fun _ => rfl)
  | popped ch => exact frontsAdvance_updCh s ch _ fun _ => rfl
  | drainEnded ch => exact (h.frontsAdvance_writeIndex _ ch .get _).trans (frontsAdvance_updCh _ ch _ fun _ => rfl)
  | initialised ch => exact absurd rfl hi
  | woken ch => exact frontsAdvance_updCh s ch _ fun _ => rfl
  | tracked ch raw => exact frontsAdvance_updCh s ch _ fun _ => rfl
  | trackerCleared ch => exact frontsAdvance_updCh s ch _ fun _ => rfl

/-- Settles O44: no effect of a command but INIT's moves a frontier backwards. -/
theorem frontiersNeverMoveBackwards : Obligations.FrontiersNeverMoveBackwards := by
  intro s t i a ch c h hexec hi
  obtain ⟨u, effect, after⟩ := exec_effect hexec
  rw [after.front]
  exact effect.frontsAdvance h hi a ch c

end Sys2Proof.Machine
end

section
/-! PROOFS. What the protocol invariant says of a run without foreign writes (20_memory.md R67, R68): no ProtocolCorruption, views that
bound the occupancy, and POPs that deliver what was pushed. -/

namespace Sys2Proof.Machine

/-! ### No ProtocolCorruption (R68) -/

/-- A response is the answer of a command that ran in a state with the block of `s`. -/
theorem exec_of_response {s t : State} {r : Response} (h : step s = .next t) (hr : t.response = some r) :
    ∃ i v, exec i v = .next t ∧ SameBlock s v := by
  have silent {P : Prop} (hn : t.response = none) : P := by simp [hn] at hr
  obtain ⟨-, -, ⟨-, rfl⟩ | ⟨q, d, rest, -, ht⟩ | ⟨ch, rest, -, ht⟩ | ⟨ch, addr, bytes, rest, -, ht⟩⟩ := step_cases h
  · exact silent rfl
  · rcases servePort_cases q (({ s with schedule := rest } : State).select q d) with
      ⟨-, e⟩ | ⟨-, ⟨-, e⟩ | ⟨cw, ops, -, ⟨code, -, e⟩ | ⟨i, ops', -, -, e⟩ | ⟨op, ch, -, -, e⟩⟩⟩ <;> rw [e] at ht
    · exact ⟨_, _, ht, rfl, rfl, rfl⟩
    · cases ht
      exact silent rfl
    · cases ht
      exact silent rfl
    · exact ⟨_, _, ht, rfl, rfl, rfl⟩
    · cases ht
      exact silent rfl
  · cases ht
    exact silent rfl
  · unfold envCorruptWrite at ht
    split at ht
    · cases ht
      exact silent rfl
    · cases ht

theorem ne_recordFault_of_response {s t : State} {res : Result} {r : Response} (h : res = .next t)
    (hr : t.response = some r) (code : FaultCode) (cw : Word) : res ≠ .next (s.recordFault code cw) := by
  rintro rfl
  cases h
  cases hr

theorem status_of_respond {t v : State} {res : Result} {r : Response} {st : Status} {data : List Word} (h : res = .next t)
    (hr : t.response = some r) (e : res = respond st data v) : r.status = st := by
  obtain rfl : { v with response := some ⟨v.port, st, data⟩ } = t := by simpa [respond] using e.symm.trans h
  obtain rfl : ⟨v.port, st, data⟩ = r := by simpa using hr
  rfl

/-- Only a PUSH or a DRAIN_BEGIN on a READY channel returns CORRUPT: it finds its side's sticky bit set, or reads an occupancy above
CAP (60_exceptions.md R211). -/
theorem corrupt_cases {i : Instr} {s t : State} {r : Response} (h : exec i s = .next t) (hr : t.response = some r)
    (hc : r.status = .corrupt) :
    s.isUninit i.chan = false ∧
      ((s.ch i.chan).pFault = true ∨ (s.ch i.chan).cFault = true ∨
        overCapacity s.cfg i.chan (s.cell i.chan .put - s.view (.prod i.chan) i.chan .get) = true ∨
        overCapacity s.cfg i.chan (s.view (.cons i.chan) i.chan .put - s.cell i.chan .get) = true) := by
  have faulted {code : FaultCode} {cw : Word} {P : Prop} (e : exec i s = .next (s.recordFault code cw)) : P :=
    absurd e (ne_recordFault_of_response h hr code cw)
  have answered {st : Status} {data : List Word} {v : State} {P : Prop} (hst : st ≠ .corrupt)
      (e : exec i s = respond st data v) : P := absurd ((status_of_respond h hr e).symm.trans hc) hst
  cases i with
  | push ch slot =>
    rcases execPush_cases ch slot s with ⟨-, e⟩ | ⟨-, ⟨-, e⟩ | ⟨hu, hp, -⟩ | ⟨hu, -, ho, -⟩ | ⟨-, -, -, -, e⟩ |
      ⟨-, -, -, -, -, e⟩ | ⟨-, -, -, -, -, e⟩⟩
    · exact faulted e
    · exact faulted e
    · exact ⟨hu, .inl hp⟩
    · exact ⟨hu, .inr (.inr (.inl ho))⟩
    · exact answered (by decide) e
    · exact faulted e
    · exact answered (by decide) e
  | drainBegin ch =>
    rcases execDrainBegin_cases ch s with ⟨-, e⟩ | ⟨-, ⟨-, e⟩ | ⟨-, -, e⟩ | ⟨hu, -, hf, -⟩ | ⟨hu, -, -, ho, -⟩ |
      ⟨-, -, -, -, e⟩⟩
    · exact faulted e
    · exact faulted e
    · exact faulted e
    · exact ⟨hu, .inr (.inl hf)⟩
    · exact ⟨hu, .inr (.inr (.inr ho))⟩
    · exact answered (by decide) e
  | pop ch =>
    rcases execPop_cases ch s with ⟨-, e⟩ | ⟨-, ⟨-, e⟩ | ⟨-, -, e⟩ | ⟨-, -, -, e⟩ | ⟨-, -, -, e⟩⟩
    · exact faulted e
    · exact faulted e
    · exact faulted e
    · exact answered (by decide) e
    · exact answered (by decide) e
  | drainEnd ch =>
    rcases execDrainEnd_cases ch s with ⟨-, e⟩ | ⟨-, ⟨-, e⟩ | ⟨-, -, e⟩ | ⟨-, -, e⟩⟩
    · exact faulted e
    · exact faulted e
    · exact faulted e
    · exact answered (by decide) e
  | init ch =>
    rcases execInit_cases ch s with ⟨-, e⟩ | ⟨-, ⟨-, e⟩ | ⟨-, e⟩⟩
    · exact faulted e
    · exact faulted e
    · exact answered (by decide) e
  | wakeWait ch =>
    rcases execWakeWait_cases ch s with ⟨-, e⟩ | ⟨-, ⟨-, -, e⟩ | ⟨-, e⟩ | ⟨-, e⟩⟩
    · exact faulted e
    · exact answered (by decide) e
    · exact answered (by decide) e
    · obtain rfl : { s.setWaiting s.port true with response := none } = t := by
        simpa [Sys2Proof.Machine.hold] using e.symm.trans h
      cases hr
  | track ch raw =>
    rcases execTrack_cases ch raw s with ⟨-, e⟩ | ⟨-, e⟩
    · exact faulted e
    · exact answered (by decide) e
  | tsReset ch =>
    rcases execTsReset_cases ch s with ⟨-, e⟩ | ⟨-, e⟩
    · exact faulted e
    · exact answered (by decide) e

/-- Under the protocol invariant no command returns CORRUPT: neither sticky bit is set and neither view passes CAP. -/
theorem not_corrupt_of_channelInv {i : Instr} {s t : State} {r : Response} (hl : s.cfg.legal = true)
    (hi : ChannelInv s i.chan) (h : exec i s = .next t) (hr : t.response = some r) : r.status ≠ .corrupt := by
  intro hc
  obtain ⟨hu, hcause⟩ := corrupt_cases h hr hc
  obtain ⟨p0, ds, ring⟩ := hi.ring (State.isUninit_eq_false.1 hu)
  simp [hi.pFault, hi.cFault, ring.producer_not_overCapacity hl, ring.consumer_not_overCapacity hl] at hcause

/-- Settles O51: a response comes from a command, and under the invariant no command returns CORRUPT. -/
theorem noCorruptionWithoutForeignWrites : Obligations.NoCorruptionWithoutForeignWrites := by
  intro s t hd hstep r hr
  obtain ⟨i, v, hexec, before⟩ := exec_of_response hstep hr
  have hl : v.cfg.legal = true := by rw [before.cfg, (step_effect hstep).1]
  exact not_corrupt_of_channelInv hl ((before.sameRing i.chan).channelInv (hd.channels i.chan)) hexec hr

/-! ### Views bound the occupancy (R68) -/

/-- The true occupancy is the distance between the two published positions (10_state.md R41). -/
theorem RingInv.occupied_toNat {s : State} {ch : Chan} {p0 : Word} {ds : List Nat} (h : RingInv s ch p0 ds)
    (hl : s.cfg.legal = true) : (s.occupied ch).toNat = s.histLast ch .put - ds.getLastD 0 := by
  have hcap := Config.cap_lt hl ch
  have hbound := h.put_le_getLastD_add_cap
  rw [State.occupied, occupancy, h.cell_put, h.cell_get, toNat_position_sub _ h.getLastD_le_put (by omega)]

/-- Settles O52: the producer reads a GET that is not past the last one, the consumer a PUT that is not past the last one. -/
theorem viewsBoundOccupancy : Obligations.ViewsBoundOccupancy := by
  intro s ch hl hd hready
  obtain ⟨p0, ds, ring⟩ := (hd.channels ch).ring hready
  have hget := ring.getD_le_getLastD (s.viewIndex_le (.prod ch) ch .get)
  have hput := s.viewIndex_le (.cons ch) ch .put
  have hbounds := ring.producer_view_bounds
  rw [ring.occupied_toNat hl, ring.producer_occupancy hl, ring.consumer_occupancy hl]
  omega

/-! ### POP delivers what was pushed (R67) -/

/-- A POP that returned OK, in an open drain before its limit, returned the next slot (42_ring_consumer.md R161). -/
theorem pop_ok {s t : State} {ch : Chan} {r : Response} (h : exec (.pop ch) s = .next t) (hr : t.response = some r)
    (hok : r.status = .ok) :
    (s.ch ch).cDrain = true ∧ (s.ch ch).clGet ≠ (s.ch ch).clLimit ∧ r.data = slotWordsOf (s.nextSlot ch) := by
  obtain ⟨u, effect, -⟩ := exec_effect h
  rw [hr] at effect
  cases effect with
  | nothing _ _ notOk => exact absurd (by simp [hok]) notOk
  | popped _ _ opened more => exact ⟨opened, more, rfl⟩

/-- An open drain before its limit stands at an unread position, which a PUSH published (R67). -/
theorem RingInv.drain_position {s : State} {ch : Chan} {p0 : Word} {ds : List Nat} (h : RingInv s ch p0 ds)
    (opened : (s.ch ch).cDrain = true) (more : (s.ch ch).clGet ≠ (s.ch ch).clLimit) :
    ∃ j, ds.getLastD 0 ≤ j ∧ j < s.histLast ch .put ∧ (s.ch ch).clGet = p0 + BitVec.ofNat 32 j := by
  obtain ⟨c, l, hc, hcl, hlf, hg, hlim⟩ := h.drain opened
  have hlt : c < l := Nat.lt_of_le_of_ne hcl fun e => more (by rw [hg, hlim, e])
  exact ⟨c, hc, Nat.lt_of_lt_of_le hlt (Nat.le_trans hlf h.consumerFront), hg⟩

theorem slotBytesOf_nextSlot {s : State} (hl : s.cfg.legal = true) (ch : Chan) :
    slotBytesOf (slotWordsOf (s.nextSlot ch)) = s.slotRead ch (s.cfg.slotOf ch (s.ch ch).clGet) :=
  slotBytesOf_slotWordsOf _ s.cfg.slotWords (by rw [State.nextSlot, State.slotRead_length, Config.slotWords_mul hl])

/-- Settles O54: POP reads the slot of an unread position, which holds the logged image. -/
theorem popDeliversWhatWasPushed : Obligations.PopDeliversWhatWasPushed := by
  intro s t ch log p0 ds r hl inv hexec hr hok
  obtain ⟨opened, more, hdata⟩ := pop_ok hexec hr hok
  obtain ⟨j, hj, hlast, hget⟩ := inv.ring.drain_position opened more
  have hlog : j < log.length := by rwa [inv.logLength]
  refine ⟨j, hlog, hget, ?_, ?_⟩
  · rw [hget, position_succ, inv.ring.putHist]
    simp [hlast]
  · rw [hdata, slotBytesOf_nextSlot hl, hget, inv.contents j hj hlog]

end Sys2Proof.Machine
end

section
/-! PROOFS. The reference slot layout reads back what was packed (20_memory.md R74 to R76). -/

namespace Sys2Proof.Machine

/-! ### The fields in their bytes -/

theorem SlotType.code_toNat_lt (t : SlotType) : t.code.toNat < 4 := by
  cases t <;> decide

/-- Bits 7:6 of `flags` are zero (R74). -/
theorem SlotFlags.byte_toNat_lt (extended : Bool) (f : SlotFlags) : (f.byte extended).toNat < 64 := by
  have h0 := extended.toNat_le
  have h1 := f.remoteRequest.toNat_le
  have h2 := f.fdFormat.toNat_le
  have h3 := f.bitrateSwitch.toNat_le
  have h4 := f.errorStateIndicator.toNat_le
  have h5 := f.dropMarker.toNat_le
  rw [SlotFlags.byte, BitVec.toNat_ofNat]
  omega

theorem leNat_leBytes_word (w : Word) : leNat (leBytes 4 w.toNat) = w.toNat := by
  rw [leNat_leBytes]
  exact Nat.mod_eq_of_lt w.isLt

theorem ofNat_leNat_leBytes_word (w : Word) : BitVec.ofNat 32 (leNat (leBytes 4 w.toNat)) = w := by
  rw [leNat_leBytes_word, BitVec.ofNat_toNat, BitVec.setWidth_eq]

theorem ArbitrationId.word_toNat_extended (id : BitVec 29) : (ArbitrationId.extended id).word.toNat = id.toNat :=
  BitVec.toNat_setWidth_of_le (by decide)

theorem ArbitrationId.word_toNat_base (id : BitVec 11) : (ArbitrationId.base id).word.toNat = id.toNat :=
  BitVec.toNat_setWidth_of_le (by decide)

/-! ### The fields at their offsets (R74) -/

namespace SlotFields

variable (f : SlotFields)

theorem pack_type : f.pack.getD 0 0 = f.kind.type.code := rfl
theorem pack_flags : f.pack.getD 1 0 = f.flags.byte f.id.isExtended := rfl
theorem pack_dlc : f.pack.getD 2 0 = f.dlc.setWidth 8 := rfl
theorem pack_code : f.pack.getD 3 0 = f.kind.codeByte := rfl
theorem pack_timestampRaw : (f.pack.drop 4).take 4 = leBytes 4 f.timestampRaw.toNat := rfl
theorem pack_id : (f.pack.drop 8).take 4 = leBytes 4 f.id.word.toNat := rfl

variable {f}

theorem pack_data (h : f.data.length = 64) : f.pack.drop 12 = f.data := by
  have hdrop : f.pack.drop 12 = f.data.take 64 ++ List.replicate (64 - f.data.length) 0 := rfl
  rw [hdrop, h, List.take_of_length_le (Nat.le_of_eq h), Nat.sub_self, List.replicate_zero, List.append_nil]

theorem pack_length (h : f.data.length = 64) : f.pack.length = 76 := by
  simp [pack, h]

theorem readSlotFields_pack (h : f.data.length = 64) :
    readSlotFields f.pack =
      ⟨f.kind.type.code, f.flags, f.dlc, f.kind.codeByte, f.timestampRaw, f.id, f.data⟩ := by
  have hdlc : (f.dlc.setWidth 8).setWidth 4 = f.dlc := by simp
  rw [readSlotFields, pack_type, pack_flags, pack_dlc, pack_code, pack_timestampRaw, pack_id, pack_data h,
    SlotFlags.ofByte_byte, SlotFlags.byte_getLsbD_zero, ofNat_leNat_leBytes_word, ofNat_leNat_leBytes_word,
    ArbitrationId.ofWord_word, hdlc, List.take_of_length_le (Nat.le_of_eq h)]

end SlotFields

/-- Settles O55: every field of the packed slot stands at its offset and comes back from its bytes. -/
theorem referenceSlotReadsBack : Obligations.ReferenceSlotReadsBack := by
  intro f h
  refine ⟨SlotFields.pack_length h, ?type, ?flags, ?dlc, ?id, SlotFields.readSlotFields_pack h, ?payload, ?timestamp⟩
  case type => exact f.kind.type.code_toNat_lt
  case flags => exact f.flags.byte_toNat_lt f.id.isExtended
  case dlc => rw [f.pack_dlc, BitVec.toNat_setWidth_of_le (by decide)]
  case id =>
    rw [f.pack_id, leNat_leBytes_word, f.pack_flags, SlotFlags.byte_getLsbD_zero]
    cases f.id with
    | extended id => exact ⟨rfl, ArbitrationId.word_toNat_extended id⟩
    | base id => exact ⟨rfl, ArbitrationId.word_toNat_base id⟩
  case payload => rw [SlotFields.readSlotFields_pack h, RawSlotFields.payload, payloadOf]
  case timestamp => exact ofNat_leNat_leBytes_word f.timestampRaw

end Sys2Proof.Machine
end

section
/-! PROOFS. The decoder and the encoder (30_encoding.md R91 to R97, R100): which word lists are commands, which command words are
legal, in numbers, and how long a transaction is. -/

namespace Sys2Proof

/-! ### Operands (R97) -/

/-- The operand words of an operation are read exactly off the operands of its well-formed commands. -/
theorem readOperands_ok (n : Nat) (op : Op) (ch : Chan) (ops rest : List Word) (i : Instr) :
    readOperands n op ch ops = .ok (i, rest) ↔
      i.op = op ∧ i.chan = ch ∧ i.wellFormed n = true ∧ ops = i.operands ++ rest := by
  constructor
  · intro h
    cases op with
    | push =>
      by_cases hl : ops.length < n
      · simp [readOperands, hl] at h
      · obtain ⟨rfl, rfl⟩ : Instr.push ch (ops.take n) = i ∧ ops.drop n = rest := by
          simpa [readOperands, hl] using h
        have hlen : (ops.take n).length = n := List.length_take_of_le (Nat.le_of_not_lt hl)
        exact ⟨rfl, rfl, by simpa only [Instr.wellFormed, beq_iff_eq] using hlen, (List.take_append_drop n ops).symm⟩
    | track =>
      cases ops with
      | nil => cases h
      | cons raw ops => cases h; exact ⟨rfl, rfl, rfl, rfl⟩
    | drainBegin | pop | drainEnd | init | wakeWait | tsReset => cases h; exact ⟨rfl, rfl, rfl, rfl⟩
  · rintro ⟨rfl, rfl, hw, rfl⟩
    cases i with
    | push ch slot =>
      obtain rfl : slot.length = n := by simpa [Instr.wellFormed] using hw
      simp [Instr.op, Instr.chan, Instr.operands, readOperands]
    | drainBegin | pop | drainEnd | init | wakeWait | track | tsReset => rfl

/-- A whole command is a legal command word and then its operands. -/
theorem decode_ok_cons (n : Nat) (cw : Word) (ops rest : List Word) (i : Instr) :
    decode n (cw :: ops) = .ok (i, rest) ↔
      cw = commandWord i.op i.chan ∧ i.wellFormed n = true ∧ ops = i.operands ++ rest := by
  rw [← decodeCW_ok]
  cases hcw : decodeCW cw with
  | error r => simp [decode, hcw]
  | ok x =>
    obtain ⟨op, ch⟩ := x
    rw [Machine.decode_cons hcw, readOperands_ok]
    constructor
    · rintro ⟨rfl, rfl, hw, hops⟩
      exact ⟨rfl, hw, hops⟩
    · rintro ⟨h, hw, hops⟩
      cases h
      exact ⟨rfl, rfl, hw, hops⟩

/-- Settles O1: the command word decides the operation and the channel (R92), and the operands follow by length (R97). -/
theorem decodeInvertsEncode : Obligations.DecodeInvertsEncode := by
  intro n i ws rest
  cases ws with
  | nil => simp [decode, encode]
  | cons cw ops =>
    rw [decode_ok_cons, encode, List.cons_append, List.cons.injEq]
    tauto

/-- Settles O4: each word list of R92's table is evaluated. -/
theorem specWordsDecode : Obligations.SpecWordsDecode := by
  refine ⟨rfl, rfl, rfl, rfl, rfl, rfl, rfl, rfl, rfl, rfl, rfl⟩

/-! ### Legal command words in numbers (R91 to R94) -/

theorem Op.code_bounds (op : Op) : 1 ≤ op.code ∧ op.code ≤ 8 := by
  cases op <;> decide

theorem Op.exists_code {n : Nat} (h : 1 ≤ n) (h' : n ≤ 8) : ∃ op : Op, op.code = n := by
  obtain rfl | rfl | rfl | rfl | rfl | rfl | rfl | rfl :
    n = 1 ∨ n = 2 ∨ n = 3 ∨ n = 4 ∨ n = 5 ∨ n = 6 ∨ n = 7 ∨ n = 8 := by omega
  exacts [⟨.push, rfl⟩, ⟨.drainBegin, rfl⟩, ⟨.pop, rfl⟩, ⟨.drainEnd, rfl⟩, ⟨.init, rfl⟩, ⟨.wakeWait, rfl⟩, ⟨.track, rfl⟩,
    ⟨.tsReset, rfl⟩]

theorem Chan.bit_le_one (ch : Chan) : ch.bit ≤ 1 := by
  cases ch <;> decide

theorem Chan.exists_bit {n : Nat} (h : n ≤ 1) : ∃ ch : Chan, ch.bit = n := by
  obtain rfl | rfl : n = 0 ∨ n = 1 := by omega
  exacts [⟨.rx, rfl⟩, ⟨.tx, rfl⟩]

theorem Chan.bit_inj {ch ch' : Chan} : ch.bit = ch'.bit ↔ ch = ch' := by
  cases ch <;> cases ch' <;> decide

/-- The command word of an operation and a channel, read field by field (R91). -/
theorem eq_commandWord_iff (cw : Word) (op : Op) (ch : Chan) :
    cw = commandWord op ch ↔ cw.toNat / 32 = 0 ∧ cw.toNat % 16 = op.code ∧ cw.toNat / 16 % 2 = ch.bit := by
  have hop := op.code_bounds
  have hch := ch.bit_le_one
  rw [← BitVec.toNat_inj, commandWord_toNat]
  omega

/-- No reserved bit is set (R93) and the opcode is not reserved (R94): the word is a command's. -/
theorem exists_commandWord {cw : Word} (hrsv : cw.toNat / 32 = 0) (hlo : 1 ≤ cw.toNat % 16) (hhi : cw.toNat % 16 ≤ 8) :
    ∃ op ch, cw = commandWord op ch := by
  obtain ⟨op, hop⟩ := Op.exists_code hlo hhi
  obtain ⟨ch, hch⟩ := Chan.exists_bit (n := cw.toNat / 16 % 2) (by omega)
  exact ⟨op, ch, (eq_commandWord_iff ..).2 ⟨hrsv, hop.symm, hch.symm⟩⟩

/-- A word that is no command's raises FLT_ILLEGAL_CMD on every port (R93, R94). -/
theorem decodeAt_of_ne_commandWord {cw : Word} (h : ∀ op ch, cw ≠ commandWord op ch) (q : Port) :
    decodeAt q cw = .error .illegalCmd := by
  cases hcw : decodeCW cw with
  | error r => rw [decodeAt, hcw]
  | ok x => exact absurd ((decodeCW_ok cw x.1 x.2).1 hcw) (h x.1 x.2)

theorem decodeAt_of_reserved {cw : Word} (h : cw.toNat / 32 ≠ 0 ∨ cw.toNat % 16 = 0 ∨ 9 ≤ cw.toNat % 16) (q : Port) :
    decodeAt q cw = .error .illegalCmd := by
  refine decodeAt_of_ne_commandWord (fun op ch e => ?_) q
  have hop := op.code_bounds
  obtain ⟨hrsv, hcode, -⟩ := (eq_commandWord_iff ..).1 e
  omega

/-- R92's 16 legal words are the numbers with no reserved bit and no reserved opcode. -/
theorem mem_legalNumbers_iff (n : Nat) :
    n ∈ [0x1, 0x2, 0x3, 0x4, 0x5, 0x6, 0x7, 0x8, 0x11, 0x12, 0x13, 0x14, 0x15, 0x16, 0x17, 0x18] ↔
      n / 32 = 0 ∧ 1 ≤ n % 16 ∧ n % 16 ≤ 8 := by
  simp only [List.mem_cons, List.not_mem_nil, or_false]
  omega

/-- Settles O2: a word is legal by its number, or it is reserved. -/
theorem everyWordIsLegalOrFaults : Obligations.EveryWordIsLegalOrFaults := by
  intro q cw
  refine ⟨fun h => decodeAt_of_reserved (.inr h) q, ?_⟩
  rw [mem_legalNumbers_iff]
  by_cases h : cw.toNat / 32 = 0 ∧ 1 ≤ cw.toNat % 16 ∧ cw.toNat % 16 ≤ 8
  · obtain ⟨hrsv, hlo, hhi⟩ := h
    obtain ⟨op, ch, e⟩ := exists_commandWord hrsv hlo hhi
    exact .inl ⟨⟨hrsv, hlo, hhi⟩, op, ch, e, (decodeCW_ok cw op ch).2 e⟩
  · exact .inr ⟨h, decodeAt_of_reserved (by omega) q⟩

/-! ### The port check in numbers (R95, R96) -/

/-- The "legal on port role" column of R92, by opcode number. -/
theorem Op.legalOn_iff (op : Op) (r : Role) :
    op.legalOn r = true ↔ ¬ ((op.code = 1 ∧ r = .consumer) ∨ (op.code ≠ 1 ∧ op.code ≠ 5 ∧ r = .producer)) := by
  cases op <;> cases r <;> decide

theorem decodeAt_commandWord_illegal {q : Port} {op : Op} {ch : Chan} (h : ¬ (ch = q.chan ∧ op.legalOn q.role = true)) :
    decodeAt q (commandWord op ch) = .error .wrongPort := by
  have hp : portFault q op ch = some .wrongPort := (Machine.portFault_eq_some ..).2 ⟨rfl, h⟩
  rw [decodeAt, Laws.CommandWord.decodeCW_commandWord]
  simp [hp]

theorem decodeAt_commandWord_legal {q : Port} {op : Op} (h : op.legalOn q.role = true) :
    decodeAt q (commandWord op q.chan) = .ok (op, q.chan) :=
  (Machine.decodeAt_ok ..).2 ⟨Laws.CommandWord.decodeCW_commandWord .., (Machine.portFault_eq_none ..).2 ⟨rfl, h⟩⟩

/-- Settles O3: past the reserved values the word is a command's, and the port check reads its channel and its opcode. -/
theorem decodeChecksInOrder : Obligations.DecodeChecksInOrder := by
  intro q cw op ch reserved wrongChannel wrongRole
  have legal (h : ¬ reserved) : ∃ o c, cw = commandWord o c ∧ o.code = op ∧ c.bit = ch := by
    obtain ⟨hrsv, hlo, hhi⟩ : cw.toNat / 32 = 0 ∧ 1 ≤ op ∧ op ≤ 8 := by omega
    obtain ⟨o, c, e⟩ := exists_commandWord hrsv hlo hhi
    obtain ⟨-, hcode, hbit⟩ := (eq_commandWord_iff ..).1 e
    exact ⟨o, c, e, hcode.symm, hbit.symm⟩
  refine ⟨fun h => decodeAt_of_reserved h q, fun h hwrong => ?illegal, fun h hch hrole => ?legal⟩
  case illegal =>
    obtain ⟨o, c, rfl, hcode, hbit⟩ := legal h
    refine decodeAt_commandWord_illegal fun ⟨hchan, hlegal⟩ => ?_
    rw [Op.legalOn_iff, hcode] at hlegal
    rcases hwrong with hne | hrole
    · exact hne (by rw [← hbit, hchan])
    · exact hlegal hrole
  case legal =>
    obtain ⟨o, c, rfl, hcode, hbit⟩ := legal h
    obtain rfl : c = q.chan := Chan.bit_inj.1 (hbit.trans (not_not.1 hch))
    have hlegal : o.legalOn q.role = true := by rwa [Op.legalOn_iff, hcode]
    exact ⟨o, (opOfCode_some ..).2 hcode, hcode, decodeAt_commandWord_legal hlegal⟩

/-! ### The length of a transaction (R97, R100) -/

theorem commandWord_statement (i : Instr) : Laws.CommandWord.Statement i := by
  cases i with
  | push ch slot => exact Laws.CommandWord.push ch slot
  | drainBegin ch => exact Laws.CommandWord.drainBegin ch
  | pop ch => exact Laws.CommandWord.pop ch
  | drainEnd ch => exact Laws.CommandWord.drainEnd ch
  | init ch => exact Laws.CommandWord.init ch
  | wakeWait ch => exact Laws.CommandWord.wakeWait ch
  | track ch raw => exact Laws.CommandWord.track ch raw
  | tsReset ch => exact Laws.CommandWord.tsReset ch

theorem encode_length {n : Nat} {i : Instr} (h : i.wellFormed n = true) :
    (encode i).length = transactionLength n (commandWord i.op i.chan) :=
  (commandWord_statement i).2 n h

/-- Only the opcode field tells the length (R100). -/
theorem transactionLength_congr (n : Nat) {cw cw' : Word} (h : fieldOp cw = fieldOp cw') :
    transactionLength n cw = transactionLength n cw' := by
  rw [transactionLength, h, transactionLength]

/-- Settles O5: the length is that of the encoding, and it is read from the opcode field. -/
theorem transactionLengthFollowsOpcode : Obligations.TransactionLengthFollowsOpcode := by
  intro n i hw
  refine ⟨?_, fun cw h => by rw [encode_length hw, transactionLength_congr n h]⟩
  rw [encode_length hw, Laws.CommandWord.transactionLength_commandWord]
  cases i <;> rfl

end Sys2Proof
end

section
/-! PROOFS. A step of a port (30_encoding.md R90, R96): a decode fault, the command at its front, or the WAKE_WAIT that holds it; and
how each command ends (R98, R99, 43_channel_control.md R191). -/

namespace Sys2Proof.Machine

/-! ### The step of a port (R90, R96) -/

/-- The state in which the move of port `q` runs: the move is taken off, the port and the draw are set, no response is left. -/
def State.running (s : State) (q : Port) (d : Nat) (moves : List Move) : State :=
  ({ s with schedule := moves } : State).select q d

@[simp] theorem State.running_ports (s : State) (q : Port) (d : Nat) (moves : List Move) :
    (s.running q d moves).ports = s.ports := rfl

@[simp] theorem State.running_port (s : State) (q : Port) (d : Nat) (moves : List Move) :
    (s.running q d moves).port = q := rfl

section PortMove

variable {s : State} {q : Port} {d : Nat} {moves : List Move} (hl : s.cfg.legal = true) (hf : s.faults = [])
  (hs : s.schedule = .port q d :: moves)

include hl hf hs

theorem step_of_port_move : step s = servePort q (s.running q d moves) := by
  rw [step, if_pos hl, if_pos hf, runSchedule, hs]
  rfl

theorem step_of_waiting (hw : (s.ports.val q).waiting = true) :
    step s = exec (.wakeWait q.chan) (s.running q d moves) := by
  rw [step_of_port_move hl hf hs, servePort, State.running_ports, if_pos hw]

theorem step_of_stream {cw : Word} {ops : List Word} (hw : (s.ports.val q).waiting = false)
    (hst : (s.ports.val q).stream = cw :: ops) : step s = serveWords q cw ops (s.running q d moves) := by
  simp [step_of_port_move hl hf hs, servePort, hw, hst]

end PortMove

theorem serveWords_of_decodeFault {s : State} {q : Port} {cw : Word} {code : FaultCode} (h : decodeAt q cw = .error code)
    (ops : List Word) :
    serveWords q cw ops s = .next ((s.consume q (transactionLength s.cfg.slotWords cw)).recordFault code cw) := by
  rw [serveWords, h]
  rfl

/-- A command on a port that may not issue it ends with the fault of the port check, whichever command it is (R95). -/
theorem exec_of_portFault {s : State} {i : Instr} {code : FaultCode} (h : portFault s.port i.op i.chan = some code) :
    exec i s = .next (s.recordFault code (commandWord i.op i.chan)) := by
  have checked (k : Result) : onLegalPort i.op i.chan s k = .next (s.recordFault code (commandWord i.op i.chan)) := by
    rw [onLegalPort, h]
    rfl
  cases i <;> exact checked _

/-- The check at decode and the command's own check agree, so a whole command runs on every port as `exec` says (R95, log 19). -/
theorem serveWords_of_command {s : State} {q : Port} {cw : Word} {ops rest : List Word} {i : Instr} (hq : s.port = q)
    (h : decode s.cfg.slotWords (cw :: ops) = .ok (i, rest)) :
    serveWords q cw ops s = exec i (s.consume q (transactionLength s.cfg.slotWords cw)) := by
  obtain ⟨rfl, -, -⟩ := (decode_ok_cons ..).1 h
  cases hp : portFault q i.op i.chan with
  | none =>
    have hat : decodeAt q (commandWord i.op i.chan) = .ok (i.op, i.chan) :=
      (decodeAt_ok ..).2 ⟨Laws.CommandWord.decodeCW_commandWord .., hp⟩
    rw [serveWords, hat, h]
  | some code =>
    obtain ⟨rfl, hport⟩ := (portFault_eq_some ..).1 hp
    rw [serveWords_of_decodeFault (decodeAt_commandWord_illegal hport)]
    exact (exec_of_portFault (by rw [State.consume_port, hq, hp])).symm

/-- Taking the announced number of words off leaves what follows the command (R100). -/
theorem drop_transactionLength {n : Nat} {cw : Word} {ops rest : List Word} {i : Instr} (h : decode n (cw :: ops) = .ok (i, rest)) :
    (cw :: ops).drop (transactionLength n cw) = rest := by
  obtain ⟨rfl, hw, rfl⟩ := (decode_ok_cons ..).1 h
  rw [← encode_length hw, ← List.cons_append]
  exact List.drop_left

/-- Settles O6: the port's step is `exec` of the decoded command, and the words taken are the command's. -/
theorem stepRunsDecodedCommand : Obligations.StepRunsDecodedCommand := by
  intro s q d moves i rest hl hf hs hw hdec
  cases hst : (s.ports.val q).stream with
  | nil => rw [hst] at hdec; cases hdec
  | cons cw ops =>
    rw [hst] at hdec
    rw [step_of_stream hl hf hs hw hst,
      serveWords_of_command (State.running_port s q d moves) hdec]
    simp [State.running, State.consume, State.setPort, State.select, hw, hst, drop_transactionLength hdec]

/-- `decode(q, cw)` raises FLT_ILLEGAL_CMD or FLT_WRONG_PORT (R96). -/
theorem decodeAt_error_code {q : Port} {cw : Word} {code : FaultCode} (h : decodeAt q cw = .error code) :
    code = .illegalCmd ∨ code = .wrongPort := by
  cases hcw : decodeCW cw with
  | error r =>
    rw [decodeAt, hcw] at h
    cases h
    exact .inl rfl
  | ok x =>
    obtain ⟨op, ch⟩ := x
    rw [decodeAt, hcw] at h
    cases hp : portFault q op ch with
    | none => simp [hp] at h
    | some code' =>
      obtain ⟨rfl, -⟩ := (portFault_eq_some ..).1 hp
      exact .inr (by simpa [hp] using h.symm)

theorem recordFault_faults_of_nil {s : State} (h : s.faults = []) (code : FaultCode) (cw : Word) :
    (s.recordFault code cw).faults = [⟨code, s.port, cw⟩] := by
  simp [State.recordFault, h]

/-- Settles O7: the port's step takes the words off and records the fault. -/
theorem stepRecordsDecodeFault : Obligations.StepRecordsDecodeFault := by
  intro s q d moves cw ops code hl hf hs hw hst hdec
  have hfaults := recordFault_faults_of_nil
    (s := (s.running q d moves).consume q (transactionLength s.cfg.slotWords cw)) hf code cw
  refine ⟨_, ?step, hfaults, rfl, ?number, rfl, rfl, rfl, rfl, ?waiting, fun q' hq' => ?others⟩
  case step => exact (step_of_stream hl hf hs hw hst).trans (serveWords_of_decodeFault hdec ops)
  case number =>
    rw [hfaults]
    rcases decodeAt_error_code hdec with rfl | rfl
    · exact .inl ⟨rfl, rfl⟩
    · exact .inr ⟨rfl, rfl⟩
  case waiting => simp [hw]
  case others => simp [hq']

/-! ### How a command ends (R98, R99, R191) -/

/-- `CommandEnd s i r ports`: command `i`, run in `s`, answers with response `r` and leaves the ports as `ports`. One constructor for
each status a command can return, `faulted` for every model fault, and `held` for a WAKE_WAIT that stays outstanding. -/
inductive CommandEnd (s : State) : Instr → Option Response → PerPort PortState → Prop
  | faulted (i : Instr) : CommandEnd s i none s.ports
  | pushOk (ch : Chan) (slot : List Word) : CommandEnd s (.push ch slot) (some ⟨s.port, .ok, []⟩) s.ports
  | pushFull (ch : Chan) (slot : List Word) : CommandEnd s (.push ch slot) (some ⟨s.port, .full, []⟩) s.ports
  | pushCorrupt (ch : Chan) (slot : List Word) : CommandEnd s (.push ch slot) (some ⟨s.port, .corrupt, []⟩) s.ports
  | drainOpened (ch : Chan) (count : Word) : CommandEnd s (.drainBegin ch) (some ⟨s.port, .ok, [count]⟩) s.ports
  | drainCorrupt (ch : Chan) : CommandEnd s (.drainBegin ch) (some ⟨s.port, .corrupt, []⟩) s.ports
  | popped (ch : Chan) : CommandEnd s (.pop ch) (some ⟨s.port, .ok, slotWordsOf (s.nextSlot ch)⟩) s.ports
  | popEmpty (ch : Chan) : CommandEnd s (.pop ch) (some ⟨s.port, .empty, []⟩) s.ports
  | drainEnded (ch : Chan) : CommandEnd s (.drainEnd ch) (some ⟨s.port, .ok, []⟩) s.ports
  | initialised (ch : Chan) : CommandEnd s (.init ch) (some ⟨s.port, .ok, []⟩) s.ports
  | woken (ch : Chan) : CommandEnd s (.wakeWait ch) (some ⟨s.port, .ok, []⟩) (s.setWaiting s.port false).ports
  | timedOut (ch : Chan) : CommandEnd s (.wakeWait ch) (some ⟨s.port, .timeout, []⟩) (s.setWaiting s.port false).ports
  | held (ch : Chan) (legal : portFault s.port .wakeWait ch = none) :
      CommandEnd s (.wakeWait ch) none (s.setWaiting s.port true).ports
  | tracked (ch : Chan) (raw : Word) (result : DWord) :
      CommandEnd s (.track ch raw) (some ⟨s.port, .ok, wordsOf64 result⟩) s.ports
  | trackerCleared (ch : Chan) : CommandEnd s (.tsReset ch) (some ⟨s.port, .ok, []⟩) s.ports

theorem commandEnd_of_fault {s t : State} {i : Instr} {code : FaultCode} {cw : Word} {res : Result}
    (h : res = .next (s.recordFault code cw)) (ht : res = .next t) : CommandEnd s i t.response t.ports := by
  obtain rfl : s.recordFault code cw = t := by simpa using h.symm.trans ht
  exact .faulted i

theorem commandEnd_of_respond {s t v : State} {i : Instr} {st : Status} {data : List Word} {res : Result}
    (h : res = respond st data v) (ht : res = .next t) (he : CommandEnd s i (some ⟨v.port, st, data⟩) v.ports) :
    CommandEnd s i t.response t.ports := by
  obtain rfl : { v with response := some ⟨v.port, st, data⟩ } = t := by simpa [respond] using h.symm.trans ht
  exact he

/-- Everything a command that answers a next state can return, and what it does to its port. -/
theorem exec_commandEnd {i : Instr} {s t : State} (ht : exec i s = .next t) : CommandEnd s i t.response t.ports := by
  cases i with
  | push ch slot =>
    rcases execPush_cases ch slot s with ⟨-, h⟩ | ⟨-, ⟨-, h⟩ | ⟨-, -, h⟩ | ⟨-, -, -, h⟩ | ⟨-, -, -, -, h⟩ |
      ⟨-, -, -, -, -, h⟩ | ⟨-, -, -, -, -, h⟩⟩
    · exact commandEnd_of_fault h ht
    · exact commandEnd_of_fault h ht
    · exact commandEnd_of_respond h ht (.pushCorrupt ch slot)
    · exact commandEnd_of_respond h ht (.pushCorrupt ch slot)
    · exact commandEnd_of_respond h ht (.pushFull ch slot)
    · exact commandEnd_of_fault h ht
    · exact commandEnd_of_respond h ht (.pushOk ch slot)
  | drainBegin ch =>
    rcases execDrainBegin_cases ch s with ⟨-, h⟩ | ⟨-, ⟨-, h⟩ | ⟨-, -, h⟩ | ⟨-, -, -, h⟩ | ⟨-, -, -, -, h⟩ |
      ⟨-, -, -, -, h⟩⟩
    · exact commandEnd_of_fault h ht
    · exact commandEnd_of_fault h ht
    · exact commandEnd_of_fault h ht
    · exact commandEnd_of_respond h ht (.drainCorrupt ch)
    · exact commandEnd_of_respond h ht (.drainCorrupt ch)
    · exact commandEnd_of_respond h ht (.drainOpened ch _)
  | pop ch =>
    rcases execPop_cases ch s with ⟨-, h⟩ | ⟨-, ⟨-, h⟩ | ⟨-, -, h⟩ | ⟨-, -, -, h⟩ | ⟨-, -, -, h⟩⟩
    · exact commandEnd_of_fault h ht
    · exact commandEnd_of_fault h ht
    · exact commandEnd_of_fault h ht
    · exact commandEnd_of_respond h ht (.popEmpty ch)
    · exact commandEnd_of_respond h ht (.popped ch)
  | drainEnd ch =>
    rcases execDrainEnd_cases ch s with ⟨-, h⟩ | ⟨-, ⟨-, h⟩ | ⟨-, -, h⟩ | ⟨-, -, h⟩⟩
    · exact commandEnd_of_fault h ht
    · exact commandEnd_of_fault h ht
    · exact commandEnd_of_fault h ht
    · exact commandEnd_of_respond h ht (.drainEnded ch)
  | init ch =>
    rcases execInit_cases ch s with ⟨-, h⟩ | ⟨-, ⟨-, h⟩ | ⟨-, h⟩⟩
    · exact commandEnd_of_fault h ht
    · exact commandEnd_of_fault h ht
    · exact commandEnd_of_respond h ht (.initialised ch)
  | wakeWait ch =>
    rcases execWakeWait_cases ch s with ⟨-, h⟩ | ⟨hp, ⟨-, -, h⟩ | ⟨-, h⟩ | ⟨-, h⟩⟩
    · exact commandEnd_of_fault h ht
    · exact commandEnd_of_respond h ht (.woken ch)
    · exact commandEnd_of_respond h ht (.timedOut ch)
    · obtain rfl : { s.setWaiting s.port true with response := none } = t := by
        simpa [Sys2Proof.Machine.hold] using h.symm.trans ht
      exact .held ch hp
  | track ch raw =>
    rcases execTrack_cases ch raw s with ⟨-, h⟩ | ⟨-, h⟩
    · exact commandEnd_of_fault h ht
    · exact commandEnd_of_respond h ht (.tracked ch raw _)
  | tsReset ch =>
    rcases execTsReset_cases ch s with ⟨-, h⟩ | ⟨-, h⟩
    · exact commandEnd_of_fault h ht
    · exact commandEnd_of_respond h ht (.trackerCleared ch)

/-- The data of an OK POP is SLOT_BYTES/4 words (R98). -/
theorem slotWordsOf_nextSlot_length {s : State} (hl : s.cfg.legal = true) (ch : Chan) :
    (slotWordsOf (s.nextSlot ch)).length = s.cfg.slotWords := by
  have hbytes := congrArg List.length (slotBytesOf_nextSlot hl ch)
  rw [slotBytesOf_length, State.slotRead_length, ← Config.slotWords_mul hl] at hbytes
  omega

/-- Settles O10: by the ways a command can end. -/
theorem responseFollowsStatus : Obligations.ResponseFollowsStatus := by
  refine ⟨rfl, fun s t i r hl ht hr => ?_⟩
  have hend := exec_commandEnd ht
  rw [hr] at hend
  generalize t.ports = ports at hend
  cases hend
  case popped ch => exact ⟨rfl, rfl, by simp, slotWordsOf_nextSlot_length hl ch⟩
  all_goals exact ⟨rfl, rfl, by simp, rfl⟩

/-! ### Outstanding commands (R90, R92, R191) -/

/-- Settles O8: the port's step goes on with WAKE_WAIT, which is legal on a consumer port. -/
theorem outstandingWaitHoldsItsPort : Obligations.OutstandingWaitHoldsItsPort := by
  intro s ch d moves hl hf hs hw
  rw [step_of_waiting hl hf hs hw]
  have legal : portFault ⟨.consumer, ch⟩ .wakeWait ch = none := (portFault_eq_none ..).2 ⟨rfl, rfl⟩
  rcases execWakeWait_cases ch (s.running ⟨.consumer, ch⟩ d moves) with
    ⟨hp, -⟩ | ⟨-, ⟨-, -, h⟩ | ⟨-, h⟩ | ⟨-, h⟩⟩
  · exact absurd (legal.symm.trans hp) (by simp)
  · exact ⟨_, h, by simp, .inr ⟨by simp, .inl rfl⟩⟩
  · exact ⟨_, h, by simp, .inr ⟨by simp, .inr rfl⟩⟩
  · exact ⟨_, h, by simp, .inl ⟨by simp, rfl⟩⟩

theorem OnlyConsumersWait.of_ports {s t : State} (h : OnlyConsumersWait s) (hp : t.ports = s.ports) : OnlyConsumersWait t := by
  rwa [OnlyConsumersWait, hp]

/-- Replacing a port's state keeps it, if an outstanding command stays or appears on a consumer port only. -/
theorem OnlyConsumersWait.of_set {s t : State} (h : OnlyConsumersWait s) {q : Port} {p : PortState}
    (hp : t.ports = s.ports.set q p) (hq : p.waiting = true → q.role = .consumer) : OnlyConsumersWait t := by
  intro q' hw
  rw [hp, PerPort.val_set] at hw
  by_cases e : q' = q
  · rw [if_pos e] at hw
    exact e ▸ hq hw
  · rw [if_neg e] at hw
    exact h q' hw

theorem OnlyConsumersWait.consume {s : State} (h : OnlyConsumersWait s) (q : Port) (n : Nat) :
    OnlyConsumersWait (s.consume q n) :=
  h.of_set (State.consume_ports s q n) (h q)

/-- A WAKE_WAIT stays outstanding only on a port that may issue it, which is a consumer port (R92). -/
theorem OnlyConsumersWait.of_exec {s t : State} (h : OnlyConsumersWait s) {i : Instr} (ht : exec i s = .next t) :
    OnlyConsumersWait t := by
  have hend := exec_commandEnd ht
  generalize hr : t.response = r at hend
  generalize hp : t.ports = ports at hend
  cases hend
  case woken => exact h.of_set hp (by simp)
  case timedOut => exact h.of_set hp (by simp)
  case held ch legal =>
    refine h.of_set hp fun _ => ?_
    have hrole := ((portFault_eq_none ..).1 legal).2
    cases hq : s.port.role with
    | consumer => rfl
    | producer => rw [hq] at hrole; cases hrole
  all_goals exact h.of_ports hp

theorem OnlyConsumersWait.of_servePort {s t : State} (h : OnlyConsumersWait s) {q : Port} (ht : servePort q s = .next t) :
    OnlyConsumersWait t := by
  rcases servePort_cases q s with
    ⟨-, e⟩ | ⟨-, ⟨-, e⟩ | ⟨cw, ops, -, ⟨code, -, e⟩ | ⟨i, rest, -, -, e⟩ | ⟨op, ch, -, -, e⟩⟩⟩ <;> rw [e] at ht
  · exact h.of_exec ht
  · cases ht
    exact h
  · cases ht
    exact h.consume q _
  · exact (h.consume q _).of_exec ht
  · cases ht
    exact h

theorem foreignWrite_ports (s : State) (ch : Chan) (addr : Nat) (bytes : List Byte) :
    (s.foreignWrite ch addr bytes).ports = s.ports := by
  unfold State.foreignWrite
  dsimp only
  cases touchesCell s.cfg ch .put addr bytes.length <;> cases touchesCell s.cfg ch .get addr bytes.length <;> rfl

/-- Settles O47: only a command changes what is outstanding, and ENV's moves change no port. -/
theorem onlyConsumersWaitIsKept : Obligations.OnlyConsumersWaitIsKept := by
  intro s t h ht
  obtain ⟨-, -, ⟨-, rfl⟩ | ⟨q, d, rest, -, hport⟩ | ⟨ch, rest, -, hloss⟩ | ⟨ch, addr, bytes, rest, -, hwrite⟩⟩ := step_cases ht
  · exact h
  · exact (h.of_ports (State.running_ports s q d rest)).of_servePort hport
  · cases hloss
    exact h
  · unfold envCorruptWrite at hwrite
    split at hwrite
    · cases hwrite
      exact h.of_ports (foreignWrite_ports { s with schedule := rest } ch addr bytes)
    · cases hwrite

end Sys2Proof.Machine
end

section
/-! PROOFS. The timestamp reconstruction unit (40_timestamp.md R120 to R127): TRACK and TS_RESET on their port, the branches of
TRACK by the numeric relation of the sample and TS_LAST, and a run of TRACKs over samples of true times. -/

namespace Sys2Proof.Machine

/-! ### TRACK and TS_RESET on the consumer port (R120, R121) -/

/-- The state after a command that sets channel `ch`'s tracker and returns OK: what TRACK and TS_RESET do. -/
def State.trackerAnswer (s : State) (ch : Chan) (ts : Tracker) (data : List Word) : State :=
  { s.withTracker ch ts with response := some ⟨s.port, .ok, data⟩ }

@[simp] theorem State.trackerAnswer_response (s : State) (ch : Chan) (ts : Tracker) (data : List Word) :
    (s.trackerAnswer ch ts data).response = some ⟨s.port, .ok, data⟩ := rfl

theorem State.ch_trackerAnswer (s : State) (ch ch' : Chan) (ts : Tracker) (data : List Word) :
    (s.trackerAnswer ch ts data).ch ch' = if ch' = ch then { s.ch ch with ts := ts } else s.ch ch' :=
  s.ch_withTracker ch ts ch'

@[simp] theorem State.ch_trackerAnswer_same (s : State) (ch : Chan) (ts : Tracker) (data : List Word) :
    (s.trackerAnswer ch ts data).ch ch = { s.ch ch with ts := ts } := by
  rw [State.ch_trackerAnswer, if_pos rfl]

theorem sameElsewhere_trackerAnswer (s : State) (ch : Chan) (ts : Tracker) (data : List Word) :
    SameElsewhere s (s.trackerAnswer ch ts data) ch :=
  ⟨rfl, rfl, rfl, rfl, rfl, rfl, fun ch' h => by rw [State.ch_trackerAnswer, if_neg h]⟩

theorem exec_track {s : State} {ch : Chan} (hp : s.port = ⟨.consumer, ch⟩) (raw : Word) :
    exec (.track ch raw) s =
      .next (s.trackerAnswer ch ((s.ch ch).ts.update raw) (wordsOf64 ((s.ch ch).ts.result raw))) :=
  onLegalPort_legal ((portFault_eq_none ..).2 (by rw [hp]; exact ⟨rfl, rfl⟩))

theorem exec_tsReset {s : State} {ch : Chan} (hp : s.port = ⟨.consumer, ch⟩) :
    exec (.tsReset ch) s = .next (s.trackerAnswer ch (s.ch ch).ts.cleared []) :=
  onLegalPort_legal ((portFault_eq_none ..).2 (by rw [hp]; exact ⟨rfl, rfl⟩))

/-- TS_RESET is legal on the channel's consumer port alone (R92, R121). -/
theorem exec_tsReset_wrongPort {s : State} {ch : Chan} (hp : s.port ≠ ⟨.consumer, ch⟩) :
    exec (.tsReset ch) s = .next (s.recordFault .wrongPort (commandWord .tsReset ch)) := by
  rcases execTsReset_cases ch s with ⟨-, h⟩ | ⟨legal, -⟩
  · exact h
  · obtain ⟨hch, hrole⟩ := (portFault_eq_none ..).1 legal
    cases hs : s.port with
    | mk role chan =>
      rw [hs] at hp hch hrole
      cases role with
      | producer => cases hrole
      | consumer => exact absurd (by rw [hch]) hp

/-! ### The branches of TRACK in numbers (R120, R122) -/

/-- A 64-bit result in numbers: `high·2^32 + raw`. -/
theorem timestamp64_eq_ofNat (high raw : Word) :
    timestamp64 high raw = BitVec.ofNat 64 (high.toNat * 2 ^ 32 + raw.toNat) := by
  have hhigh : high.toNat * 2 ^ 32 < 2 ^ 64 := by omega
  apply BitVec.eq_of_toNat_eq
  rw [timestamp64, BitVec.toNat_or, BitVec.toNat_shiftLeft, BitVec.toNat_setWidth_of_le (by decide),
    BitVec.toNat_setWidth_of_le (by decide), Nat.shiftLeft_eq, Nat.mod_eq_of_lt hhigh, ← Nat.shiftLeft_eq,
    ← Nat.shiftLeft_add_eq_or_of_lt raw.isLt, Nat.shiftLeft_eq, BitVec.toNat_ofNat]
  omega

/-- The low and the high half of the number (R98). -/
theorem wordsOf64_eq_ofNat (v : DWord) :
    wordsOf64 v = [BitVec.ofNat 32 v.toNat, BitVec.ofNat 32 (v.toNat / 2 ^ 32)] := by
  rw [wordsOf64, BitVec.extractLsb', BitVec.extractLsb', Nat.shiftRight_zero, Nat.shiftRight_eq_div_pow]

/-- The two words of a 64-bit result give its number back (R98). -/
theorem wordsOf64_toNat (v : DWord) :
    ((wordsOf64 v).getD 1 0).toNat * 2 ^ 32 + ((wordsOf64 v).getD 0 0).toNat = v.toNat := by
  have low : ((wordsOf64 v).getD 0 0).toNat = v.toNat % 2 ^ 32 := by simp [wordsOf64_eq_ofNat]
  have high : ((wordsOf64 v).getD 1 0).toNat = v.toNat / 2 ^ 32 % 2 ^ 32 := by simp [wordsOf64_eq_ofNat]
  omega

/-- The words of a sample zero-extended to 64 bits. -/
theorem wordsOf64_ofNat_toNat (raw : Word) : wordsOf64 (BitVec.ofNat 64 raw.toNat) = [raw, 0] := by
  have hraw : (BitVec.ofNat 64 raw.toNat).toNat = raw.toNat :=
    BitVec.toNat_ofNat .. |>.trans (Nat.mod_eq_of_lt (by omega))
  rw [wordsOf64_eq_ofNat, hraw, Nat.div_eq_of_lt raw.isLt, BitVec.ofNat_toNat, BitVec.setWidth_eq]
  rfl

/-- The forward test is F0 or F1 of R122. -/
theorem isForward_iff (last raw : Word) :
    isForward last raw = true ↔
      (last.toNat ≤ raw.toNat ∧ raw.toNat - last.toNat < 2 ^ 31) ∨
      (raw.toNat < last.toNat ∧ 2 ^ 31 < last.toNat - raw.toNat) := by
  rw [isForward, decide_eq_true_iff]
  bv_omega

namespace Tracker

variable {t : Tracker} {raw : Word}

theorem update_of_not_init (hi : t.init = false) : t.update raw = ⟨true, raw, t.high⟩ := by
  simp [update, hi]

theorem result_of_not_init (hi : t.init = false) : t.result raw = BitVec.ofNat 64 raw.toNat := by
  simp [result, hi]

/-- Case F0 (R122). -/
theorem track_of_forward (hi : t.init = true) (hle : t.last.toNat ≤ raw.toNat) (hlt : raw.toNat - t.last.toNat < 2 ^ 31) :
    t.update raw = ⟨true, raw, t.high⟩ ∧ t.result raw = BitVec.ofNat 64 (t.high.toNat * 2 ^ 32 + raw.toNat) := by
  have hf : isForward t.last raw = true := (isForward_iff ..).2 (.inl ⟨hle, hlt⟩)
  have hb : isBehind t.last raw = false := decide_eq_false (Nat.not_lt.2 hle)
  simp [update, result, hi, hf, hb, timestamp64_eq_ofNat]

/-- Case F1 (R122). -/
theorem track_of_wrap (hi : t.init = true) (hlt : raw.toNat < t.last.toNat) (hgt : 2 ^ 31 < t.last.toNat - raw.toNat) :
    t.update raw = ⟨true, raw, t.high + 1⟩ ∧
      t.result raw = BitVec.ofNat 64 ((t.high + 1).toNat * 2 ^ 32 + raw.toNat) := by
  have hf : isForward t.last raw = true := (isForward_iff ..).2 (.inr ⟨hlt, hgt⟩)
  have hb : isBehind t.last raw = true := decide_eq_true hlt
  simp [update, result, hi, hf, hb, timestamp64_eq_ofNat]

/-- Cases B1 and B0 (R122). -/
theorem track_of_behind (hi : t.init = true) (hf : isForward t.last raw = false) :
    t.update raw = t ∧ t.result raw = BitVec.ofNat 64 ((t.high - 1).toNat * 2 ^ 32 + raw.toNat) := by
  simp [update, result, hi, hf, timestamp64_eq_ofNat]

/-- TS_RESET has no effect on a tracker in reset state (R121). -/
theorem cleared_eq_self (hi : t.init = false) (hh : t.high = 0) : t.cleared = t := by
  rw [cleared, ← hi, ← hh]

end Tracker

/-- Settles O26: the first call answers the sample and takes it. -/
theorem trackFirstCallTakesSample : Obligations.TrackFirstCallTakesSample := by
  intro s ch raw hp hi
  refine ⟨_, exec_track hp raw, ?_, ?_, sameElsewhere_trackerAnswer .., rfl⟩
  · rw [State.trackerAnswer_response, Tracker.result_of_not_init hi, wordsOf64_ofNat_toNat]
  · rw [State.ch_trackerAnswer_same, Tracker.update_of_not_init hi]

/-- Settles O27: F0 and F1 are the two forward branches, B1 and B0 together the other one. -/
theorem trackBranchesByRelation : Obligations.TrackBranchesByRelation := by
  intro s ch raw hp hi last high F0 F1 B1 B0 value
  refine ⟨by omega, _, exec_track hp raw, ?_, ?_, ?_, sameElsewhere_trackerAnswer .., rfl⟩
  · rintro ⟨hle, hlt⟩
    obtain ⟨hu, hr⟩ := Tracker.track_of_forward hi hle hlt
    simp [hu, hr, value, high]
  · rintro ⟨hlt, hgt⟩
    obtain ⟨hu, hr⟩ := Tracker.track_of_wrap hi hlt hgt
    simp [hu, hr, value, high]
  · intro hB
    have hf : isForward (s.ch ch).ts.last raw = false := by
      rw [← Bool.not_eq_true, isForward_iff]
      omega
    obtain ⟨hu, hr⟩ := Tracker.track_of_behind hi hf
    simp [hu, hr, value, high]

/-- Settles O28: TS_RESET clears TS_INIT, so the TRACK after it is a first call, which keeps the cleared TS_HIGH. -/
theorem tsResetRestartsTracker : Obligations.TsResetRestartsTracker := by
  refine ⟨rfl, rfl, fun s ch => ⟨exec_tsReset_wrongPort, fun hp => ?_⟩⟩
  refine ⟨_, exec_tsReset hp, rfl, State.ch_trackerAnswer_same .., sameElsewhere_trackerAnswer .., rfl, ?_, ?_⟩
  · intro hi hh
    rw [State.ch_trackerAnswer_same, Tracker.cleared_eq_self hi hh]
  · intro raw
    obtain ⟨u, hu, hr, hch, -, -⟩ :=
      trackFirstCallTakesSample (s.trackerAnswer ch (s.ch ch).ts.cleared []) ch raw hp (by simp [Tracker.cleared])
    refine ⟨u, hu, hr, ?_⟩
    rw [hch, State.ch_trackerAnswer_same]
    rfl

/-! ### A run of TRACKs over true times (R123, R127) -/

/-- The sample of a true time: the 32-bit counter. -/
def sampleOf (time : Nat) : Word := BitVec.ofNat 32 time

/-- The tracker after the sample of `time`, when the first sample was in epoch `e`: TS_HIGH counts the wraps since then. -/
def Tracker.synced (e time : Nat) : Tracker := ⟨true, sampleOf time, BitVec.ofNat 32 (time / 2 ^ 32 - e)⟩

/-- The response of R123 to the sample of `time`: the time since the start of epoch `e`. -/
def elapsedResponse (q : Port) (e time : Nat) : Response := ⟨q, .ok, wordsOf64 (BitVec.ofNat 64 (time - e * 2 ^ 32))⟩

theorem Tracker.track_synced_of_reset {t : Tracker} (hi : t.init = false) (hh : t.high = 0) (time : Nat) :
    t.update (sampleOf time) = .synced (time / 2 ^ 32) time ∧
      t.result (sampleOf time) = BitVec.ofNat 64 (time - time / 2 ^ 32 * 2 ^ 32) := by
  have hraw : (sampleOf time).toNat = time - time / 2 ^ 32 * 2 ^ 32 := by
    rw [sampleOf, BitVec.toNat_ofNat]
    omega
  rw [update_of_not_init hi, result_of_not_init hi, hh, hraw, synced, Nat.sub_self]
  exact ⟨rfl, rfl⟩

/-- A step of less than 2^31 µs keeps the tracker synced: it stays in the epoch (F0) or enters the next one (F1). -/
theorem Tracker.track_synced {e prev time : Nat} (he : e ≤ prev / 2 ^ 32) (hle : prev ≤ time) (hlt : time < prev + 2 ^ 31) :
    (synced e prev).update (sampleOf time) = synced e time ∧
      (synced e prev).result (sampleOf time) = BitVec.ofNat 64 (time - e * 2 ^ 32) := by
  have hlast : (synced e prev).last.toNat = prev % 2 ^ 32 := BitVec.toNat_ofNat ..
  have hraw : (sampleOf time).toNat = time % 2 ^ 32 := BitVec.toNat_ofNat ..
  have value {high : Word} (h : high = BitVec.ofNat 32 (time / 2 ^ 32 - e)) :
      BitVec.ofNat 64 (high.toNat * 2 ^ 32 + (sampleOf time).toNat) = BitVec.ofNat 64 (time - e * 2 ^ 32) := by
    apply BitVec.eq_of_toNat_eq
    rw [h, hraw, BitVec.toNat_ofNat, BitVec.toNat_ofNat, BitVec.toNat_ofNat]
    omega
  obtain hsame | hnext : time / 2 ^ 32 = prev / 2 ^ 32 ∨ time / 2 ^ 32 = prev / 2 ^ 32 + 1 := by omega
  · obtain ⟨hu, hr⟩ := track_of_forward (t := synced e prev) (raw := sampleOf time) rfl (by omega) (by omega)
    have hhigh : (synced e prev).high = BitVec.ofNat 32 (time / 2 ^ 32 - e) := by rw [hsame]; rfl
    exact ⟨by rw [hu, hhigh, synced], by rw [hr, value hhigh]⟩
  · obtain ⟨hu, hr⟩ := track_of_wrap (t := synced e prev) (raw := sampleOf time) rfl (by omega) (by omega)
    have hhigh : (synced e prev).high + 1 = BitVec.ofNat 32 (time / 2 ^ 32 - e) := by
      rw [hnext, Nat.sub_add_comm he, BitVec.ofNat_add]
      rfl
    exact ⟨by rw [hu, hhigh, synced], by rw [hr, value hhigh]⟩

/-- A sequence that begins with a TRACK on its port goes on after it, with its response in front. -/
theorem execAll_track_cons {s : State} {ch : Chan} (hp : s.port = ⟨.consumer, ch⟩) (raw : Word) (is : List Instr) :
    execAll (.track ch raw :: is) s =
      (execAll is (s.trackerAnswer ch ((s.ch ch).ts.update raw) (wordsOf64 ((s.ch ch).ts.result raw)))).map
        fun (rs, u) => (⟨s.port, .ok, wordsOf64 ((s.ch ch).ts.result raw)⟩ :: rs, u) := by
  rw [execAll, exec_track hp]
  rfl

/-- From a synced tracker every TRACK answers the time since the start of the first epoch. -/
theorem execAll_tracks_of_synced {s : State} {ch : Chan} {e prev : Nat} {times : List Nat}
    (hp : s.port = ⟨.consumer, ch⟩) (ht : (s.ch ch).ts = .synced e prev) (he : e ≤ prev / 2 ^ 32)
    (hc : (prev :: times).IsChain (fun a b => a ≤ b ∧ b < a + 2 ^ 31)) :
    ∃ u, execAll (times.map fun t => .track ch (sampleOf t)) s = some (times.map (elapsedResponse s.port e), u) := by
  induction times generalizing s prev with
  | nil => exact ⟨s, rfl⟩
  | cons time times ih =>
    obtain ⟨⟨hle, hlt⟩, hrest⟩ := List.isChain_cons_cons.1 hc
    obtain ⟨hu, hr⟩ := Tracker.track_synced he hle hlt
    rw [List.map_cons, execAll_track_cons hp, ht, hu, hr]
    obtain ⟨u, h⟩ := ih (s := s.trackerAnswer ch (.synced e time) (wordsOf64 (BitVec.ofNat 64 (time - e * 2 ^ 32)))) hp
      (by simp) (by omega) hrest
    exact ⟨u, by rw [h]; rfl⟩

/-- From the reset tracker every TRACK answers the time since the start of the first sample's epoch. -/
theorem execAll_tracks_of_reset {s : State} {ch : Chan} {first : Nat} {times : List Nat}
    (hp : s.port = ⟨.consumer, ch⟩) (hi : (s.ch ch).ts.init = false) (hh : (s.ch ch).ts.high = 0)
    (hc : (first :: times).IsChain (fun a b => a ≤ b ∧ b < a + 2 ^ 31)) :
    ∃ u, execAll ((first :: times).map fun t => .track ch (sampleOf t)) s =
      some ((first :: times).map (elapsedResponse s.port (first / 2 ^ 32)), u) := by
  obtain ⟨hu, hr⟩ := Tracker.track_synced_of_reset hi hh first
  rw [List.map_cons, execAll_track_cons hp, hu, hr]
  obtain ⟨u, h⟩ := execAll_tracks_of_synced
    (s := s.trackerAnswer ch (.synced (first / 2 ^ 32) first)
      (wordsOf64 (BitVec.ofNat 64 (first - first / 2 ^ 32 * 2 ^ 32)))) hp (by simp) le_rfl hc
  exact ⟨u, by rw [h]; rfl⟩

/-- The number a response carries, below 2^64 (R120 corner case 4). -/
theorem elapsedResponse_value (q : Port) {e time : Nat} (h : time < e * 2 ^ 32 + 2 ^ 64) :
    ((elapsedResponse q e time).data.getD 1 0).toNat * 2 ^ 32 + ((elapsedResponse q e time).data.getD 0 0).toNat =
      time - e * 2 ^ 32 := by
  rw [elapsedResponse, wordsOf64_toNat, BitVec.toNat_ofNat]
  omega

/-- Settles O29: a run of TRACKs answers the elapsed times, which rise with the true times and differ from them by whole epochs. -/
theorem trackReconstructsElapsedTime : Obligations.TrackReconstructsElapsedTime := by
  intro s ch first times hp hi hh hc hspan
  obtain ⟨u, hrun⟩ := execAll_tracks_of_reset hp hi hh hc
  have hsorted : (first :: times).Pairwise (· ≤ ·) := (hc.imp fun _ _ h => h.1).pairwise
  have hfirst : ∀ t ∈ first :: times, first ≤ t :=
    List.forall_mem_cons.2 ⟨le_rfl, (List.pairwise_cons.1 hsorted).1⟩
  have houtputs : ((first :: times).map (elapsedResponse s.port (first / 2 ^ 32))).map
        (fun r => (r.data.getD 1 0).toNat * 2 ^ 32 + (r.data.getD 0 0).toNat) =
      (first :: times).map fun t => t - first / 2 ^ 32 * 2 ^ 32 := by
    rw [List.map_map]
    refine List.map_congr_left fun t ht => ?_
    rw [Function.comp_apply, elapsedResponse_value s.port (hspan t ht)]
  refine ⟨_, u, hrun, List.forall_mem_map.2 fun _ _ => rfl, houtputs, ?_, ?_⟩
  · rw [houtputs]
    exact List.pairwise_map.2 (hsorted.imp fun h => Nat.sub_le_sub_right h _)
  · rw [houtputs, List.map_map]
    refine List.map_congr_left fun t ht => ?_
    have := hfirst t ht
    rw [Function.comp_apply]
    omega

end Sys2Proof.Machine
end

section
/-! PROOFS. PUSH on its port of a READY channel (41_ring_producer.md R140 to R142): its outcomes by the occupancy the producer reads,
and what each one leaves unchanged. -/

namespace Sys2Proof.Machine

/-! ### The outcomes of PUSH (R140) -/

theorem portFault_push (ch : Chan) : portFault ⟨.producer, ch⟩ .push ch = none := (portFault_eq_none ..).2 ⟨rfl, rfl⟩

theorem overCapacity_eq_true {cfg : Config} {ch : Chan} {occ : Word} :
    overCapacity cfg ch occ = true ↔ cfg.cap.val ch < occ.toNat := decide_eq_true_iff

theorem atCapacity_eq_true {cfg : Config} {ch : Chan} {occ : Word} :
    atCapacity cfg ch occ = true ↔ occ.toNat = cfg.cap.val ch := beq_iff_eq

/-- There is space exactly if neither test of the occupancy holds (R41, 00_scope.md R13). -/
theorem lt_cap_iff_not_over_not_full {cfg : Config} {ch : Chan} {occ : Word} :
    occ.toNat < cfg.cap.val ch ↔ overCapacity cfg ch occ = false ∧ atCapacity cfg ch occ = false := by
  rw [← Bool.not_eq_true, ← Bool.not_eq_true, overCapacity_eq_true, atCapacity_eq_true]
  omega

/-- The state a PUSH that returns OK answers from: after its reads, the slot, PUT and WAKE are written (R140). -/
def State.pushed (s : State) (ch : Chan) (slot : List Word) : State :=
  (s.pushReads ch).pushPublish ch (s.cell ch .put) (slotBytesOf slot)

section Outcomes
variable {s : State} {ch : Chan} (slot : List Word) (hport : s.port = ⟨.producer, ch⟩) (hready : (s.ch ch).chState = .ready)
include hport hready

/-- While PFAULT is set, PUSH reads nothing and changes nothing (60_exceptions.md R211). -/
theorem exec_push_of_pFault (hfault : (s.ch ch).pFault = true) : exec (.push ch slot) s = respond .corrupt [] s := by
  have legal : portFault s.port .push ch = none := by rw [hport, portFault_push]
  rw [exec, execPush, onLegalPort_legal legal, State.isUninit_eq_false.2 hready, faultIf_false, if_pos hfault]

/-- With PFAULT clear, the occupancy read and the overwrite check select one of four outcomes. -/
theorem exec_push_cases_of_ready (hfault : (s.ch ch).pFault = false) :
    (s.cfg.cap.val ch < (s.cell ch .put - s.view (.prod ch) ch .get).toNat ∧
      exec (.push ch slot) s = respond .corrupt [] ((s.pushReads ch).setPFault ch)) ∨
    ((s.cell ch .put - s.view (.prod ch) ch .get).toNat = s.cfg.cap.val ch ∧
      exec (.push ch slot) s = respond .full [] (s.pushReads ch)) ∨
    ((s.cell ch .put - s.view (.prod ch) ch .get).toNat < s.cfg.cap.val ch ∧ s.overwrites ch (s.cell ch .put) = true ∧
      exec (.push ch slot) s = .next (s.recordFault .slotOverwrite (commandWord .push ch))) ∨
    ((s.cell ch .put - s.view (.prod ch) ch .get).toNat < s.cfg.cap.val ch ∧ s.overwrites ch (s.cell ch .put) = false ∧
      exec (.push ch slot) s = respond .ok [] (s.pushed ch slot)) := by
  have legal : portFault s.port .push ch = none := by rw [hport, portFault_push]
  have initialised : s.isUninit ch = false := State.isUninit_eq_false.2 hready
  rcases execPush_cases ch slot s with ⟨wrongPort, -⟩ | ⟨-, ⟨uninit, -⟩ | ⟨-, faulted, -⟩ | ⟨-, -, above, h⟩ |
    ⟨-, -, -, full, h⟩ | ⟨-, -, notAbove, notFull, overwrite, h⟩ | ⟨-, -, notAbove, notFull, free, h⟩⟩
  · simp [legal] at wrongPort
  · simp [initialised] at uninit
  · simp [hfault] at faulted
  · exact .inl ⟨overCapacity_eq_true.1 above, h⟩
  · exact .inr (.inl ⟨atCapacity_eq_true.1 full, h⟩)
  · exact .inr (.inr (.inl ⟨lt_cap_iff_not_over_not_full.2 ⟨notAbove, notFull⟩, overwrite, h⟩))
  · exact .inr (.inr (.inr ⟨lt_cap_iff_not_over_not_full.2 ⟨notAbove, notFull⟩, free, h⟩))

end Outcomes

/-! ### What the outcomes change -/

theorem SameElsewhere.trans {s t u : State} {ch : Chan} (h : SameElsewhere s t ch) (h' : SameElsewhere t u ch) :
    SameElsewhere s u ch :=
  ⟨h'.cfg.trans h.cfg, h'.ports.trans h.ports, h'.faults.trans h.faults, h'.schedule.trans h.schedule, h'.port.trans h.port,
    h'.draw.trans h.draw, fun ch' hne => (h'.otherChannel ch' hne).trans (h.otherChannel ch' hne)⟩

/-- A response is none of the fields that stay the same. -/
theorem SameElsewhere.withResponse {s t : State} {ch : Chan} (h : SameElsewhere s t ch) (r : Option Response) :
    SameElsewhere s { t with response := r } ch :=
  ⟨h.cfg, h.ports, h.faults, h.schedule, h.port, h.draw, h.otherChannel⟩

theorem sameElsewhere_pushReads (s : State) (ch : Chan) : SameElsewhere s (s.pushReads ch) ch :=
  ⟨rfl, rfl, rfl, rfl, rfl, rfl, fun ch' h => by rw [State.ch_pushReads, if_neg h]⟩

theorem sameElsewhere_setPFault (s : State) (ch : Chan) : SameElsewhere s (s.setPFault ch) ch :=
  ⟨rfl, rfl, rfl, rfl, rfl, rfl, fun ch' h => by rw [State.ch_setPFault, if_neg h]⟩

/-- The producer's own state after its two reads (R140). -/
theorem State.ch_pushReads_same (s : State) (ch : Chan) :
    (s.pushReads ch).ch ch =
      { s.ch ch with front := (s.ch ch).front.set (.prod ch) ⟨s.histLast ch .put, s.viewIndex (.prod ch) ch .get⟩ } := by
  rw [State.ch_pushReads, if_pos rfl]

/-- Two settings of one agent's value leave the later one. -/
theorem PerAgent.set_set {α : Type} (p : PerAgent α) (a : Agent) (v w : α) : (p.set a v).set a w = p.set a w := by
  cases a with
  | prod ch => cases ch <;> rfl
  | cons ch => cases ch <;> rfl
  | env => rfl

section Pushed
variable {s : State} {slot : List Word} (hl : s.cfg.legal = true) (hb : (slotBytesOf slot).length = s.cfg.slotBytes) (ch : Chan)
include hb

/-- PUSH stores to the slot of index PUT and to PUT alone (R140). -/
theorem State.readByte_pushed_outside {a : Nat}
    (hslot : ¬ Within a (s.cfg.slotAddr ch ((s.cell ch .put).toNat % s.cfg.cap.val ch)) s.cfg.slotBytes)
    (hput : ¬ Within a (s.cfg.cellAddr ch .put) 4) : (s.pushed ch slot).mem.readByte a = s.mem.readByte a := by
  have hstored : (s.pushed ch slot).mem =
      (s.mem.writeBytes (s.cfg.slotAddr ch ((s.cell ch .put).toNat % s.cfg.cap.val ch)) (slotBytesOf slot)).writeWord
        (s.cfg.cellAddr ch .put) (s.cell ch .put + 1) := rfl
  unfold Within at hslot hput
  rw [hstored, Memory.readByte_writeWord_outside _ _ _ _ (by omega), Memory.readByte_writeBytes_outside _ _ _ _ (by omega)]

include hl

theorem State.cell_put_pushed : (s.pushed ch slot).cell ch .put = s.cell ch .put + 1 := by
  rw [State.pushed, State.cell_pushPublish (s := s.pushReads ch) hl hb, if_pos ⟨rfl, rfl⟩]

theorem State.hist_put_pushed : (s.pushed ch slot).hist ch .put = s.hist ch .put ++ [s.cell ch .put + 1] := by
  rw [State.pushed, State.hist_pushPublish (s := s.pushReads ch) hl hb, if_pos rfl,
    State.pushReads, State.hist_readIndex, State.hist_readIndex]

/-- The channel's own state after a PUSH that returns OK (R140). -/
theorem State.ch_pushed :
    (s.pushed ch slot).ch ch = { s.ch ch with
      older := ⟨(s.ch ch).older.put ++ [s.cell ch .put], (s.ch ch).older.get⟩
      front := (s.ch ch).front.set (.prod ch) ⟨s.histLast ch .put + 1, s.viewIndex (.prod ch) ch .get⟩
      wake := true } := by
  rw [State.pushed, State.ch_pushPublish (s := s.pushReads ch) hl hb, if_pos rfl,
    State.ch_pushReads_same, State.histLast_pushReads, State.cell_pushReads, PerAgent.set_set, PerAgent.val_set, if_pos rfl]
  rfl

theorem sameElsewhere_pushed : SameElsewhere s (s.pushed ch slot) ch :=
  (sameElsewhere_pushReads s ch).trans ⟨rfl, rfl, rfl, rfl, rfl, rfl, fun ch' h => by
    rw [State.pushed, State.ch_pushPublish (s := s.pushReads ch) hl hb, if_neg h]⟩

/-- The slot of index PUT holds the image (R140, 20_memory.md R53). -/
theorem State.slotRead_pushed :
    (s.pushed ch slot).slotRead ch ((s.cell ch .put).toNat % s.cfg.cap.val ch) = slotBytesOf slot :=
  (State.slotRead_pushPublish (s := s.pushReads ch) hl hb ch ch (s.cell ch .put)
    (Config.slotOf_lt hl ch _)).trans (if_pos ⟨rfl, rfl⟩)

/-- The bytes of that slot, where R52 and R97 put them. -/
theorem State.readByte_slot_pushed {k : Nat} (hk : k < s.cfg.slotBytes) :
    (s.pushed ch slot).mem.readByte
      (s.cfg.base.val ch + 8 + (s.cell ch .put).toNat % s.cfg.cap.val ch * s.cfg.slotBytes + k) = imageByte slot k := by
  have hbyte : ((s.pushed ch slot).slotRead ch ((s.cell ch .put).toNat % s.cfg.cap.val ch)).getD k 0 =
      (s.pushed ch slot).mem.readByte (s.cfg.slotAddr ch ((s.cell ch .put).toNat % s.cfg.cap.val ch) + k) :=
    Memory.getD_readBytes _ _ _ _ hk
  rw [State.slotRead_pushed hl hb, slotBytesOf_getD _ _ (by rwa [← slotBytesOf_length, hb])] at hbyte
  exact hbyte.symm

end Pushed

/-- Settles O13: with space and no overwrite PUSH answers from the pushed state. -/
theorem pushStoresPublishesAndWakes : Obligations.PushStoresPublishesAndWakes := by
  intro s ch slot hl hlen hport hready hfault hspace hfree
  have hb := slotBytesOf_length_of_wellFormed hl (ch := ch) (beq_iff_eq.2 hlen)
  rcases exec_push_cases_of_ready slot hport hready hfault with ⟨above, -⟩ | ⟨full, -⟩ | ⟨-, overwrite, -⟩ | ⟨-, -, hexec⟩
  · omega
  · omega
  · rw [hfree] at overwrite
    cases overwrite
  · exact ⟨_, hexec, rfl, State.slotRead_pushed hl hb ch, fun _ => State.readByte_slot_pushed hl hb ch,
      State.cell_put_pushed hl hb ch, State.hist_put_pushed hl hb ch, State.ch_pushed hl hb ch,
      (sameElsewhere_pushed hl hb ch).withResponse _, fun _ => State.readByte_pushed_outside hb ch⟩

/-! ### FULL and the producer's view (R142) -/

/-- A PUSH that returned OK read an occupancy below CAP and published `PUT +₃₂ 1`. -/
theorem push_ok {s t : State} {ch : Chan} {slot : List Word} (hl : s.cfg.legal = true) (hb : (slotBytesOf slot).length = s.cfg.slotBytes)
    (h : exec (.push ch slot) s = .next t) (hr : t.response = some ⟨s.port, .ok, []⟩) :
    (s.cell ch .put - s.view (.prod ch) ch .get).toNat < s.cfg.cap.val ch ∧ t.cell ch .put = s.cell ch .put + 1 := by
  obtain ⟨u, effect, after⟩ := exec_effect h
  rw [after.cell]
  rw [hr] at effect
  cases effect with
  | nothing _ _ notOk => exact absurd rfl notOk
  | pushOk _ _ _ _ notOver notFull _ =>
    exact ⟨lt_cap_iff_not_over_not_full.2 ⟨notOver, notFull⟩, State.cell_put_pushed hl hb ch⟩

/-- The distance to an index grows by one with the other index, short of the wrap (10_state.md R41). -/
theorem toNat_succ_sub {p g : Word} (h : (p - g).toNat + 1 < 2 ^ 32) : (p + 1 - g).toNat = (p - g).toNat + 1 := by
  bv_omega

/-- Settles O14: at CAP only the reads happen, and below CAP the published PUT is one further from what the producer read. -/
theorem pushOnFullRingChangesNothing : Obligations.PushOnFullRingChangesNothing := by
  intro s ch slot hl hlen hport hready hfault
  have hb := slotBytesOf_length_of_wellFormed hl (ch := ch) (beq_iff_eq.2 hlen)
  refine ⟨fun hfull => ?_, fun t h hr => ?_⟩
  · rcases exec_push_cases_of_ready slot hport hready hfault with ⟨above, -⟩ | ⟨-, hexec⟩ | ⟨space, -⟩ | ⟨space, -⟩
    · omega
    · exact ⟨_, hexec, rfl, State.ch_pushReads_same s ch, (sameElsewhere_pushReads s ch).withResponse _, rfl⟩
    · omega
    · omega
  · obtain ⟨hspace, hput⟩ := push_ok hl hb h hr
    have hcap := Config.cap_lt hl ch
    rw [hput, toNat_succ_sub (by omega)]

/-! ### CORRUPT (60_exceptions.md R211) -/

/-- Settles O15: PFAULT ends PUSH before its reads; above CAP the reads happen and PFAULT is set. -/
theorem pushReportsCorruption : Obligations.PushReportsCorruption := by
  intro s ch slot hport hready
  refine ⟨exec_push_of_pFault slot hport hready, fun hfault hover => ?_⟩
  rcases exec_push_cases_of_ready slot hport hready hfault with ⟨-, hexec⟩ | ⟨full, -⟩ | ⟨space, -⟩ | ⟨space, -⟩
  · refine ⟨_, hexec, rfl, ?_, ((sameElsewhere_pushReads s ch).trans (sameElsewhere_setPFault _ ch)).withResponse _, rfl⟩
    have hch : ((s.pushReads ch).setPFault ch).ch ch = { (s.pushReads ch).ch ch with pFault := true } := by
      rw [State.ch_setPFault, if_pos rfl]
    exact hch.trans (by rw [State.ch_pushReads_same])
  · omega
  · omega
  · omega

end Sys2Proof.Machine
end

section
/-! PROOFS. DRAIN_BEGIN, POP and DRAIN_END on their port of a READY channel (42_ring_consumer.md R160 to R163): the outcomes of each
command with what they leave unchanged, and a whole DRAIN by induction on the slots still to come. -/

namespace Sys2Proof.Machine

/-! ### The outcomes of the three commands (R160 to R162) -/

/-- Not above CAP (R41). -/
theorem overCapacity_eq_false {cfg : Config} {ch : Chan} {occ : Word} :
    overCapacity cfg ch occ = false ↔ occ.toNat ≤ cfg.cap.val ch := by
  rw [← Bool.not_eq_true, overCapacity_eq_true, Nat.not_lt]

/-- The state DRAIN_BEGIN answers OK from: after its reads, the drain stands between GET and the PUT it read (R160). -/
def State.drainOpened (s : State) (ch : Chan) : State :=
  (s.drainReads ch).openDrain ch (s.cell ch .get) (s.view (.cons ch) ch .put)

/-- The state POP answers OK from: CLGET is one on (R161). -/
def State.popped (s : State) (ch : Chan) : State := s.updCh ch fun x => { x with clGet := x.clGet + 1 }

/-- The state DRAIN_END answers from: CLGET is published as GET and the drain is closed (R162). -/
def State.drainEnded (s : State) (ch : Chan) : State := (s.writeIndex (.cons ch) ch .get (s.ch ch).clGet).closeDrain ch

section Outcomes
variable {s : State} {ch : Chan} (hport : s.port = ⟨.consumer, ch⟩) (hready : (s.ch ch).chState = .ready)
include hport hready

/-- A command of the consumer goes on to its work once the drain is as it needs it: the port and CHSTATE are right (R214). -/
theorem consumer_checks_pass {op : Op} (legal : op.legalOn .consumer = true) {wrongDrain : Bool} (hdrain : wrongDrain = false)
    (k : Result) :
    onLegalPort op ch s (faultIf (s.isUninit ch) .useBeforeInit op ch s (faultIf wrongDrain .drainSequence op ch s k)) = k := by
  have noFault : portFault s.port op ch = none := (portFault_eq_none ..).2 (by rw [hport]; exact ⟨rfl, legal⟩)
  rw [onLegalPort_legal noFault, State.isUninit_eq_false.2 hready, hdrain, faultIf_false, faultIf_false]

/-- While CFAULT is set, DRAIN_BEGIN reads nothing and changes nothing (60_exceptions.md R211). -/
theorem exec_drainBegin_of_cFault (hclosed : (s.ch ch).cDrain = false) (hfault : (s.ch ch).cFault = true) :
    exec (.drainBegin ch) s = respond .corrupt [] s :=
  (consumer_checks_pass hport hready rfl hclosed _).trans (if_pos hfault)

/-- With CFAULT clear, the occupancy read selects between CORRUPT and an open drain. -/
theorem exec_drainBegin_cases_of_ready (hclosed : (s.ch ch).cDrain = false) (hfault : (s.ch ch).cFault = false) :
    (s.cfg.cap.val ch < (s.view (.cons ch) ch .put - s.cell ch .get).toNat ∧
      exec (.drainBegin ch) s = respond .corrupt [] ((s.drainReads ch).setCFault ch)) ∨
    ((s.view (.cons ch) ch .put - s.cell ch .get).toNat ≤ s.cfg.cap.val ch ∧
      exec (.drainBegin ch) s = respond .ok [s.view (.cons ch) ch .put - s.cell ch .get] (s.drainOpened ch)) := by
  have legal : portFault s.port .drainBegin ch = none := (portFault_eq_none ..).2 (by rw [hport]; exact ⟨rfl, rfl⟩)
  have initialised : s.isUninit ch = false := State.isUninit_eq_false.2 hready
  rcases execDrainBegin_cases ch s with ⟨wrongPort, -⟩ | ⟨-, ⟨uninit, -⟩ | ⟨-, opened, -⟩ | ⟨-, -, faulted, -⟩ |
    ⟨-, -, -, above, h⟩ | ⟨-, -, -, notAbove, h⟩⟩
  · simp [legal] at wrongPort
  · simp [initialised] at uninit
  · simp [hclosed] at opened
  · simp [hfault] at faulted
  · exact .inl ⟨overCapacity_eq_true.1 above, h⟩
  · exact .inr ⟨overCapacity_eq_false.1 notAbove, h⟩

theorem exec_pop_before_limit (hopen : (s.ch ch).cDrain = true) (hmore : (s.ch ch).clGet ≠ (s.ch ch).clLimit) :
    exec (.pop ch) s = respond .ok (slotWordsOf (s.nextSlot ch)) (s.popped ch) :=
  (consumer_checks_pass hport hready rfl (by rw [hopen]; rfl) _).trans (if_neg hmore)

theorem exec_pop_at_limit (hopen : (s.ch ch).cDrain = true) (hlimit : (s.ch ch).clGet = (s.ch ch).clLimit) :
    exec (.pop ch) s = respond .empty [] s :=
  (consumer_checks_pass hport hready rfl (by rw [hopen]; rfl) _).trans (if_pos hlimit)

theorem exec_drainEnd_of_open (hopen : (s.ch ch).cDrain = true) :
    exec (.drainEnd ch) s = respond .ok [] (s.drainEnded ch) :=
  consumer_checks_pass hport hready rfl (by rw [hopen]; rfl) _

end Outcomes

/-! ### What the outcomes change -/

theorem sameElsewhere_updCh (s : State) (ch : Chan) (f : Channel → Channel) : SameElsewhere s (s.updCh ch f) ch :=
  ⟨rfl, rfl, rfl, rfl, rfl, rfl, fun ch' h => by rw [State.ch_updCh, if_neg h]⟩

theorem sameElsewhere_drainReads (s : State) (ch : Chan) : SameElsewhere s (s.drainReads ch) ch :=
  ⟨rfl, rfl, rfl, rfl, rfl, rfl, fun ch' h => by rw [State.ch_drainReads, if_neg h]⟩

theorem sameElsewhere_drainEnded (s : State) (ch : Chan) : SameElsewhere s (s.drainEnded ch) ch :=
  ⟨rfl, rfl, rfl, rfl, rfl, rfl, fun ch' h => by rw [State.drainEnded, State.ch_drainEnd, if_neg h]⟩

/-- The channel's own state after DRAIN_BEGIN's two reads (R160). -/
theorem State.ch_drainReads_same (s : State) (ch : Chan) :
    (s.drainReads ch).ch ch =
      { s.ch ch with front := (s.ch ch).front.set (.cons ch) ⟨s.viewIndex (.cons ch) ch .put, s.histLast ch .get⟩ } := by
  rw [State.ch_drainReads, if_pos rfl]

theorem State.ch_drainOpened (s : State) (ch : Chan) :
    (s.drainOpened ch).ch ch = { s.ch ch with
      clGet := s.cell ch .get
      clLimit := s.view (.cons ch) ch .put
      cDrain := true
      front := (s.ch ch).front.set (.cons ch) ⟨s.viewIndex (.cons ch) ch .put, s.histLast ch .get⟩ } := by
  rw [State.drainOpened, State.ch_openDrain, if_pos rfl, State.ch_drainReads_same]

theorem State.ch_popped (s : State) (ch : Chan) :
    (s.popped ch).ch ch = { s.ch ch with clGet := (s.ch ch).clGet + 1 } := by
  rw [State.popped, State.ch_updCh, if_pos rfl]

theorem State.ch_drainEnded (s : State) (ch : Chan) :
    (s.drainEnded ch).ch ch = { s.ch ch with
      older := ⟨(s.ch ch).older.put, (s.ch ch).older.get ++ [s.cell ch .get]⟩
      front := (s.ch ch).front.set (.cons ch) ⟨s.front (.cons ch) ch .put, s.histLast ch .get + 1⟩
      cDrain := false } := by
  rw [State.drainEnded, State.ch_drainEnd, if_pos rfl]
  rfl

theorem State.cell_get_drainEnded (s : State) (ch : Chan) : (s.drainEnded ch).cell ch .get = (s.ch ch).clGet :=
  State.cell_writeIndex_same s (.cons ch) ch .get _

/-- The publish is one entry of GET's history (20_memory.md R62). -/
theorem State.hist_get_drainEnded (s : State) (ch : Chan) :
    (s.drainEnded ch).hist ch .get = s.hist ch .get ++ [(s.ch ch).clGet] := by
  rw [State.hist, State.ch_drainEnded, State.cell_get_drainEnded]
  rfl

/-- DRAIN_END stores to GET alone (R162). -/
theorem State.readByte_drainEnded_outside (s : State) (ch : Chan) {a : Nat} (h : ¬ Within a (s.cfg.cellAddr ch .get) 4) :
    (s.drainEnded ch).mem.readByte a = s.mem.readByte a := by
  rw [Within] at h
  exact Memory.readByte_writeWord_outside _ _ _ _ (by omega)

/-! ### DRAIN_BEGIN (R160, 60_exceptions.md R211) -/

/-- Settles O17: at most CAP slots to drain, DRAIN_BEGIN answers from the opened drain. -/
theorem drainBeginSamplesIndices : Obligations.DrainBeginSamplesIndices := by
  intro s ch hport hready hclosed hfault hcap
  rcases exec_drainBegin_cases_of_ready hport hready hclosed hfault with ⟨above, -⟩ | ⟨-, hexec⟩
  · omega
  · exact ⟨_, hexec, rfl, State.ch_drainOpened s ch,
      ((sameElsewhere_drainReads s ch).trans (sameElsewhere_updCh _ ch _)).withResponse _, rfl⟩

/-- Settles O18: CFAULT ends DRAIN_BEGIN before its reads; above CAP the reads happen and CFAULT is set. -/
theorem drainBeginReportsCorruption : Obligations.DrainBeginReportsCorruption := by
  intro s ch hport hready hclosed
  refine ⟨exec_drainBegin_of_cFault hport hready hclosed, fun hfault hover => ?_⟩
  rcases exec_drainBegin_cases_of_ready hport hready hclosed hfault with ⟨-, hexec⟩ | ⟨within, -⟩
  · have hch : ((s.drainReads ch).setCFault ch).ch ch = { (s.drainReads ch).ch ch with cFault := true } := by
      rw [State.ch_setCFault, if_pos rfl]
    exact ⟨_, hexec, rfl, hch.trans (by rw [State.ch_drainReads_same]),
      ((sameElsewhere_drainReads s ch).trans (sameElsewhere_updCh _ ch _)).withResponse _, rfl⟩
  · omega

/-! ### POP (R161) -/

/-- The bytes of a slot are where R52 puts them. -/
theorem State.slotRead_getD (s : State) (ch : Chan) (i : Nat) {k : Nat} (hk : k < s.cfg.slotBytes) :
    (s.slotRead ch i).getD k 0 = s.mem.readByte (s.cfg.slotAddr ch i + k) :=
  Memory.getD_readBytes _ _ _ _ hk

/-- Byte `k` of POP's data, where R97 puts it, is byte `k` of the slot. -/
theorem imageByte_nextSlot {s : State} (hl : s.cfg.legal = true) (ch : Chan) {k : Nat} (hk : k < s.cfg.slotBytes) :
    imageByte (slotWordsOf (s.nextSlot ch)) k =
      s.mem.readByte (s.cfg.slotAddr ch (s.cfg.slotOf ch (s.ch ch).clGet) + k) := by
  have hlen := slotWordsOf_nextSlot_length hl ch
  have hbytes := Config.slotWords_mul hl
  rw [← slotBytesOf_getD _ _ (by omega), slotBytesOf_nextSlot hl, State.slotRead_getD s ch _ hk]

/-- Settles O19: before the limit POP answers with the next slot, at the limit with EMPTY. -/
theorem popTakesNextSlot : Obligations.PopTakesNextSlot := by
  intro s ch hl hport hready hopen
  refine ⟨fun hmore => ?_, exec_pop_at_limit hport hready hopen⟩
  exact ⟨_, _, exec_pop_before_limit hport hready hopen hmore, rfl, slotWordsOf_nextSlot_length hl ch,
    slotBytesOf_nextSlot hl ch, fun _ => imageByte_nextSlot hl ch, State.ch_popped s ch,
    (sameElsewhere_updCh s ch _).withResponse _, rfl⟩

/-! ### DRAIN_END (R162) -/

/-- Settles O20: in an open drain DRAIN_END answers from the state with the drain ended. -/
theorem drainEndPublishesOnce : Obligations.DrainEndPublishesOnce := by
  intro s ch hport hready hopen
  exact ⟨_, exec_drainEnd_of_open hport hready hopen, rfl, State.cell_get_drainEnded s ch, State.hist_get_drainEnded s ch,
    State.ch_drainEnded s ch, (sameElsewhere_drainEnded s ch).withResponse _, fun _ => State.readByte_drainEnded_outside s ch⟩

/-! ### A whole DRAIN (R163, 30_encoding.md R102) -/

/-- A DRAIN_BEGIN that returned OK answered with the occupancy it read, which is at most CAP. -/
theorem drainBegin_ok {s t : State} {ch : Chan} {data : List Word} (h : exec (.drainBegin ch) s = .next t)
    (hr : t.response = some ⟨s.port, .ok, data⟩) :
    data = [s.view (.cons ch) ch .put - s.cell ch .get] ∧
      (s.view (.cons ch) ch .put - s.cell ch .get).toNat ≤ s.cfg.cap.val ch := by
  obtain ⟨u, effect, -⟩ := exec_effect h
  rw [hr] at effect
  cases effect with
  | nothing _ _ notOk => exact absurd rfl notOk
  | drainOpened _ _ _ _ notOver => exact ⟨rfl, overCapacity_eq_false.1 notOver⟩

/-- The state in which a command that responds from `s` ends (30_encoding.md R98). -/
def State.answered (s : State) (st : Status) (data : List Word) : State :=
  { s with response := some ⟨s.port, st, data⟩ }

theorem respond_eq_answered (st : Status) (data : List Word) (s : State) : respond st data s = .next (s.answered st data) := rfl

@[simp] theorem State.answered_response (s : State) (st : Status) (data : List Word) :
    (s.answered st data).response = some ⟨s.port, st, data⟩ := rfl

@[simp] theorem State.ch_answered (s : State) (st : Status) (data : List Word) (ch : Chan) :
    (s.answered st data).ch ch = s.ch ch := rfl

section Expansion
variable {p : Pseudo} {fuel : Nat} {i : Instr} {s u : State} {st : Status} {data : List Word}
  (h : exec i s = respond st data u)
include h

/-- One command of an expansion, and the rest of it from the state the command answered with (R102). -/
theorem Pseudo.runFrom_cons {j : Instr} {t : State} {rs : List Response}
    (hnext : p.next s.cfg i ⟨u.port, st, data⟩ = some j) (hrest : p.runFrom fuel j (u.answered st data) = some (rs, t)) :
    p.runFrom (fuel + 1) i s = some (⟨u.port, st, data⟩ :: rs, t) := by
  simp [runFrom, h, respond_eq_answered, hnext, hrest]

/-- The last command of an expansion. -/
theorem Pseudo.runFrom_last (hnext : p.next s.cfg i ⟨u.port, st, data⟩ = none) :
    p.runFrom (fuel + 1) i s = some ([⟨u.port, st, data⟩], u.answered st data) := by
  simp [runFrom, h, respond_eq_answered, hnext]

end Expansion

/-- The OK answer of the POP that takes index `idx` (R161). -/
def State.slotAnswer (s : State) (ch : Chan) (idx : Word) : Response :=
  ⟨s.port, .ok, slotWordsOf (s.slotRead ch (s.cfg.slotOf ch idx))⟩

/-- The answers of the POPs that take the `n` indices from `g` on, in order. -/
def State.slotAnswers (s : State) (ch : Chan) (g : Word) (n : Nat) : List Response :=
  (List.range n).map fun k => s.slotAnswer ch (g + BitVec.ofNat 32 k)

/-- The answers of a DRAIN of the `n` indices from `g` on, after that of its DRAIN_BEGIN: the slots, EMPTY, and DRAIN_END's. -/
def State.drainAnswers (s : State) (ch : Chan) (g : Word) (n : Nat) : List Response :=
  s.slotAnswers ch g n ++ [⟨s.port, .empty, []⟩, ⟨s.port, .ok, []⟩]

theorem State.slotAnswers_succ (s : State) (ch : Chan) (g : Word) (n : Nat) :
    s.slotAnswers ch g (n + 1) = s.slotAnswer ch g :: s.slotAnswers ch (g + 1) n := by
  have hfirst : g + BitVec.ofNat 32 0 = g := BitVec.add_zero g
  have hnext (k : Nat) : g + BitVec.ofNat 32 (k + 1) = g + 1 + BitVec.ofNat 32 k := by
    rw [← position_succ, add_right_comm]
  rw [slotAnswers, List.range_succ_eq_map, List.map_cons, List.map_map, hfirst]
  exact congrArg _ (List.map_congr_left fun k _ => congrArg (s.slotAnswer ch) (hnext k))

theorem State.slotAnswers_status (s : State) (ch : Chan) (g : Word) (n : Nat) :
    (s.slotAnswers ch g n).map (·.status) = List.replicate n .ok := by
  rw [slotAnswers, List.map_map]
  exact (List.map_const ..).trans (by rw [List.length_range])

/-- The rest of a DRAIN, with `n` slots still to come: their POPs, then EMPTY, then the limit is published. -/
theorem runFrom_pop {s : State} {ch : Chan} {n : Nat} (hport : s.port = ⟨.consumer, ch⟩)
    (hready : (s.ch ch).chState = .ready) (hopen : (s.ch ch).cDrain = true)
    (hn : ((s.ch ch).clLimit - (s.ch ch).clGet).toNat = n) :
    ∃ t, (Pseudo.drain ch).runFrom (n + 2) (.pop ch) s = some (s.drainAnswers ch (s.ch ch).clGet n, t) ∧
      t.cell ch .get = (s.ch ch).clLimit ∧ (t.ch ch).cDrain = false := by
  induction n generalizing s with
  | zero =>
    have hlimit : (s.ch ch).clGet = (s.ch ch).clLimit := by bv_omega
    have hempty := exec_pop_at_limit hport hready hopen hlimit
    have hend := Pseudo.runFrom_last (p := .drain ch) (fuel := 0)
      (exec_drainEnd_of_open (s := s.answered .empty []) hport hready hopen) rfl
    refine ⟨_, Pseudo.runFrom_cons hempty rfl hend, ?_, ?_⟩
    · exact (State.cell_get_drainEnded _ ch).trans hlimit
    · rw [State.ch_answered, State.ch_drainEnded]
  | succ n ih =>
    have hmore : (s.ch ch).clGet ≠ (s.ch ch).clLimit := by
      intro he
      simp [he] at hn
    have hpop := exec_pop_before_limit hport hready hopen hmore
    obtain ⟨t, hrun, hget, hclosed⟩ := ih (s := (s.popped ch).answered .ok (slotWordsOf (s.nextSlot ch))) hport
      (by rw [State.ch_answered, State.ch_popped, hready]) (by rw [State.ch_answered, State.ch_popped, hopen])
      (by rw [State.ch_answered, State.ch_popped]; bv_omega)
    rw [State.ch_answered, State.ch_popped] at hrun hget
    refine ⟨t, ?_, hget, hclosed⟩
    rw [State.drainAnswers, State.slotAnswers_succ]
    exact Pseudo.runFrom_cons hpop rfl hrun

theorem slotBytesOf_slotWordsOf_slotRead {s : State} (hl : s.cfg.legal = true) (ch : Chan) (i : Nat) :
    slotBytesOf (slotWordsOf (s.slotRead ch i)) = s.slotRead ch i :=
  slotBytesOf_slotWordsOf _ s.cfg.slotWords (by rw [State.slotRead_length, Config.slotWords_mul hl])

/-- A slot has at least the four bytes of its timestamp (20_memory.md R55), so an OK POP has data. -/
theorem State.slotAnswer_data_length_ne_zero {s : State} (hl : s.cfg.legal = true) (ch : Chan) (idx : Word) :
    (s.slotAnswer ch idx).data.length ≠ 0 := by
  have hbytes : (slotBytesOf (s.slotAnswer ch idx).data).length = s.cfg.slotBytes := by
    rw [slotAnswer, slotBytesOf_slotWordsOf_slotRead hl, slotRead_length]
  obtain ⟨-, -, -, hpos, -⟩ := (Config.legal_iff s.cfg).1 hl
  rw [slotBytesOf_length] at hbytes
  omega

/-- Of a DRAIN's answers those of its OK POPs are the delivered slots (R163). -/
theorem deliveredSlots_drainAnswers {s : State} (hl : s.cfg.legal = true) (ch : Chan) (g : Word) (n : Nat) (first : Response) :
    deliveredSlots (first :: s.drainAnswers ch g n) =
      (List.range n).map fun k => s.slotRead ch (s.cfg.slotOf ch (g + BitVec.ofNat 32 k)) := by
  have hall : (s.slotAnswers ch g n).filter (fun r => r.status == .ok && r.data.length != 0) = s.slotAnswers ch g n := by
    refine List.filter_eq_self.2 (List.forall_mem_map.2 fun k _ => ?_)
    rw [Bool.and_eq_true, bne_iff_ne]
    exact ⟨rfl, State.slotAnswer_data_length_ne_zero hl ch _⟩
  rw [deliveredSlots, List.drop_one, List.tail_cons, State.drainAnswers, List.filter_append, hall]
  simp [State.slotAnswers, State.slotAnswer, slotBytesOf_slotWordsOf_slotRead hl]

/-- Settles O21: DRAIN_BEGIN opens a drain of COUNT slots, and the POPs take them in order up to the limit. -/
theorem drainDeliversCount : Obligations.DrainDeliversCount := by
  refine ⟨fun s t ch data => drainBegin_ok, fun s ch n hl hport hready hclosed hfault hn hcap => ?_⟩
  have hcount : s.view (.cons ch) ch .put - s.cell ch .get = BitVec.ofNat 32 n := by
    rw [hn, BitVec.ofNat_toNat, BitVec.setWidth_eq]
  rcases exec_drainBegin_cases_of_ready hport hready hclosed hfault with ⟨above, -⟩ | ⟨-, hbegin⟩
  · omega
  · rw [hcount] at hbegin
    obtain ⟨t, hrun, hget, hended⟩ := runFrom_pop (s := (s.drainOpened ch).answered .ok [BitVec.ofNat 32 n]) (n := n) hport
      (by rw [State.ch_answered, State.ch_drainOpened, hready]) (by rw [State.ch_answered, State.ch_drainOpened])
      (by rw [State.ch_answered, State.ch_drainOpened, hn])
    rw [State.ch_answered, State.ch_drainOpened] at hrun hget
    refine ⟨⟨s.port, .ok, [BitVec.ofNat 32 n]⟩ :: s.drainAnswers ch (s.cell ch .get) n, t,
      Pseudo.runFrom_cons hbegin rfl hrun, ?status, rfl, deliveredSlots_drainAnswers hl ch _ n _, hget, hended⟩
    rw [List.map_cons, State.drainAnswers, List.map_append, State.slotAnswers_status]
    rfl

end Sys2Proof.Machine
end

section
/-! PROOFS. Channel control (43_channel_control.md R190 to R192): INIT with no drain open, WAKE_WAIT on its consumer port, and the two
moves of ENV with what they leave unchanged. -/

namespace Sys2Proof.Machine

/-! ### INIT (R190) -/

theorem portFault_init {q : Port} {ch : Chan} (hq : q.chan = ch) : portFault q .init ch = none :=
  (portFault_eq_none ..).2 ⟨hq.symm, by cases q.role <;> rfl⟩

theorem exec_init_of_quiescent {s : State} {ch : Chan} (hport : s.port.chan = ch) (hclosed : (s.ch ch).cDrain = false) :
    exec (.init ch) s = respond .ok [] (s.reinit ch) := by
  rw [exec, execInit, onLegalPort_legal (portFault_init hport), hclosed, faultIf_false]

/-- After INIT both index cells of the channel hold the PUT it found; the two share no byte (20_memory.md R51). -/
theorem State.cell_reinit_same (s : State) (ch : Chan) (c : IndexCell) : (s.reinit ch).cell ch c = s.cell ch .put := by
  rw [State.cell, State.reinit_cfg, State.reinit_mem]
  cases c with
  | put => exact Memory.readWord_writeWord_disjoint _ _ _ _ (Config.cells_apart s.cfg ch (by decide))
  | get => exact Memory.readWord_writeWord_same ..

theorem State.ch_reinit_same (s : State) (ch : Chan) :
    (s.reinit ch).ch ch = { s.ch ch with
      older := ⟨[], []⟩, front := ((s.reinit ch).ch ch).front, pFault := false, cFault := false, chState := .ready } := by
  rw [State.ch_reinit, if_pos rfl]

/-- The one entry of each history is the cell's value, since INIT keeps no older one. -/
theorem State.hist_reinit_same (s : State) (ch : Chan) (c : IndexCell) : (s.reinit ch).hist ch c = [s.cell ch .put] := by
  rw [State.hist, State.ch_reinit_same, State.cell_reinit_same]
  cases c <;> rfl

theorem sameElsewhere_reinit (s : State) (ch : Chan) : SameElsewhere s (s.reinit ch) ch :=
  ⟨rfl, rfl, rfl, rfl, rfl, rfl, fun ch' h => by rw [State.ch_reinit, if_neg h]⟩

/-- INIT stores to GET alone. -/
theorem State.readByte_reinit_outside (s : State) (ch : Chan) {a : Nat} (h : ¬ Within a (s.cfg.cellAddr ch .get) 4) :
    (s.reinit ch).mem.readByte a = s.mem.readByte a := by
  rw [Within] at h
  rw [State.reinit_mem, Memory.readByte_writeWord_outside _ _ _ _ (by omega)]

/-- Settles O22: with no drain open INIT answers from the re-initialised state. -/
theorem initSynchronisesChannel : Obligations.InitSynchronisesChannel := by
  intro s ch hport hclosed
  exact ⟨_, exec_init_of_quiescent hport hclosed, rfl, State.cell_reinit_same s ch .put, State.hist_reinit_same s ch .put,
    State.hist_reinit_same s ch .get, fun a c => State.front_reinit s a ch c, State.ch_reinit_same s ch,
    (sameElsewhere_reinit s ch).withResponse _, fun _ => State.readByte_reinit_outside s ch⟩

/-! ### WAKE_WAIT (R191) -/

/-- WOKEN is enabled only while WAKE is set, and is then the choice of every third draw (log 7). -/
theorem waitChoice_eq_woken {wake : Bool} {draw : Nat} : waitChoice wake draw = .woken ↔ wake = true ∧ draw % 3 = 0 := by
  unfold waitChoice
  split <;> cases wake <;> simp_all

section WakeWait
variable {s : State} {ch : Chan} (hport : s.port = ⟨.consumer, ch⟩)
include hport

/-- The port check lets WAKE_WAIT through on its consumer port (30_encoding.md R95). -/
theorem wakeWait_check_passes (k : Result) : onLegalPort .wakeWait ch s k = k :=
  onLegalPort_legal ((portFault_eq_none ..).2 (by rw [hport]; exact ⟨rfl, rfl⟩))

theorem exec_wakeWait_woken (hchoice : waitChoice (s.ch ch).wake s.draw = .woken) :
    exec (.wakeWait ch) s = respond .ok [] ((s.setWaiting s.port false).setWake ch false) := by
  rw [exec, execWakeWait, wakeWait_check_passes hport, hchoice]

theorem exec_wakeWait_timeout (hchoice : waitChoice (s.ch ch).wake s.draw = .timeout) :
    exec (.wakeWait ch) s = respond .timeout [] (s.setWaiting s.port false) := by
  rw [exec, execWakeWait, wakeWait_check_passes hport, hchoice]

theorem exec_wakeWait_hold (hchoice : waitChoice (s.ch ch).wake s.draw = .hold) : exec (.wakeWait ch) s = hold s := by
  rw [exec, execWakeWait, wakeWait_check_passes hport, hchoice]

end WakeWait

/-- Settles O23: each of the three choices ends the command in the state written out. -/
theorem wakeWaitCompletes : Obligations.WakeWaitCompletes := by
  intro s ch hport
  refine ⟨fun hwoken => ?_, fun htimeout => ?_, exec_wakeWait_hold hport⟩
  · exact ⟨(waitChoice_eq_woken.1 hwoken).1, _, exec_wakeWait_woken hport hwoken, rfl, rfl⟩
  · exact ⟨_, exec_wakeWait_timeout hport htimeout, rfl, rfl⟩

/-- A WAKE_WAIT that returned OK found WAKE set. -/
theorem wake_of_wakeWait_ok {s t : State} {ch : Chan} (h : exec (.wakeWait ch) s = .next t)
    (hr : t.response = some ⟨s.port, .ok, []⟩) : (s.ch ch).wake = true := by
  obtain ⟨u, effect, -⟩ := exec_effect h
  rw [hr] at effect
  cases effect with
  | nothing _ _ notOk => exact absurd rfl notOk
  | woken _ wake => exact wake

/-- Settles O24: the draws 1 and 2 choose TIMEOUT and holding in every state, and 0 chooses WOKEN while WAKE is set. -/
theorem wakeWaitChoiceIsFree : Obligations.WakeWaitChoiceIsFree := by
  intro s ch hport
  refine ⟨⟨1, _, exec_wakeWait_timeout hport rfl, rfl, rfl⟩, ⟨fun ⟨d, t, h, hr⟩ => ?_, fun hwake => ?_⟩,
    ⟨2, _, exec_wakeWait_hold hport rfl, rfl, ?_, rfl⟩⟩
  · exact wake_of_wakeWait_ok (s := { s with draw := d }) h hr
  · exact ⟨0, _, exec_wakeWait_woken hport (waitChoice_eq_woken.2 ⟨hwake, rfl⟩), rfl⟩
  · simp

/-! ### ENV (R192) -/

/-- A step takes the move at the front of the schedule. -/
theorem step_of_move {s : State} {m : Move} {moves : List Move} (hl : s.cfg.legal = true) (hf : s.faults = [])
    (hs : s.schedule = m :: moves) : step s = takeMove m { s with schedule := moves } := by
  rw [step, if_pos hl, if_pos hf, runSchedule, hs]

/-- A write reaches a header cell exactly if the two have a byte in common. -/
theorem touchesCell_iff {cfg : Config} {ch : Chan} {c : IndexCell} {addr n : Nat} :
    touchesCell cfg ch c addr n = true ↔ ∃ a, Within a addr n ∧ Within a (cfg.cellAddr ch c) 4 := by
  simp only [touchesCell, Bool.and_eq_true, bne_iff_ne, decide_eq_true_eq, Within]
  constructor
  · intro h
    exact ⟨max addr (cfg.cellAddr ch c), by omega⟩
  · rintro ⟨a, h⟩
    omega

theorem inSegment_iff {cfg : Config} {ch : Chan} {a : Nat} :
    cfg.inSegment ch a = true ↔ Within a (cfg.base.val ch) (cfg.segmentLength ch) := by
  simp only [Config.inSegment, Bool.and_eq_true, decide_eq_true_eq, Within]

/-- The first and the last byte decide for every byte between them. -/
theorem corruptEnabled_iff {cfg : Config} {ch : Chan} {addr n : Nat} :
    corruptEnabled cfg ch addr n = true ↔
      cfg.envMayCorrupt = true ∧ ∀ a, Within a addr n → cfg.inSegment ch a = true := by
  simp only [corruptEnabled, Bool.and_eq_true, Bool.or_eq_true, beq_iff_eq, inSegment_iff, Within]
  refine and_congr_right fun _ => ⟨fun h a ha => by omega, fun h => ?_⟩
  rcases Nat.eq_zero_or_pos n with hn | hn
  · exact .inl hn
  · exact .inr ⟨h addr (by omega), h (addr + n - 1) (by omega)⟩

/-- The older entries of one history after a write of `n` bytes: the value the cell had joins them if the write reaches it
(20_memory.md R79). -/
def State.olderAfterWrite (s : State) (ch : Chan) (addr n : Nat) (c : IndexCell) : List Word :=
  if touchesCell s.cfg ch c addr n then s.hist ch c else (s.ch ch).older.val c

/-- A CORRUPT_WRITE as one update: of the older history entries of its channel, and of the memory. -/
theorem State.foreignWrite_eq (s : State) (ch : Chan) (addr : Nat) (bytes : List Byte) :
    s.foreignWrite ch addr bytes =
      (s.updCh ch fun x => { x with
        older := ⟨s.olderAfterWrite ch addr bytes.length .put, s.olderAfterWrite ch addr bytes.length .get⟩ }).setMem
        (s.mem.writeBytes addr bytes) := by
  unfold State.foreignWrite State.olderAfterWrite
  dsimp only
  cases touchesCell s.cfg ch .put addr bytes.length <;> cases touchesCell s.cfg ch .get addr bytes.length <;>
    cases ch <;> rfl

section ForeignWrite
variable (s : State) (ch : Chan) (addr : Nat) (bytes : List Byte)

theorem State.foreignWrite_mem : (s.foreignWrite ch addr bytes).mem = s.mem.writeBytes addr bytes := rfl

theorem sameElsewhere_foreignWrite : SameElsewhere s (s.foreignWrite ch addr bytes) ch := by
  rw [State.foreignWrite_eq]
  have h := sameElsewhere_updCh s ch fun x => { x with
    older := ⟨s.olderAfterWrite ch addr bytes.length .put, s.olderAfterWrite ch addr bytes.length .get⟩ }
  exact ⟨h.cfg, h.ports, h.faults, h.schedule, h.port, h.draw, h.otherChannel⟩

theorem State.older_foreignWrite (c : IndexCell) :
    ((s.foreignWrite ch addr bytes).ch ch).older.val c = s.olderAfterWrite ch addr bytes.length c := by
  rw [State.foreignWrite_eq, State.ch_setMem, State.ch_updCh, if_pos rfl]
  cases c <;> rfl

/-- A header cell the write reaches gets one history entry, its new value. -/
theorem State.hist_foreignWrite_touched {c : IndexCell}
    (h : ∃ a, Within a addr bytes.length ∧ Within a (s.cfg.cellAddr ch c) 4) :
    (s.foreignWrite ch addr bytes).hist ch c = s.hist ch c ++ [(s.foreignWrite ch addr bytes).cell ch c] := by
  rw [State.hist, State.older_foreignWrite, State.olderAfterWrite, if_pos (touchesCell_iff.2 h)]

/-- A header cell with no written byte keeps its value and its history. -/
theorem State.hist_foreignWrite_untouched {c : IndexCell}
    (h : ¬ ∃ a, Within a addr bytes.length ∧ Within a (s.cfg.cellAddr ch c) 4) :
    (s.foreignWrite ch addr bytes).hist ch c = s.hist ch c := by
  have hcell : (s.foreignWrite ch addr bytes).cell ch c = s.cell ch c := by
    rw [State.cell, foreignWrite_cfg, State.foreignWrite_mem]
    refine Memory.readWord_congr _ _ _ fun x hlo hhi => Memory.readByte_writeBytes_outside _ _ _ _ ?_
    have hx : ¬ Within x addr bytes.length := fun hx => h ⟨x, hx, hlo, hhi⟩
    unfold Within at hx
    omega
  rw [State.hist, State.older_foreignWrite, State.olderAfterWrite, if_neg (touchesCell_iff.not.2 h), hcell, State.hist]

theorem State.readByte_foreignWrite_inside {k : Nat} (hk : k < bytes.length) :
    (s.foreignWrite ch addr bytes).mem.readByte (addr + k) = bytes.getD k 0 := by
  rw [State.foreignWrite_mem, Memory.readByte_writeBytes, if_pos (by omega), Nat.add_sub_cancel_left]

theorem State.readByte_foreignWrite_outside {a : Nat} (h : ¬ Within a addr bytes.length) :
    (s.foreignWrite ch addr bytes).mem.readByte a = s.mem.readByte a := by
  rw [Within] at h
  rw [State.foreignWrite_mem, Memory.readByte_writeBytes_outside _ _ _ _ (by omega)]

end ForeignWrite

/-- Settles O25: WAKE_LOSS is one update of WAKE; a CORRUPT_WRITE is refused unless enabled, and then is a foreign write. -/
theorem envMovesTouchOnlyTheirTargets : Obligations.EnvMovesTouchOnlyTheirTargets := by
  intro s ch addr bytes moves hl hf
  refine ⟨fun hs => ⟨_, step_of_move hl hf hs, rfl⟩, fun hs => ⟨fun hdisabled => ?_, fun hmay hinside => ?_⟩⟩
  · rw [step_of_move hl hf hs, takeMove, envCorruptWrite, if_neg (corruptEnabled_iff.not.2 hdisabled)]
  · let u : State := { s with schedule := moves }
    have hstep : step s = .next { u.foreignWrite ch addr bytes with response := none } := by
      rw [step_of_move hl hf hs, takeMove, envCorruptWrite, if_pos (corruptEnabled_iff.2 ⟨hmay, hinside⟩)]
    obtain ⟨hcfg, hports, hfaults, hschedule, -, -, hother⟩ := sameElsewhere_foreignWrite u ch addr bytes
    exact ⟨_, hstep, fun _ => State.readByte_foreignWrite_inside u ch addr bytes,
      fun _ => State.readByte_foreignWrite_outside u ch addr bytes, fun _ => State.hist_foreignWrite_touched u ch addr bytes,
      fun _ => State.hist_foreignWrite_untouched u ch addr bytes, foreignWrite_ch u ch ch addr bytes, hother, hcfg, hports,
      hfaults, hschedule, rfl⟩

end Sys2Proof.Machine
end

section
/-! PROOFS. The model faults of a command (60_exceptions.md R210 to R216): the check that comes first decides the fault (R214), its
record is the whole effect of the command, and no agent steps after it (R213). -/

namespace Sys2Proof.Machine

/-! ### The order of checks (R214) -/

/-- The port check comes before every other check. -/
theorem faultOf_of_portFault {s : State} {i : Instr} {code : FaultCode} (h : portFault s.port i.op i.chan = some code) :
    faultOf i s = some code := by
  obtain ⟨rfl, hport⟩ := (portFault_eq_some ..).1 h
  rw [not_and_or, Bool.not_eq_true] at hport
  exact if_pos hport

theorem State.isUninit_eq_true {s : State} {ch : Chan} : s.isUninit ch = true ↔ (s.ch ch).chState = .uninit := by
  simp [State.isUninit]

theorem not_wrongPort_of_portFault {q : Port} {op : Op} {ch : Chan} (h : portFault q op ch = none) :
    ¬ (ch ≠ q.chan ∨ op.legalOn q.role = false) := by
  obtain ⟨hchan, hlegal⟩ := (portFault_eq_none ..).1 h
  simp [hchan, hlegal]

/-! What is checked once the port is right, command by command. -/

section LegalPort
variable {s : State} {ch : Chan}

theorem faultOf_push (slot : List Word) (h : portFault s.port .push ch = none) :
    faultOf (.push ch slot) s =
      if s.isUninit ch then some .useBeforeInit
      else if (s.ch ch).pFault = false ∧
        (overCapacity s.cfg ch (s.cell ch .put - s.view (.prod ch) ch .get) = false ∧
          atCapacity s.cfg ch (s.cell ch .put - s.view (.prod ch) ch .get) = false) ∧
        s.overwrites ch (s.cell ch .put) = true then some .slotOverwrite
      else none := by
  simp only [State.isUninit_eq_true, ← lt_cap_iff_not_over_not_full]
  exact if_neg (not_wrongPort_of_portFault h)

theorem faultOf_drainBegin (h : portFault s.port .drainBegin ch = none) :
    faultOf (.drainBegin ch) s =
      if s.isUninit ch then some .useBeforeInit else if (s.ch ch).cDrain then some .drainSequence else none := by
  simp only [State.isUninit_eq_true]
  exact if_neg (not_wrongPort_of_portFault h)

theorem faultOf_pop (h : portFault s.port .pop ch = none) :
    faultOf (.pop ch) s =
      if s.isUninit ch then some .useBeforeInit else if (s.ch ch).cDrain then none else some .drainSequence := by
  simp only [State.isUninit_eq_true]
  refine (if_neg (not_wrongPort_of_portFault h)).trans ?_
  cases hd : (s.ch ch).cDrain <;> simp [Instr.chan, hd]

theorem faultOf_drainEnd (h : portFault s.port .drainEnd ch = none) :
    faultOf (.drainEnd ch) s =
      if s.isUninit ch then some .useBeforeInit else if (s.ch ch).cDrain then none else some .drainSequence := by
  simp only [State.isUninit_eq_true]
  refine (if_neg (not_wrongPort_of_portFault h)).trans ?_
  cases hd : (s.ch ch).cDrain <;> simp [Instr.chan, hd]

theorem faultOf_init (h : portFault s.port .init ch = none) :
    faultOf (.init ch) s = if (s.ch ch).cDrain then some .notQuiescent else none :=
  if_neg (not_wrongPort_of_portFault h)

theorem faultOf_wakeWait (h : portFault s.port .wakeWait ch = none) : faultOf (.wakeWait ch) s = none :=
  if_neg (not_wrongPort_of_portFault h)

theorem faultOf_track (raw : Word) (h : portFault s.port .track ch = none) : faultOf (.track ch raw) s = none :=
  if_neg (not_wrongPort_of_portFault h)

theorem faultOf_tsReset (h : portFault s.port .tsReset ch = none) : faultOf (.tsReset ch) s = none :=
  if_neg (not_wrongPort_of_portFault h)

end LegalPort

/-! ### The two ways a command ends with respect to FAULTS (R210, R212) -/

/-- `CheckedEnd s i`: command `i`, run in `s`, ends with the model fault that R214 puts first and has no other effect, or no fault
applies and it ends with FAULTS as it was. -/
inductive CheckedEnd (s : State) (i : Instr) : Prop
  | faulted (code : FaultCode) (first : faultOf i s = some code)
      (ends : exec i s = .next (s.recordFault code (commandWord i.op i.chan)))
  | passed (t : State) (noFault : faultOf i s = none) (ends : exec i s = .next t) (faults : t.faults = s.faults)

/-- Every command makes its checks in R214's order. -/
theorem exec_checkedEnd (i : Instr) (s : State) : CheckedEnd s i := by
  cases i with
  | push ch slot =>
    rcases execPush_cases ch slot s with ⟨hp, h⟩ | ⟨hp, ⟨hu, h⟩ | ⟨hu, hf, h⟩ | ⟨hu, -, ho, h⟩ | ⟨hu, -, -, hc, h⟩ |
      ⟨hu, hf, ho, hc, hw, h⟩ | ⟨hu, -, -, -, hw, h⟩⟩
    · exact .faulted _ (faultOf_of_portFault hp) h
    · exact .faulted _ (by simp [faultOf_push slot hp, hu]) h
    · exact .passed _ (by simp [faultOf_push slot hp, hu, hf]) h rfl
    · exact .passed _ (by simp [faultOf_push slot hp, hu, ho]) h rfl
    · exact .passed _ (by simp [faultOf_push slot hp, hu, hc]) h rfl
    · exact .faulted _ (by simp [faultOf_push slot hp, hu, hf, ho, hc, hw]) h
    · exact .passed _ (by simp [faultOf_push slot hp, hu, hw]) h rfl
  | drainBegin ch =>
    rcases execDrainBegin_cases ch s with ⟨hp, h⟩ | ⟨hp, ⟨hu, h⟩ | ⟨hu, hd, h⟩ | ⟨hu, hd, -, h⟩ | ⟨hu, hd, -, -, h⟩ |
      ⟨hu, hd, -, -, h⟩⟩
    · exact .faulted _ (faultOf_of_portFault hp) h
    · exact .faulted _ (by simp [faultOf_drainBegin hp, hu]) h
    · exact .faulted _ (by simp [faultOf_drainBegin hp, hu, hd]) h
    · exact .passed _ (by simp [faultOf_drainBegin hp, hu, hd]) h rfl
    · exact .passed _ (by simp [faultOf_drainBegin hp, hu, hd]) h rfl
    · exact .passed _ (by simp [faultOf_drainBegin hp, hu, hd]) h rfl
  | pop ch =>
    rcases execPop_cases ch s with ⟨hp, h⟩ | ⟨hp, ⟨hu, h⟩ | ⟨hu, hd, h⟩ | ⟨hu, hd, -, h⟩ | ⟨hu, hd, -, h⟩⟩
    · exact .faulted _ (faultOf_of_portFault hp) h
    · exact .faulted _ (by simp [faultOf_pop hp, hu]) h
    · exact .faulted _ (by simp [faultOf_pop hp, hu, hd]) h
    · exact .passed _ (by simp [faultOf_pop hp, hu, hd]) h rfl
    · exact .passed _ (by simp [faultOf_pop hp, hu, hd]) h rfl
  | drainEnd ch =>
    rcases execDrainEnd_cases ch s with ⟨hp, h⟩ | ⟨hp, ⟨hu, h⟩ | ⟨hu, hd, h⟩ | ⟨hu, hd, h⟩⟩
    · exact .faulted _ (faultOf_of_portFault hp) h
    · exact .faulted _ (by simp [faultOf_drainEnd hp, hu]) h
    · exact .faulted _ (by simp [faultOf_drainEnd hp, hu, hd]) h
    · exact .passed _ (by simp [faultOf_drainEnd hp, hu, hd]) h rfl
  | init ch =>
    rcases execInit_cases ch s with ⟨hp, h⟩ | ⟨hp, ⟨hd, h⟩ | ⟨hd, h⟩⟩
    · exact .faulted _ (faultOf_of_portFault hp) h
    · exact .faulted _ (by simp [faultOf_init hp, hd]) h
    · exact .passed _ (by simp [faultOf_init hp, hd]) h rfl
  | wakeWait ch =>
    rcases execWakeWait_cases ch s with ⟨hp, h⟩ | ⟨hp, ⟨-, -, h⟩ | ⟨-, h⟩ | ⟨-, h⟩⟩
    · exact .faulted _ (faultOf_of_portFault hp) h
    · exact .passed _ (faultOf_wakeWait hp) h rfl
    · exact .passed _ (faultOf_wakeWait hp) h rfl
    · exact .passed _ (faultOf_wakeWait hp) h rfl
  | track ch raw =>
    rcases execTrack_cases ch raw s with ⟨hp, h⟩ | ⟨hp, h⟩
    · exact .faulted _ (faultOf_of_portFault hp) h
    · exact .passed _ (faultOf_track raw hp) h rfl
  | tsReset ch =>
    rcases execTsReset_cases ch s with ⟨hp, h⟩ | ⟨hp, h⟩
    · exact .faulted _ (faultOf_of_portFault hp) h
    · exact .passed _ (faultOf_tsReset hp) h rfl

/-- Settles O11: a command ends by the first check of R214 that applies, or passes them all and adds nothing to FAULTS. -/
theorem commandFaultsInCheckOrder : Obligations.CommandFaultsInCheckOrder := by
  refine ⟨rfl, fun i s => ?_⟩
  cases exec_checkedEnd i s with
  | faulted code first ends =>
    refine ⟨fun code' hcode => ?_, fun hnone => by simp [first] at hnone⟩
    obtain rfl : code = code' := by simpa [first] using hcode
    exact ⟨ends, List.mem_map_of_mem (f := FaultRecord.triple) ((State.mem_recordFault_faults ..).2 (.inr rfl))⟩
  | passed t noFault ends faults => exact ⟨fun code hcode => by simp [noFault] at hcode, fun _ => ⟨t, ends, faults⟩⟩

/-! ### The record and the halt (R213) -/

/-- Recording a fault that was not a member appends its record. -/
theorem State.recordFault_faults_of_ne {s : State} {code : FaultCode} {cw : Word}
    (h : (s.recordFault code cw).faults ≠ s.faults) : (s.recordFault code cw).faults = s.faults ++ [⟨code, s.port, cw⟩] := by
  rw [State.recordFault] at h ⊢
  by_cases hmem : (⟨code, s.port, cw⟩ : FaultRecord) ∈ s.faults
  · simp [hmem] at h
  · simp [hmem]

/-- Only a fault changes FAULTS, so a command that changes it has recorded its fault and done nothing else. -/
theorem eq_recordFault_of_faults_ne {i : Instr} {s t : State} (h : exec i s = .next t) (hne : t.faults ≠ s.faults) :
    ∃ code, t = s.recordFault code (commandWord i.op i.chan) := by
  cases exec_checkedEnd i s with
  | faulted code _ ends => exact ⟨code, by simpa using h.symm.trans ends⟩
  | passed u _ ends faults =>
    obtain rfl : u = t := by simpa using ends.symm.trans h
    exact absurd faults hne

theorem mem_faults_of_exec {i : Instr} {s t : State} {r : FaultRecord} (h : exec i s = .next t) (hr : r ∈ s.faults) :
    r ∈ t.faults := by
  by_cases hne : t.faults = s.faults
  · rwa [hne]
  · obtain ⟨code, rfl⟩ := eq_recordFault_of_faults_ne h hne
    exact (State.mem_recordFault_faults ..).2 (.inl hr)

/-- `RecordsFault s t`: `t` has one record in FAULTS and no response, and the block and what is outstanding on the ports are as in
`s`. -/
def RecordsFault (s t : State) : Prop :=
  ∃ r, t.faults = [r] ∧ t.response = none ∧ t.cfg = s.cfg ∧ t.mem = s.mem ∧ t.chan = s.chan ∧
    ∀ q, (t.ports.val q).waiting = (s.ports.val q).waiting

/-- A fault recorded in a state with the block of `s` and nothing in FAULTS. -/
theorem recordsFault_recordFault {s v : State} (hblock : SameBlock s v) (hnil : v.faults = [])
    (hwait : ∀ q, (v.ports.val q).waiting = (s.ports.val q).waiting) (code : FaultCode) (cw : Word) :
    RecordsFault s (v.recordFault code cw) :=
  ⟨_, recordFault_faults_of_nil hnil code cw, rfl, hblock.cfg, hblock.mem, hblock.chan, hwait⟩

theorem recordsFault_of_exec {s v t : State} {i : Instr} (hblock : SameBlock s v) (hnil : v.faults = [])
    (hwait : ∀ q, (v.ports.val q).waiting = (s.ports.val q).waiting) (h : exec i v = .next t) (hne : t.faults ≠ v.faults) :
    RecordsFault s t := by
  obtain ⟨code, rfl⟩ := eq_recordFault_of_faults_ne h hne
  exact recordsFault_recordFault hblock hnil hwait code _

/-- Taking words off a port leaves what is outstanding as it was (30_encoding.md R90). -/
theorem waiting_consume (s : State) (q q' : Port) (n : Nat) :
    ((s.consume q n).ports.val q').waiting = (s.ports.val q').waiting := by
  by_cases hq : q' = q <;> simp [hq]

theorem recordsFault_of_servePort {s t : State} {q : Port} (hnil : s.faults = []) (h : servePort q s = .next t)
    (hne : t.faults ≠ s.faults) : RecordsFault s t := by
  rcases servePort_cases q s with
    ⟨-, e⟩ | ⟨-, ⟨-, e⟩ | ⟨cw, ops, -, ⟨code, -, e⟩ | ⟨i, rest, -, -, e⟩ | ⟨op, ch, -, -, e⟩⟩⟩ <;> rw [e] at h
  · exact recordsFault_of_exec (.refl s) hnil (fun _ => rfl) h hne
  · cases h
    exact absurd rfl hne
  · cases h
    exact recordsFault_recordFault (s := s) (v := s.consume q _) ⟨rfl, rfl, rfl⟩ hnil
      (waiting_consume s q · _) code cw
  · exact recordsFault_of_exec (v := s.consume q _) ⟨rfl, rfl, rfl⟩ hnil (waiting_consume s q · _) h hne
  · cases h
    exact absurd rfl hne

/-- A step that adds a record is a step of a port, from decode or from a command. -/
theorem recordsFault_of_step {s t : State} (h : step s = .next t) (hne : t.faults ≠ s.faults) : RecordsFault s t := by
  obtain ⟨-, hnil, ⟨-, rfl⟩ | ⟨q, d, rest, -, hport⟩ | ⟨ch, rest, -, hloss⟩ | ⟨ch, addr, bytes, rest, -, hwrite⟩⟩ :=
    step_cases h
  · exact absurd rfl hne
  · exact recordsFault_of_servePort (s := s.running q d rest) hnil hport hne
  · cases hloss
    exact absurd rfl hne
  · unfold envCorruptWrite at hwrite
    split at hwrite
    · cases hwrite
      exact absurd (sameElsewhere_foreignWrite { s with schedule := rest } ch addr bytes).faults hne
    · cases hwrite

/-- Settles O9: only the recording of a fault changes FAULTS, and `step` looks at FAULTS before it takes a move. -/
theorem faultRecordsItselfAndHalts : Obligations.FaultRecordsItselfAndHalts := by
  refine ⟨fun i s t h hne => ?record, fun i s t r => mem_faults_of_exec, fun s t => recordsFault_of_step,
    fun s hl hne => ⟨?halt, ?notGood⟩⟩
  case record =>
    obtain ⟨code, rfl⟩ := eq_recordFault_of_faults_ne h hne
    exact ⟨code, State.recordFault_faults_of_ne hne, rfl⟩
  case halt => rw [step, if_pos hl, if_neg hne]
  case notGood => rwa [State.good, List.isEmpty_eq_false_iff]

end Sys2Proof.Machine
end

section
/-! PROOFS. Who may change what (60_exceptions.md R219, R220): the bytes a command can store to, what it leaves of the other channel,
and the registers that the producer, the consumer and INIT leave alone in their own. -/

namespace Sys2Proof.Machine

/-! ### The bytes a command can store to (20_memory.md R50 to R52) -/

/-- Command `i` may store to the byte at `a`: a PUSH to PUT and the slots of its channel, DRAIN_END and INIT to its GET, and no other
command to any byte (41_ring_producer.md R140, 42_ring_consumer.md R162, 43_channel_control.md R190). -/
def Instr.mayStore (cfg : Config) (a : Nat) : Instr → Prop
  | .push ch _ => Within a (cfg.cellAddr ch .put) 4 ∨ Within a (cfg.slotAddr ch 0) (cfg.cap.val ch * cfg.slotBytes)
  | .drainEnd ch => Within a (cfg.cellAddr ch .get) 4
  | .init ch => Within a (cfg.cellAddr ch .get) 4
  | _ => False

/-- A slot below CAP is one of the slots. -/
theorem within_slots {cfg : Config} {ch : Chan} {j a : Nat} (hj : j < cfg.cap.val ch)
    (h : Within a (cfg.slotAddr ch j) cfg.slotBytes) :
    Within a (cfg.slotAddr ch 0) (cfg.cap.val ch * cfg.slotBytes) := by
  have hslot := Config.slot_in_segment cfg ch j hj
  simp only [Within, Config.slotAddr, Config.segmentLength] at h hslot ⊢
  omega

theorem CommandEffect.readByte_of_not_mayStore {s u : State} {i : Instr} {r : Option Response} (h : CommandEffect s i r u)
    (hl : s.cfg.legal = true) (hw : i.wellFormed s.cfg.slotWords = true) {a : Nat} (ha : ¬ Instr.mayStore s.cfg a i) :
    u.mem.readByte a = s.mem.readByte a := by
  cases h with
  | pushOk ch slot =>
    obtain ⟨hput, hslots⟩ := not_or.1 ha
    exact State.readByte_pushed_outside (slotBytesOf_length_of_wellFormed hl hw) ch
      (fun hin => hslots (within_slots (Config.slotOf_lt hl ch _) hin)) hput
  | drainEnded ch => exact State.readByte_drainEnded_outside s ch ha
  | initialised ch => exact State.readByte_reinit_outside s ch ha
  | _ => rfl

/-- A command other than PUSH stores to GET or to no byte. -/
theorem within_get_of_mayStore {cfg : Config} {a : Nat} {i : Instr} (hpush : i.op ≠ .push) (h : Instr.mayStore cfg a i) :
    Within a (cfg.cellAddr i.chan .get) 4 := by
  cases i with
  | push ch slot => exact absurd rfl hpush
  | drainEnd ch => exact h
  | init ch => exact h
  | _ => exact h.elim

/-- A command stores to its own channel's segment only. -/
theorem inSegment_of_mayStore {cfg : Config} {a : Nat} {i : Instr} (h : Instr.mayStore cfg a i) :
    cfg.inSegment i.chan a = true := by
  rw [inSegment_iff]
  have header {ch : Chan} {c : IndexCell} (hc : Within a (cfg.cellAddr ch c) 4) :
      Within a (cfg.base.val ch) (cfg.segmentLength ch) := by
    have := cfg.base_le_cellAddr ch c
    simp only [Within, Config.segmentLength] at hc ⊢
    omega
  cases i with
  | push ch slot =>
    rcases h with hput | hslots
    · exact header hput
    · simp only [Within, Config.slotAddr, Config.segmentLength, Instr.chan] at hslots ⊢
      omega
  | _ => exact header (within_get_of_mayStore (by simp [Instr.op]) h)

/-- No byte is in both segments (00_scope.md R8). -/
theorem not_inSegment_of_ne {cfg : Config} (hl : cfg.legal = true) {ch ch' : Chan} (hne : ch' ≠ ch) {a : Nat}
    (h : cfg.inSegment ch' a = true) : cfg.inSegment ch a ≠ true := by
  have happart := Config.segments_apart hl hne
  rw [Ne, inSegment_iff]
  rw [inSegment_iff] at h
  unfold Within at h ⊢
  omega

/-! ### The ports (30_encoding.md R90, R95) -/

/-- A command that answers a next state was stopped by the port check and recorded it, or its port is the channel's, of a legal
role. -/
theorem exec_portChecked {i : Instr} {s t : State} (h : exec i s = .next t) :
    (∃ code, t = s.recordFault code (commandWord i.op i.chan)) ∨ (i.chan = s.port.chan ∧ i.op.legalOn s.port.role = true) := by
  cases hp : portFault s.port i.op i.chan with
  | none => exact .inr ((portFault_eq_none ..).1 hp)
  | some code => exact .inl ⟨code, by simpa using h.symm.trans (exec_of_portFault hp)⟩

/-- A command changes at most its own port. -/
theorem ports_eq_of_commandEnd {s : State} {i : Instr} {r : Option Response} {ports : PerPort PortState}
    (h : CommandEnd s i r ports) {q : Port} (hq : q ≠ s.port) : ports.val q = s.ports.val q := by
  cases h
  case woken => simp [hq]
  case timedOut => simp [hq]
  case held => simp [hq]
  all_goals rfl

/-- Settles O31: a command stores to its own segment, changes its own channel's registers, and sets what is outstanding on its own
port. -/
theorem channelsAreIsolated : Obligations.ChannelsAreIsolated := by
  intro s t i ch hl hw h hne
  obtain ⟨u, effect, after⟩ := exec_effect h
  refine ⟨by rw [after.ch, effect.ch_other hne], fun q hq => ?port, fun a ha => ?byte⟩
  case port =>
    rcases exec_portChecked h with ⟨code, rfl⟩ | ⟨hchan, -⟩
    · rfl
    · exact ports_eq_of_commandEnd (exec_commandEnd h) fun e => hne (by rw [← hq, e, hchan])
  case byte =>
    rw [after.mem]
    exact effect.readByte_of_not_mayStore hl hw fun hstore =>
      not_inSegment_of_ne hl hne ha (inSegment_of_mayStore hstore)

/-! ### The registers each agent may change (R219) -/

/-- What the producer may change of its channel: besides histories and frontiers, WAKE by setting it, and PFAULT. -/
def Channel.ProducerMayChange (x y : Channel) : Prop :=
  y = { x with older := y.older, front := y.front, wake := y.wake, pFault := y.pFault } ∧ (y.wake = x.wake ∨ y.wake = true)

/-- What the consumer may change of its channel: besides histories and frontiers, the drain, CFAULT, WAKE by clearing it, and the
tracker. -/
def Channel.ConsumerMayChange (x y : Channel) : Prop :=
  y = { x with
    older := y.older, front := y.front, cDrain := y.cDrain, clGet := y.clGet, clLimit := y.clLimit, cFault := y.cFault
    wake := y.wake, ts := y.ts } ∧ (y.wake = x.wake ∨ y.wake = false)

/-- What INIT may change of its channel: besides histories and frontiers, CHSTATE and the sticky bits. -/
def Channel.InitMayChange (x y : Channel) : Prop :=
  y = { x with older := y.older, front := y.front, chState := y.chState, pFault := y.pFault, cFault := y.cFault }

section Effects
variable {s u : State} {r : Option Response} {ch : Chan}

theorem CommandEffect.producerMayChange {slot : List Word} (h : CommandEffect s (.push ch slot) r u)
    (hl : s.cfg.legal = true) (hw : (Instr.push ch slot).wellFormed s.cfg.slotWords = true) :
    (s.ch ch).ProducerMayChange (u.ch ch) := by
  cases h with
  | nothing => exact ⟨rfl, .inl rfl⟩
  | pushCorrupt =>
    rw [State.ch_setPFault, if_pos rfl, State.ch_pushReads_same]
    exact ⟨rfl, .inl rfl⟩
  | pushFull =>
    rw [State.ch_pushReads_same]
    exact ⟨rfl, .inl rfl⟩
  | pushOk =>
    have hch := State.ch_pushed hl (slotBytesOf_length_of_wellFormed hl hw) ch
    rw [State.pushed] at hch
    rw [hch]
    exact ⟨rfl, .inr rfl⟩

theorem CommandEffect.consumerMayChange {i : Instr} (h : CommandEffect s i r u) (hpush : i.op ≠ .push) (hinit : i.op ≠ .init) :
    (s.ch i.chan).ConsumerMayChange (u.ch i.chan) := by
  cases h with
  | nothing => exact ⟨rfl, .inl rfl⟩
  | pushCorrupt => exact absurd rfl hpush
  | pushFull => exact absurd rfl hpush
  | pushOk => exact absurd rfl hpush
  | drainCorrupt ch =>
    rw [Instr.chan, State.ch_setCFault, if_pos rfl, State.ch_drainReads_same]
    exact ⟨rfl, .inl rfl⟩
  | drainOpened ch =>
    rw [Instr.chan, State.ch_openDrain, if_pos rfl, State.ch_drainReads_same]
    exact ⟨rfl, .inl rfl⟩
  | popped ch =>
    rw [Instr.chan, State.ch_updCh, if_pos rfl]
    exact ⟨rfl, .inl rfl⟩
  | drainEnded ch =>
    rw [Instr.chan, State.ch_drainEnd, if_pos rfl]
    exact ⟨rfl, .inl rfl⟩
  | initialised => exact absurd rfl hinit
  | woken ch =>
    rw [Instr.chan, State.ch_setWake, if_pos rfl]
    exact ⟨rfl, .inr rfl⟩
  | tracked ch raw =>
    rw [Instr.chan, State.ch_updCh, if_pos rfl]
    exact ⟨rfl, .inl rfl⟩
  | trackerCleared ch =>
    rw [Instr.chan, State.ch_updCh, if_pos rfl]
    exact ⟨rfl, .inl rfl⟩

theorem CommandEffect.initMayChange (h : CommandEffect s (.init ch) r u) : (s.ch ch).InitMayChange (u.ch ch) := by
  cases h with
  | nothing => exact rfl
  | initialised =>
    rw [State.ch_reinit, if_pos rfl]
    exact rfl

/-- INIT aside, PUSH alone publishes PUT and DRAIN_END alone publishes GET (20_memory.md R62). -/
theorem CommandEffect.hist_eq {i : Instr} (h : CommandEffect s i r u) (hl : s.cfg.legal = true)
    (hw : i.wellFormed s.cfg.slotWords = true) {c : IndexCell} (hinit : i.op ≠ .init) (hput : i.op = .push → c ≠ .put)
    (hget : i.op = .drainEnd → c ≠ .get) : u.hist i.chan c = s.hist i.chan c := by
  cases h with
  | pushOk ch slot =>
    rw [Instr.chan, State.hist_pushPublish (s := s.pushReads ch) hl (slotBytesOf_length_of_wellFormed hl hw),
      if_neg (hput rfl), State.pushReads, State.hist_readIndex, State.hist_readIndex]
  | drainEnded ch => rw [Instr.chan, State.hist_drainEnd hl, if_neg (hget rfl)]
  | initialised => exact absurd rfl hinit
  | _ => exact State.hist_congr _ _ (by simp [Instr.chan, State.ch_pushReads, State.ch_drainReads]) rfl

end Effects

/-- On a producer port only PUSH and INIT are legal (30_encoding.md R92). -/
theorem eq_push_of_producer {i : Instr} (h : i.op.legalOn .producer = true) (hinit : i.op ≠ .init) :
    ∃ ch slot, i = .push ch slot := by
  cases i with
  | push ch slot => exact ⟨ch, slot, rfl⟩
  | init ch => exact absurd rfl hinit
  | _ => cases h

/-- On a consumer port PUSH is not legal (R92). -/
theorem op_ne_push_of_consumer {op : Op} (h : op.legalOn .consumer = true) : op ≠ .push := by
  rintro rfl
  cases h

theorem eq_init_of_op {i : Instr} (h : i.op = .init) : ∃ ch, i = .init ch := by
  cases i with
  | init ch => exact ⟨ch, rfl⟩
  | _ => cases h

/-- Settles O32: past the port check the producer's command is a PUSH and the consumer's is not, and each effect changes what its
agent may. -/
theorem agentsChangeOnlyTheirState : Obligations.AgentsChangeOnlyTheirState := by
  intro s t i hl hw h ch
  obtain ⟨u, effect, after⟩ := exec_effect h
  have stored {a : Nat} (ha : ¬ Instr.mayStore s.cfg a i) : t.mem.readByte a = s.mem.readByte a := by
    rw [after.mem, effect.readByte_of_not_mayStore hl hw ha]
  refine ⟨fun ch' hne => by rw [after.ch, effect.ch_other hne], fun hinit hport => ?producer, fun hinit hport => ?consumer,
    fun hinit => ?init⟩
  case producer =>
    rcases exec_portChecked h with ⟨code, rfl⟩ | ⟨-, hlegal⟩
    · exact ⟨rfl, .inl rfl, rfl, fun _ _ _ => rfl⟩
    rw [hport] at hlegal
    obtain ⟨ch', slot, rfl⟩ := eq_push_of_producer hlegal hinit
    have hch := effect.producerMayChange hl hw
    rw [← after.ch] at hch
    refine ⟨hch.1, hch.2, ?_, fun a hput hslots => stored (not_or.2 ⟨hput, hslots⟩)⟩
    rw [after.hist]
    exact effect.hist_eq hl hw hinit (by simp) (by simp [Instr.op])
  case consumer =>
    rcases exec_portChecked h with ⟨code, rfl⟩ | ⟨-, hlegal⟩
    · exact ⟨rfl, .inl rfl, rfl, fun _ _ => rfl⟩
    rw [hport] at hlegal
    have hpush := op_ne_push_of_consumer hlegal
    have hch := effect.consumerMayChange hpush hinit
    rw [← after.ch] at hch
    refine ⟨hch.1, hch.2, ?_, fun a hget => stored fun hstore => hget (within_get_of_mayStore hpush hstore)⟩
    rw [after.hist]
    exact effect.hist_eq hl hw hinit (absurd · hpush) (by simp)
  case init =>
    obtain ⟨ch', rfl⟩ := eq_init_of_op hinit
    have hch := effect.initMayChange
    rw [← after.ch] at hch
    exact ⟨hch, fun a => stored⟩

end Sys2Proof.Machine
end

section
/-! PROOFS. ProtocolCorruption (10_state.md R41, 60_exceptions.md R211): the commands that answer CORRUPT, when they do, and that the
answer records a sticky bit and nothing else. -/

namespace Sys2Proof.Machine

/-- A PUSH or a DRAIN_BEGIN finds its side's sticky bit set, or reads an occupancy above CAP (R211). -/
def CorruptCause (s : State) : Instr → Prop
  | .push ch _ => (s.ch ch).pFault = true ∨ s.cfg.cap.val ch < (s.cell ch .put - s.view (.prod ch) ch .get).toNat
  | .drainBegin ch => (s.ch ch).cFault = true ∨ s.cfg.cap.val ch < (s.view (.cons ch) ch .put - s.cell ch .get).toNat
  | _ => False

/-- `RecordsCorruption s i t`: past the response, `t` differs from `s` at most in the sticky bit of `i`'s side, set, and in frontiers of
`i`'s channel. -/
structure RecordsCorruption (s : State) (i : Instr) (t : State) : Prop where
  mem : t.mem = s.mem
  faults : t.faults = s.faults
  otherChannel : ∀ ch, ch ≠ i.chan → t.ch ch = s.ch ch
  push : i.op = .push → t.ch i.chan = { s.ch i.chan with pFault := true, front := (t.ch i.chan).front }
  drainBegin : i.op = .drainBegin → t.ch i.chan = { s.ch i.chan with cFault := true, front := (t.ch i.chan).front }

section Records
variable {s : State} {ch : Chan}

theorem recordsCorruption_push_of_pFault (slot : List Word) (h : (s.ch ch).pFault = true) :
    RecordsCorruption s (.push ch slot) s where
  mem := rfl
  faults := rfl
  otherChannel _ _ := rfl
  push _ := by rw [← h]; rfl
  drainBegin hop := by cases hop

theorem recordsCorruption_setPFault (slot : List Word) : RecordsCorruption s (.push ch slot) ((s.pushReads ch).setPFault ch) where
  mem := rfl
  faults := rfl
  otherChannel := ((sameElsewhere_pushReads s ch).trans (sameElsewhere_setPFault _ ch)).otherChannel
  push _ := by rw [Instr.chan, State.ch_setPFault, if_pos rfl, State.ch_pushReads_same]
  drainBegin hop := by cases hop

theorem recordsCorruption_drainBegin_of_cFault (h : (s.ch ch).cFault = true) : RecordsCorruption s (.drainBegin ch) s where
  mem := rfl
  faults := rfl
  otherChannel _ _ := rfl
  push hop := by cases hop
  drainBegin _ := by rw [← h]; rfl

theorem recordsCorruption_setCFault : RecordsCorruption s (.drainBegin ch) ((s.drainReads ch).setCFault ch) where
  mem := rfl
  faults := rfl
  otherChannel := ((sameElsewhere_drainReads s ch).trans (sameElsewhere_updCh _ ch _)).otherChannel
  push hop := by cases hop
  drainBegin _ := by rw [Instr.chan, State.ch_setCFault, if_pos rfl, State.ch_drainReads_same]

end Records

/-! ### Past the checks that come first (R214) -/

theorem portFault_of_faultOf_none {s : State} {i : Instr} (h : faultOf i s = none) : portFault s.port i.op i.chan = none := by
  cases hp : portFault s.port i.op i.chan with
  | none => rfl
  | some code => simp [faultOf_of_portFault hp] at h

/-- A port that may issue a command of one role only is the channel's port of that role (30_encoding.md R95). -/
theorem port_eq_of_portFault_none {q : Port} {op : Op} {ch : Chan} {role : Role} (h : portFault q op ch = none)
    (only : ∀ r, op.legalOn r = true → r = role) : q = ⟨role, ch⟩ := by
  obtain ⟨rfl, hlegal⟩ := (portFault_eq_none ..).1 h
  rw [← only _ hlegal]

theorem push_ready_of_no_fault {s : State} {ch : Chan} {slot : List Word} (h : faultOf (.push ch slot) s = none) :
    s.port = ⟨.producer, ch⟩ ∧ (s.ch ch).chState = .ready := by
  have hp : portFault s.port .push ch = none := portFault_of_faultOf_none h
  refine ⟨port_eq_of_portFault_none hp (by intro r; cases r <;> decide), State.isUninit_eq_false.1 ?_⟩
  cases hu : s.isUninit ch with
  | false => rfl
  | true => simp [faultOf_push slot hp, hu] at h

theorem drainBegin_ready_of_no_fault {s : State} {ch : Chan} (h : faultOf (.drainBegin ch) s = none) :
    s.port = ⟨.consumer, ch⟩ ∧ (s.ch ch).chState = .ready ∧ (s.ch ch).cDrain = false := by
  have hp : portFault s.port .drainBegin ch = none := portFault_of_faultOf_none h
  have hu : s.isUninit ch = false := by
    cases hu : s.isUninit ch with
    | false => rfl
    | true => simp [faultOf_drainBegin hp, hu] at h
  refine ⟨port_eq_of_portFault_none hp (by intro r; cases r <;> decide), State.isUninit_eq_false.1 hu, ?_⟩
  cases hd : (s.ch ch).cDrain with
  | false => rfl
  | true => simp [faultOf_drainBegin hp, hu, hd] at h

/-! ### The answer (R211) -/

/-- `CorruptionEnd s i`: command `i`, run in `s`, has a cause of ProtocolCorruption and answers CORRUPT, or has none and does not. -/
inductive CorruptionEnd (s : State) (i : Instr) : Prop
  | corrupt (v : State) (cause : CorruptCause s i) (ends : exec i s = respond .corrupt [] v) (records : RecordsCorruption s i v)
  | other (noCause : ¬ CorruptCause s i)
      (status : ∀ t r, exec i s = .next t → t.response = some r → r.status ≠ .corrupt)

theorem corruptionEnd_of_respond {s v : State} {i : Instr} {st : Status} {data : List Word} (noCause : ¬ CorruptCause s i)
    (hst : st ≠ .corrupt) (h : exec i s = respond st data v) : CorruptionEnd s i :=
  .other noCause fun _ _ ht hr => status_of_respond ht hr h ▸ hst

theorem push_corruptionEnd {s : State} {ch : Chan} {slot : List Word} (h : faultOf (.push ch slot) s = none) :
    CorruptionEnd s (.push ch slot) := by
  obtain ⟨hport, hready⟩ := push_ready_of_no_fault h
  cases hf : (s.ch ch).pFault with
  | true => exact .corrupt s (.inl hf) (exec_push_of_pFault slot hport hready hf) (recordsCorruption_push_of_pFault slot hf)
  | false =>
    have noCause (hocc : (s.cell ch .put - s.view (.prod ch) ch .get).toNat ≤ s.cfg.cap.val ch) :
        ¬ CorruptCause s (.push ch slot) := not_or.2 ⟨by simp [hf], hocc.not_gt⟩
    rcases exec_push_cases_of_ready slot hport hready hf with ⟨above, e⟩ | ⟨full, e⟩ | ⟨space, -, e⟩ | ⟨space, -, e⟩
    · exact .corrupt _ (.inr above) e (recordsCorruption_setPFault slot)
    · exact corruptionEnd_of_respond (noCause full.le) (by decide) e
    · exact .other (noCause space.le) fun _ _ ht hr => absurd e (ne_recordFault_of_response ht hr _ _)
    · exact corruptionEnd_of_respond (noCause space.le) (by decide) e

theorem drainBegin_corruptionEnd {s : State} {ch : Chan} (h : faultOf (.drainBegin ch) s = none) :
    CorruptionEnd s (.drainBegin ch) := by
  obtain ⟨hport, hready, hclosed⟩ := drainBegin_ready_of_no_fault h
  cases hf : (s.ch ch).cFault with
  | true =>
    exact .corrupt s (.inl hf) (exec_drainBegin_of_cFault hport hready hclosed hf) (recordsCorruption_drainBegin_of_cFault hf)
  | false =>
    rcases exec_drainBegin_cases_of_ready hport hready hclosed hf with ⟨above, e⟩ | ⟨within, e⟩
    · exact .corrupt _ (.inr above) e recordsCorruption_setCFault
    · exact corruptionEnd_of_respond (not_or.2 ⟨by simp [hf], within.not_gt⟩) (by decide) e

/-- Only PUSH and DRAIN_BEGIN have the status CORRUPT (30_encoding.md R99). -/
theorem op_of_corrupt {s : State} {i : Instr} {r : Response} {ports : PerPort PortState} (h : CommandEnd s i (some r) ports)
    (hc : r.status = .corrupt) : i.op = .push ∨ i.op = .drainBegin := by
  cases h
  case pushCorrupt => exact .inl rfl
  case drainCorrupt => exact .inr rfl
  all_goals cases hc

/-- A command that no model fault ends answers CORRUPT exactly if it has a cause to. -/
theorem exec_corruptionEnd {i : Instr} {s : State} (h : faultOf i s = none) : CorruptionEnd s i := by
  have never (hpush : i.op ≠ .push) (hdrain : i.op ≠ .drainBegin) (t : State) (r : Response) (ht : exec i s = .next t)
      (hr : t.response = some r) : r.status ≠ .corrupt := fun hc =>
    (op_of_corrupt (hr ▸ exec_commandEnd ht) hc).elim hpush hdrain
  cases i with
  | push ch slot => exact push_corruptionEnd h
  | drainBegin ch => exact drainBegin_corruptionEnd h
  | _ => exact .other id (never (by simp [Instr.op]) (by simp [Instr.op]))

/-- A command that responds had no model fault. -/
theorem faultOf_none_of_response {i : Instr} {s t : State} {r : Response} (h : exec i s = .next t) (hr : t.response = some r) :
    faultOf i s = none := by
  cases exec_checkedEnd i s with
  | faulted code _ ends => exact absurd ends (ne_recordFault_of_response h hr _ _)
  | passed _ noFault => exact noFault

theorem corruptCause_iff {s : State} {i : Instr} :
    CorruptCause s i ↔
      (∃ ch slot, i = .push ch slot ∧
        ((s.ch ch).pFault = true ∨ s.cfg.cap.val ch < (s.cell ch .put - s.view (.prod ch) ch .get).toNat)) ∨
      (∃ ch, i = .drainBegin ch ∧
        ((s.ch ch).cFault = true ∨ s.cfg.cap.val ch < (s.view (.cons ch) ch .put - s.cell ch .get).toNat)) := by
  constructor
  · intro h
    cases i with
    | push ch slot => exact .inl ⟨ch, slot, rfl, h⟩
    | drainBegin ch => exact .inr ⟨ch, rfl, h⟩
    | _ => exact h.elim
  · rintro (⟨ch, slot, rfl, h⟩ | ⟨ch, rfl, h⟩) <;> exact h

/-- Settles O34: a response says that no fault came first, and then CORRUPT is answered exactly for its cause. -/
theorem corruptOnlyFromTheOccupancyCheck : Obligations.CorruptOnlyFromTheOccupancyCheck := by
  intro s t i h
  rw [← corruptCause_iff]
  refine ⟨⟨fun ⟨r, hr, hc⟩ => ?_, fun ⟨hno, hcause⟩ => ?_⟩, fun r hr hc => ?_⟩
  · have hno := faultOf_none_of_response h hr
    cases exec_corruptionEnd hno with
    | corrupt v cause => exact ⟨hno, cause⟩
    | other _ status => exact absurd hc (status t r h hr)
  · cases exec_corruptionEnd hno with
    | corrupt v _ ends =>
      cases h.symm.trans ends
      exact ⟨_, rfl, rfl⟩
    | other noCause => exact absurd hcause noCause
  · cases exec_corruptionEnd (faultOf_none_of_response h hr) with
    | corrupt v _ ends records =>
      cases h.symm.trans ends
      cases hr
      exact ⟨rfl, records.mem, records.faults, records.otherChannel, records.push, records.drainBegin⟩
    | other _ status => exact absurd hc (status t r h hr)

end Sys2Proof.Machine
end

section
/-! PROOFS. Power-on (70_reset_and_hazards.md R250), for every configuration and every draw. -/

namespace Sys2Proof.Machine

section PowerOn
variable (cfg : Config) (mem : Memory) (draws : PerChan ChannelDraws) (words : PerPort (List Word)) (sched : List Move) (d : Nat)

theorem State.ch_powerOn (ch : Chan) : (State.powerOn cfg mem draws words sched d).ch ch = .powerOn (draws.val ch) := by
  cases ch <;> rfl

theorem State.hist_powerOn (ch : Chan) (c : IndexCell) :
    (State.powerOn cfg mem draws words sched d).hist ch c = [(State.powerOn cfg mem draws words sched d).cell ch c] := by
  rw [State.hist, State.ch_powerOn]
  cases c <;> rfl

theorem State.front_powerOn (a : Agent) (ch : Chan) (c : IndexCell) :
    (State.powerOn cfg mem draws words sched d).front a ch c = 0 := by
  rw [State.front, State.ch_powerOn]
  rcases a with (_ | _) | (_ | _) | _ <;> cases c <;> rfl

theorem State.waiting_powerOn (q : Port) : ((State.powerOn cfg mem draws words sched d).ports.val q).waiting = false := by
  rcases q with ⟨_ | _, _ | _⟩ <;> rfl

end PowerOn

/-- Settles O43: at power-on every frontier is 0. -/
theorem frontiersInHistoryAtPowerOn : Obligations.FrontiersInHistoryAtPowerOn := by
  intro cfg mem draws words sched d a ch c
  rw [State.front_powerOn]
  exact Nat.zero_le _

/-- Settles O48: the fields are those of the definition, channel by channel and port by port. -/
theorem powerOnValues : Obligations.PowerOnValues := by
  refine ⟨fun cfg mem draws words sched d => ?_, ⟨_, _, _, _, _, rfl⟩⟩
  refine ⟨rfl, rfl, rfl, State.waiting_powerOn _ _ _ _ _ _, fun ch => ?_⟩
  refine ⟨State.hist_powerOn _ _ _ _ _ _ ch, fun a c => State.front_powerOn .., ?_⟩
  rw [State.ch_powerOn]
  exact ⟨rfl, rfl, rfl, rfl, rfl, rfl, rfl⟩

/-- Settles O50: at power-on no channel is READY and each is fresh, so nothing is asked of the segments. -/
theorem powerOnIsDisciplined : Obligations.PowerOnIsDisciplined := by
  refine fun cfg mem draws words sched d hcfg => ⟨hcfg, fun ch => ?_⟩
  have hch := State.ch_powerOn cfg mem draws words sched d ch
  constructor
  case pFault => rw [hch]; rfl
  case cFault => rw [hch]; rfl
  case fresh => exact fun _ => ⟨by rw [hch]; rfl, by rw [hch]; rfl⟩
  case ring =>
    intro hready
    rw [hch] at hready
    cases hready

end Sys2Proof.Machine
end

section
/-! PROOFS. Where the index window crosses zero (70_reset_and_hazards.md R255): two indices of the window that share a slot. -/

namespace Sys2Proof.Machine

/-- Of two equal sums, the first terms agree modulo `m` exactly if the second ones do. -/
theorem modEq_iff_of_add_eq {a b d e m : Nat} (h : a + d = b + e) : a ≡ b [MOD m] ↔ d ≡ e [MOD m] :=
  ⟨fun hab => hab.add_left_cancel (congrArg (· % m) h), fun hde => hde.add_right_cancel (congrArg (· % m) h)⟩

/-- An index of the window below CAP has the slot of the window's end exactly if the window crosses zero between the two, at a
distance of `2^32 mod CAP`. -/
theorem slotOf_window_eq_iff {cfg : Config} {ch : Chan} {g p : Word} {k : Nat} (hk : k < (p - g).toNat)
    (hcap : (p - g).toNat < cfg.cap.val ch) :
    cfg.slotOf ch (g + BitVec.ofNat 32 k) = cfg.slotOf ch p ↔
      p.toNat < g.toNat ∧ g.toNat + k < 2 ^ 32 ∧ (p - g).toNat - k = 2 ^ 32 % cfg.cap.val ch := by
  have hdist : ((p - g).toNat - k) % cfg.cap.val ch = (p - g).toNat - k := Nat.mod_eq_of_lt (by omega)
  by_cases hwrap : p.toNat < g.toNat ∧ g.toNat + k < 2 ^ 32
  · have hsum : (g + BitVec.ofNat 32 k).toNat + ((p - g).toNat - k) = p.toNat + 2 ^ 32 := by bv_omega
    refine (modEq_iff_of_add_eq hsum).trans ?_
    rw [Nat.ModEq, hdist]
    tauto
  · have hsum : (g + BitVec.ofNat 32 k).toNat + ((p - g).toNat - k) = p.toNat + 0 := by bv_omega
    refine (modEq_iff_of_add_eq hsum).trans ?_
    rw [Nat.ModEq, hdist, Nat.zero_mod]
    omega

/-- With occupancy below CAP the overwrite check finds the slot of an unread index (41_ring_producer.md R141). -/
theorem State.overwrites_iff {s : State} {ch : Chan} {p : Word} (h : (p - s.cell ch .get).toNat < s.cfg.cap.val ch) :
    s.overwrites ch p = true ↔
      ∃ k < (p - s.cell ch .get).toNat, s.cfg.slotOf ch (s.cell ch .get + BitVec.ofNat 32 k) = s.cfg.slotOf ch p := by
  simp [State.overwrites, h.not_ge, -BitVec.toNat_sub]

/-- Settles O16: the one candidate is the unread index `2^32 mod CAP` before the one pushed. -/
theorem overwriteOnlyAcrossTheWrap : Obligations.OverwriteOnlyAcrossTheWrap := by
  intro s ch _ hocc
  have hiff : s.overwrites ch (s.cell ch .put) = true ↔
      (s.cell ch .put).toNat < (s.cell ch .get).toNat ∧ 2 ^ 32 % s.cfg.cap.val ch ≤ (s.occupied ch).toNat ∧
        (s.cell ch .put).toNat < 2 ^ 32 % s.cfg.cap.val ch := by
    rw [State.overwrites_iff hocc]
    have hput : (s.occupied ch).toNat = (s.cell ch .put - s.cell ch .get).toNat := rfl
    constructor
    · rintro ⟨k, hk, hslot⟩
      obtain ⟨hcross, hbefore, hdist⟩ := (slotOf_window_eq_iff hk hocc).1 hslot
      bv_omega
    · rintro ⟨hcross, hle, hlt⟩
      refine ⟨(s.occupied ch).toNat - 2 ^ 32 % s.cfg.cap.val ch, by omega, ?_⟩
      exact (slotOf_window_eq_iff (by omega) hocc).2 ⟨hcross, by bv_omega, by omega⟩
  refine ⟨hiff, fun hdvd => Bool.eq_false_iff.2 fun hover => ?_⟩
  have := (hiff.1 hover).2.2
  omega

end Sys2Proof.Machine
end

section
/-! PROOFS. Infinite runs (70_reset_and_hazards.md R261): what one moment of a run does, what weak fairness gives a port, and what
eventual visibility gives a peer that goes on reading. -/

namespace Sys2Proof.Machine

/-! ### The moments of a run -/

/-- Words that arrive change no channel. -/
theorem State.ch_arrive (s : State) (words : PerPort (List Word)) (ch : Chan) : (s.arrive words).ch ch = s.ch ch := rfl

theorem State.waiting_arriveAt (s : State) (q q' : Port) (ws : List Word) :
    ((s.arriveAt q ws).ports.val q').waiting = (s.ports.val q').waiting := by
  by_cases h : q' = q <;> simp [State.arriveAt, h]

/-- Words that arrive complete no command and issue none. -/
theorem State.waiting_arrive (s : State) (words : PerPort (List Word)) (q : Port) :
    ((s.arrive words).ports.val q).waiting = (s.ports.val q).waiting := by
  simp only [State.arrive, State.waiting_arriveAt]

namespace Run

theorem faults_eq_nil (r : Run) (n : Nat) : (r.state n).faults = [] := List.isEmpty_iff.1 (r.good n)

/-- The state a moment's move answers: without a fault, and with the channels and the outstanding commands of the next moment. -/
theorem exists_next (r : Run) (n : Nat) :
    ∃ t, takeMove (r.move n) (r.state n) = .next t ∧ t.faults = [] ∧ (∀ ch, (r.state (n + 1)).ch ch = t.ch ch) ∧
      ∀ q, ((r.state (n + 1)).ports.val q).waiting = (t.ports.val q).waiting := by
  obtain ⟨words, t, ht, hnext⟩ := r.takes n
  have hgood := r.faults_eq_nil (n + 1)
  rw [hnext] at hgood
  refine ⟨t, ht, hgood, fun ch => ?_, fun q => ?_⟩
  · rw [hnext, State.ch_arrive]
  · rw [hnext, State.waiting_arrive]

end Run

theorem State.recordFault_faults_ne_nil (s : State) (code : FaultCode) (cw : Word) : (s.recordFault code cw).faults ≠ [] :=
  List.ne_nil_of_mem ((s.mem_recordFault_faults code cw _).2 (.inr rfl))

/-! ### Weak fairness (R261 (a)) -/

/-- A port whose agent has a step enabled from some moment on takes one, and not one that goes on holding. -/
theorem Run.weaklyFair.port_steps {r : Run} (h : r.weaklyFair) {q : Port} {n : Nat}
    (henabled : ∀ m, n ≤ m → ((r.state m).ports.val q).waiting = true ∨
      wordsReady (r.state m).cfg q ((r.state m).ports.val q).stream = true) :
    ∃ m d, n ≤ m ∧ r.move m = .port q d ∧ ¬ (r.state m).keepsHolding (.port q d) := by
  obtain ⟨m, hm, hagent, -, hsteps⟩ := h (agentOf q) n fun m hm =>
    ⟨.port q 0, rfl, by simpa [State.enabled, r.faults_eq_nil m] using henabled m hm⟩
  obtain ⟨d, hmove⟩ := Move.eq_port_of_agent hagent
  exact ⟨m, d, hm, hmove, hmove ▸ hsteps⟩

/-- A step of WAKE_WAIT that neither holds nor faults completes it (43_channel_control.md R191). -/
theorem waiting_of_wakeWait_completed {s t : State} {ch : Chan} (h : exec (.wakeWait ch) s = .next t) (hgood : t.faults = [])
    (hchoice : waitChoice (s.ch ch).wake s.draw ≠ .hold) : (t.ports.val s.port).waiting = false := by
  rcases execWakeWait_cases ch s with ⟨-, e⟩ | ⟨-, ⟨-, -, e⟩ | ⟨-, e⟩ | ⟨hold, -⟩⟩
  · cases h.symm.trans e
    exact absurd hgood (State.recordFault_faults_ne_nil _ _ _)
  · cases h.symm.trans e
    simp
  · cases h.symm.trans e
    simp
  · exact absurd hold hchoice

/-- Settles O56: a wait that never completed would keep its port enabled, and the step fairness gives the port completes it. -/
theorem fairWaitCompletes : Obligations.FairWaitCompletes := by
  intro r q n hfair _
  by_contra hnever
  have hwaiting : ∀ m, n ≤ m → ((r.state m).ports.val q).waiting = true := fun m hm => by
    by_contra hw
    exact hnever ⟨m, hm, Bool.eq_false_iff.2 hw⟩
  obtain ⟨m, d, hm, hmove, hsteps⟩ := hfair.port_steps fun m hm => .inl (hwaiting m hm)
  obtain ⟨t, ht, hgood, -, hnext⟩ := r.exists_next m
  have hw := hwaiting m hm
  have hexec : exec (.wakeWait q.chan) ((r.state m).select q d) = .next t := by
    rw [hmove] at ht
    exact (if_pos hw).symm.trans ht
  have hdone := waiting_of_wakeWait_completed hexec hgood fun hhold => hsteps ⟨hw, hhold⟩
  exact hnever ⟨m + 1, by omega, (hnext q).trans hdone⟩

/-- Settles O57: WAKE_LOSS is a step that ENV always has, and a port's steps are the moves of its agent. -/
theorem fairRunServesEveryAgent : Obligations.FairRunServesEveryAgent := by
  intro r n hfair
  constructor
  · obtain ⟨m, hm, hagent, henabled, -⟩ := hfair .env n fun m _ =>
      ⟨.wakeLoss .rx, rfl, by simp [State.enabled, r.faults_eq_nil m]⟩
    exact ⟨m, hm, hagent, henabled⟩
  · intro q henabled
    obtain ⟨m, d, hm, hmove, -⟩ := hfair.port_steps henabled
    exact ⟨m, d, hm, hmove⟩

/-! ### Eventual visibility (R261 (b)) -/

/-- The command of a move runs on its port, in a state with the block before the move and the move's draw. -/
theorem takeMove_of_commandOf {s : State} {m : Move} {q : Port} {i : Instr} (h : s.commandOf m = some (q, i)) :
    ∃ v, takeMove m s = exec i v ∧ v.port = q ∧ i.wellFormed v.cfg.slotWords = true ∧ SameBlock (s.onMove m) v ∧
      v.draw = (s.onMove m).draw := by
  cases m with
  | port q' d =>
    rw [State.commandOf] at h
    by_cases hw : (s.ports.val q').waiting = true
    · rw [if_pos hw] at h
      cases h
      exact ⟨s.select q d, if_pos hw, rfl, rfl, .refl _, rfl⟩
    · rw [if_neg hw] at h
      cases hst : (s.ports.val q').stream with
      | nil => rw [hst] at h; cases h
      | cons cw ops =>
        rw [hst] at h
        cases hd : decode s.cfg.slotWords (cw :: ops) with
        | error e => rw [hd] at h; cases h
        | ok x =>
          obtain ⟨j, rest⟩ := x
          rw [hd] at h
          cases h
          refine ⟨(s.select q d).consume q (transactionLength s.cfg.slotWords cw), ?_, rfl, decode_wellFormed hd,
            ⟨rfl, rfl, rfl⟩, rfl⟩
          rw [takeMove, servePort, State.select_ports, if_neg hw, hst]
          exact serveWords_of_command rfl hd
  | wakeLoss ch => cases h
  | corruptWrite ch addr bytes => cases h

theorem SameBlock.viewIndex {s t : State} (h : SameBlock s t) (hd : t.draw = s.draw) (a : Agent) (ch : Chan) (c : IndexCell) :
    t.viewIndex a ch c = s.viewIndex a ch c := by
  rw [State.viewIndex, h.histLast, h.front, hd, State.viewIndex]

theorem State.readsAsPeer_onMove {s : State} {m : Move} {q : Port} {i : Instr} {ch : Chan} {c : IndexCell} :
    (s.onMove m).readsAsPeer q i ch c ↔ s.readsAsPeer q i ch c := by
  cases m <;> cases c <;> rfl

theorem SameBlock.readsAsPeer {s t : State} (h : SameBlock s t) {q : Port} {i : Instr} {ch : Chan} {c : IndexCell}
    (hr : s.readsAsPeer q i ch c) : t.readsAsPeer q i ch c := by
  cases c <;> rw [State.readsAsPeer, h.ch] <;> exact hr

/-- An update that leaves the frontiers of its channel alone. -/
theorem State.front_updCh (s : State) {ch ch' : Chan} {f : Channel → Channel} {a : Agent} {c : IndexCell}
    (hf : ∀ x, (f x).front = x.front) : (s.updCh ch f).front a ch' c = s.front a ch' c := by
  rw [State.front, State.ch_updCh]
  split
  · next e => rw [hf, e, State.front]
  · rfl

theorem State.front_setPFault (s : State) (a : Agent) (ch ch' : Chan) (c : IndexCell) :
    (s.setPFault ch).front a ch' c = s.front a ch' c :=
  State.front_updCh s (by intro; rfl)

theorem State.front_setCFault (s : State) (a : Agent) (ch ch' : Chan) (c : IndexCell) :
    (s.setCFault ch).front a ch' c = s.front a ch' c :=
  State.front_updCh s (by intro; rfl)

theorem State.front_openDrain (s : State) (a : Agent) (ch ch' : Chan) (c : IndexCell) (g p : Word) :
    (s.openDrain ch g p).front a ch' c = s.front a ch' c :=
  State.front_updCh s (by intro; rfl)

/-- A PUSH that reads GET and does not fault leaves the producer's frontier on the entry it read (20_memory.md R61). -/
theorem front_of_push {s t : State} {ch : Chan} {slot : List Word} (hl : s.cfg.legal = true)
    (hw : (Instr.push ch slot).wellFormed s.cfg.slotWords = true) (hport : s.port = ⟨.producer, ch⟩)
    (hready : (s.ch ch).chState = .ready) (hfault : (s.ch ch).pFault = false) (h : exec (.push ch slot) s = .next t)
    (hgood : t.faults = []) : t.front (.prod ch) ch .get = s.viewIndex (.prod ch) ch .get := by
  rw [← State.front_pushReads_get]
  rcases exec_push_cases_of_ready slot hport hready hfault with ⟨-, e⟩ | ⟨-, e⟩ | ⟨-, -, e⟩ | ⟨-, -, e⟩ <;>
    cases h.symm.trans e
  · exact State.front_setPFault (s.pushReads ch) ..
  · rfl
  · exact absurd hgood (State.recordFault_faults_ne_nil _ _ _)
  · exact State.front_pushPublish (s := s.pushReads ch) hl (slotBytesOf_length_of_wellFormed hl hw) _ ch .get _
      (.inl (by decide))

/-- A DRAIN_BEGIN that reads PUT leaves the consumer's frontier on the entry it read (R61). -/
theorem front_of_drainBegin {s t : State} {ch : Chan} (hport : s.port = ⟨.consumer, ch⟩)
    (hready : (s.ch ch).chState = .ready) (hclosed : (s.ch ch).cDrain = false) (hfault : (s.ch ch).cFault = false)
    (h : exec (.drainBegin ch) s = .next t) : t.front (.cons ch) ch .put = s.viewIndex (.cons ch) ch .put := by
  rw [← State.front_drainReads_put]
  rcases exec_drainBegin_cases_of_ready hport hready hclosed hfault with ⟨-, e⟩ | ⟨-, e⟩ <;> cases h.symm.trans e
  · exact State.front_setCFault (s.drainReads ch) ..
  · exact State.front_openDrain (s.drainReads ch) ..

/-- A command that reads a cell as its peer and does not fault leaves the peer's frontier on the entry it read. -/
theorem front_of_readsAsPeer {s t : State} {i : Instr} {ch : Chan} {c : IndexCell} (hl : s.cfg.legal = true)
    (hw : i.wellFormed s.cfg.slotWords = true) (hr : s.readsAsPeer s.port i ch c) (h : exec i s = .next t)
    (hgood : t.faults = []) : t.front (peerOf ch c) ch c = s.viewIndex (peerOf ch c) ch c := by
  cases c with
  | put =>
    obtain ⟨hport, rfl, hready, hclosed, hfault⟩ := hr
    exact front_of_drainBegin hport hready hclosed hfault h
  | get =>
    obtain ⟨hport, ⟨slot, rfl⟩, hready, hfault⟩ := hr
    exact front_of_push hl hw hport hready hfault h hgood

/-- After a moment at which a cell's peer reads it, the peer's frontier is on the entry read. -/
theorem Run.front_of_peerReadsAt (r : Run) {ch : Chan} {c : IndexCell} {m : Nat} (h : r.peerReadsAt ch c m) :
    (r.state (m + 1)).front (peerOf ch c) ch c = ((r.state m).onMove (r.move m)).viewIndex (peerOf ch c) ch c := by
  obtain ⟨q, i, hcommand, hr⟩ := h
  obtain ⟨v, hv, rfl, hw, hblock, hdraw⟩ := takeMove_of_commandOf hcommand
  obtain ⟨t, ht, hgood, hch, -⟩ := r.exists_next m
  have hl : v.cfg.legal = true := by
    rw [hblock.cfg]
    cases r.move m <;> exact r.legal m
  have hfront : (r.state (m + 1)).front (peerOf ch c) ch c = t.front (peerOf ch c) ch c := by
    rw [State.front, hch, State.front]
  rw [hfront, ← hblock.viewIndex hdraw]
  exact front_of_readsAsPeer hl hw (hblock.readsAsPeer (State.readsAsPeer_onMove.2 hr)) (hv.symm.trans ht) hgood

/-- Settles O58: at a late enough read of the peer the entry read is the write or a later one, and its frontier moves there. -/
theorem visibleWritesAreObserved : Obligations.VisibleWritesAreObserved := by
  intro r ch c n hvisible hnoInit hreads
  obtain ⟨k, hk⟩ := hvisible ch c n
  obtain ⟨m, hm, hread⟩ := hreads (max n k)
  refine ⟨m, by omega, ?_⟩
  rw [r.front_of_peerReadsAt hread]
  exact hk m (by omega) (hnoInit m) hread

end Sys2Proof.Machine
end
